-- ==== Sys2Proof/Word.lean ====
section
/-! DEFINITION. The machine's word types (spec/00_scope.md R10, R14): a register, an address and an
instruction are 32-bit vectors; all arithmetic on them is modulo 2^32. -/

namespace Sys2Proof

/-- A 32-bit register value, address or instruction word (R10, R14). -/
abbrev Word := BitVec 32

/-- A byte of memory (R14). -/
abbrev Byte := BitVec 8

/-- A register number, the value of an A, B or C field (30_encoding.md R116). -/
abbrev Reg := BitVec 5

/-- The raw 16-bit immediate field (R115). -/
abbrev Imm16 := BitVec 16

/-- The raw 26-bit immediate field of a J-type word (R113). -/
abbrev Imm26 := BitVec 26

/-- The raw 5-bit field in bits 10..6: a shift count, a breakpoint type, or a control register number (R115). -/
abbrev Imm5 := BitVec 5

end Sys2Proof
end

