-- ==== Sys2Proof/Syntax.lean ====
section
/-! DEFINITION. The abstract syntax: one constructor of `Instr` per row of spec/opcode_table.json (87 rows), in
the order of 30_encoding.md R120, and the 19 assembler pseudo-instructions of 47_pseudo.md.

Operands stand in the order of the assembler syntax (R128): the destination first. The two drawn but unused
fields (`eret` bits 21..17, `flushp` bits 31..27; R122) are no operands and have no place here. -/

namespace Sys2Proof

/-- A machine instruction of the Nios II instruction set. -/
inductive Instr where
  -- arithmetic and logic (40_arith_logic.md)
  | add (c a b : Reg)
  | addi (b a : Reg) (imm : Imm16)
  | sub (c a b : Reg)
  | mul (c a b : Reg)
  | muli (b a : Reg) (imm : Imm16)
  | mulxss (c a b : Reg)
  | mulxsu (c a b : Reg)
  | mulxuu (c a b : Reg)
  | div (c a b : Reg)
  | divu (c a b : Reg)
  | and (c a b : Reg)
  | andi (b a : Reg) (imm : Imm16)
  | andhi (b a : Reg) (imm : Imm16)
  | or (c a b : Reg)
  | ori (b a : Reg) (imm : Imm16)
  | orhi (b a : Reg) (imm : Imm16)
  | xor (c a b : Reg)
  | xori (b a : Reg) (imm : Imm16)
  | xorhi (b a : Reg) (imm : Imm16)
  | nor (c a b : Reg)
  -- comparison (41_compare.md)
  | cmpeq (c a b : Reg)
  | cmpeqi (b a : Reg) (imm : Imm16)
  | cmpne (c a b : Reg)
  | cmpnei (b a : Reg) (imm : Imm16)
  | cmpge (c a b : Reg)
  | cmpgei (b a : Reg) (imm : Imm16)
  | cmpgeu (c a b : Reg)
  | cmpgeui (b a : Reg) (imm : Imm16)
  | cmplt (c a b : Reg)
  | cmplti (b a : Reg) (imm : Imm16)
  | cmpltu (c a b : Reg)
  | cmpltui (b a : Reg) (imm : Imm16)
  -- shift and rotate (42_shift_rotate.md)
  | rol (c a b : Reg)
  | roli (c a : Reg) (n : Imm5)
  | ror (c a b : Reg)
  | sll (c a b : Reg)
  | slli (c a : Reg) (n : Imm5)
  | sra (c a b : Reg)
  | srai (c a : Reg) (n : Imm5)
  | srl (c a b : Reg)
  | srli (c a : Reg) (n : Imm5)
  -- control transfer (43_control_transfer.md)
  | br (imm : Imm16)
  | beq (a b : Reg) (imm : Imm16)
  | bne (a b : Reg) (imm : Imm16)
  | bge (a b : Reg) (imm : Imm16)
  | bgeu (a b : Reg) (imm : Imm16)
  | blt (a b : Reg) (imm : Imm16)
  | bltu (a b : Reg) (imm : Imm16)
  | call (imm : Imm26)
  | callr (a : Reg)
  | jmp (a : Reg)
  | jmpi (imm : Imm26)
  | ret
  | nextpc (c : Reg)
  -- load and store (44_load_store.md): B is the data register, A the base
  | ldb (b : Reg) (imm : Imm16) (a : Reg)
  | ldbio (b : Reg) (imm : Imm16) (a : Reg)
  | ldbu (b : Reg) (imm : Imm16) (a : Reg)
  | ldbuio (b : Reg) (imm : Imm16) (a : Reg)
  | ldh (b : Reg) (imm : Imm16) (a : Reg)
  | ldhio (b : Reg) (imm : Imm16) (a : Reg)
  | ldhu (b : Reg) (imm : Imm16) (a : Reg)
  | ldhuio (b : Reg) (imm : Imm16) (a : Reg)
  | ldw (b : Reg) (imm : Imm16) (a : Reg)
  | ldwio (b : Reg) (imm : Imm16) (a : Reg)
  | stb (b : Reg) (imm : Imm16) (a : Reg)
  | stbio (b : Reg) (imm : Imm16) (a : Reg)
  | sth (b : Reg) (imm : Imm16) (a : Reg)
  | sthio (b : Reg) (imm : Imm16) (a : Reg)
  | stw (b : Reg) (imm : Imm16) (a : Reg)
  | stwio (b : Reg) (imm : Imm16) (a : Reg)
  -- cache maintenance, pipeline flush, sync (45_cache_sync.md)
  | flushd (imm : Imm16) (a : Reg)
  | flushda (imm : Imm16) (a : Reg)
  | initd (imm : Imm16) (a : Reg)
  | initda (imm : Imm16) (a : Reg)
  | flushi (a : Reg)
  | initi (a : Reg)
  | flushp
  | sync
  -- trap, break, returns, control registers, register sets, custom (46_system.md)
  | trap (n : Imm5)
  | eret
  | brk (n : Imm5)
  | bret
  | rdctl (c : Reg) (n : Imm5)
  | wrctl (n : Imm5) (a : Reg)
  | rdprs (b a : Reg) (imm : Imm16)
  | wrprs (c a : Reg)
  | custom (n : BitVec 8) (c a b : Reg) (readra readrb writerc : Bool)
  deriving DecidableEq, Repr

/-- An assembler pseudo-instruction (47_pseudo.md R310, R330). An immediate is the number the programmer
writes, before it is fitted into a field; a branch carries the IMM16 the assembler computed for its label; `movia`
carries the value of its label. -/
inductive Pseudo where
  | bgt (a b : Reg) (imm : Imm16)
  | bgtu (a b : Reg) (imm : Imm16)
  | ble (a b : Reg) (imm : Imm16)
  | bleu (a b : Reg) (imm : Imm16)
  | cmpgt (c a b : Reg)
  | cmpgti (b a : Reg) (immed : Int)
  | cmpgtu (c a b : Reg)
  | cmpgtui (b a : Reg) (immed : Int)
  | cmple (c a b : Reg)
  | cmplei (b a : Reg) (immed : Int)
  | cmpleu (c a b : Reg)
  | cmpleui (b a : Reg) (immed : Int)
  | mov (c a : Reg)
  | movhi (b : Reg) (immed : Int)
  | movi (b : Reg) (immed : Int)
  | movia (b : Reg) (label : Word)
  | movui (b : Reg) (immed : Int)
  | nop
  | subi (b a : Reg) (immed : Int)
  deriving DecidableEq, Repr

end Sys2Proof
end

