-- ==== Sys2Proof/Decode.lean ====
section
/-! DEFINITION. Decoding and encoding (30_encoding.md). `decode` is total on words and `decodeBytes` on byte
lists; a rejection has a name. The encoder is written from the same tables: R118 (OP map), R119 (OPX map) and
R120 (fixed fields). The byte order of an instruction in memory is that of 20_memory.md R72. -/

namespace Sys2Proof

/-- Why bytes are no instruction (R123). -/
inductive DecodeReject where
  /-- an OP value marked reserved in R118 -/
  | reservedOp
  /-- an OPX6 value marked reserved in R119, under OP 0x3A -/
  | reservedOpx
  /-- the OP and OPX6 of an instruction with another value in a fixed field (R121) -/
  | nonCanonical
  /-- fewer than the four bytes of an instruction word (R110) -/
  | truncated
  deriving DecidableEq, Repr

/-! ## Fields of a word (R111 to R114) -/

def fieldA (w : Word) : Reg := w.extractLsb' 27 5
def fieldB (w : Word) : Reg := w.extractLsb' 22 5
def fieldC (w : Word) : Reg := w.extractLsb' 17 5
def fieldOpx6 (w : Word) : BitVec 6 := w.extractLsb' 11 6
def fieldOpx5 (w : Word) : Imm5 := w.extractLsb' 6 5
def fieldImm16 (w : Word) : Imm16 := w.extractLsb' 6 16
def fieldImm26 (w : Word) : Imm26 := w.extractLsb' 6 26
def fieldOp (w : Word) : BitVec 6 := w.extractLsb' 0 6
def fieldN (w : Word) : BitVec 8 := w.extractLsb' 6 8
def fieldReadra (w : Word) : Bool := w.getLsbD 16
def fieldReadrb (w : Word) : Bool := w.getLsbD 15
def fieldWriterc (w : Word) : Bool := w.getLsbD 14

/-! ## Decoding (R117) -/

/-- An instruction whose fixed fields must hold the values the figure draws (R120, R121). -/
def onlyIf (fixedFields : Prop) [Decidable fixedFields] (i : Instr) : Except DecodeReject Instr :=
  if fixedFields then .ok i else .error .nonCanonical

/-- The OPX map (R119) and the fixed fields (R120) of the words with OP 0x3A. -/
def decodeOpx (x6 : BitVec 6) (x5 : Imm5) (a b c : Reg) : Except DecodeReject Instr :=
  match x6.toNat with
  | 0x01 => onlyIf (a = 29#5 ∧ b = 30#5 ∧ x5 = 0#5) .eret
  | 0x02 => onlyIf (b = 0#5) (.roli c a x5)
  | 0x03 => onlyIf (x5 = 0#5) (.rol c a b)
  | 0x04 => onlyIf (b = 0#5 ∧ c = 0#5 ∧ x5 = 0#5) .flushp
  | 0x05 => onlyIf (a = 31#5 ∧ b = 0#5 ∧ c = 0#5 ∧ x5 = 0#5) .ret
  | 0x06 => onlyIf (x5 = 0#5) (.nor c a b)
  | 0x07 => onlyIf (x5 = 0#5) (.mulxuu c a b)
  | 0x08 => onlyIf (x5 = 0#5) (.cmpge c a b)
  | 0x09 => onlyIf (a = 30#5 ∧ b = 0#5 ∧ c = 30#5 ∧ x5 = 0#5) .bret
  | 0x0B => onlyIf (x5 = 0#5) (.ror c a b)
  | 0x0C => onlyIf (b = 0#5 ∧ c = 0#5 ∧ x5 = 0#5) (.flushi a)
  | 0x0D => onlyIf (b = 0#5 ∧ c = 0#5 ∧ x5 = 0#5) (.jmp a)
  | 0x0E => onlyIf (x5 = 0#5) (.and c a b)
  | 0x10 => onlyIf (x5 = 0#5) (.cmplt c a b)
  | 0x12 => onlyIf (b = 0#5) (.slli c a x5)
  | 0x13 => onlyIf (x5 = 0#5) (.sll c a b)
  | 0x14 => onlyIf (b = 0#5 ∧ x5 = 0#5) (.wrprs c a)
  | 0x16 => onlyIf (x5 = 0#5) (.or c a b)
  | 0x17 => onlyIf (x5 = 0#5) (.mulxsu c a b)
  | 0x18 => onlyIf (x5 = 0#5) (.cmpne c a b)
  | 0x1A => onlyIf (b = 0#5) (.srli c a x5)
  | 0x1B => onlyIf (x5 = 0#5) (.srl c a b)
  | 0x1C => onlyIf (a = 0#5 ∧ b = 0#5 ∧ x5 = 0#5) (.nextpc c)
  | 0x1D => onlyIf (b = 0#5 ∧ c = 31#5 ∧ x5 = 0#5) (.callr a)
  | 0x1E => onlyIf (x5 = 0#5) (.xor c a b)
  | 0x1F => onlyIf (x5 = 0#5) (.mulxss c a b)
  | 0x20 => onlyIf (x5 = 0#5) (.cmpeq c a b)
  | 0x24 => onlyIf (x5 = 0#5) (.divu c a b)
  | 0x25 => onlyIf (x5 = 0#5) (.div c a b)
  | 0x26 => onlyIf (a = 0#5 ∧ b = 0#5) (.rdctl c x5)
  | 0x27 => onlyIf (x5 = 0#5) (.mul c a b)
  | 0x28 => onlyIf (x5 = 0#5) (.cmpgeu c a b)
  | 0x29 => onlyIf (b = 0#5 ∧ c = 0#5 ∧ x5 = 0#5) (.initi a)
  | 0x2D => onlyIf (a = 0#5 ∧ b = 0#5 ∧ c = 29#5) (.trap x5)
  | 0x2E => onlyIf (b = 0#5 ∧ c = 0#5) (.wrctl x5 a)
  | 0x30 => onlyIf (x5 = 0#5) (.cmpltu c a b)
  | 0x31 => onlyIf (x5 = 0#5) (.add c a b)
  | 0x34 => onlyIf (a = 0#5 ∧ b = 0#5 ∧ c = 30#5) (.brk x5)
  | 0x36 => onlyIf (a = 0#5 ∧ b = 0#5 ∧ c = 0#5 ∧ x5 = 0#5) .sync
  | 0x39 => onlyIf (x5 = 0#5) (.sub c a b)
  | 0x3A => onlyIf (b = 0#5) (.srai c a x5)
  | 0x3B => onlyIf (x5 = 0#5) (.sra c a b)
  | _ => .error .reservedOpx

/-- The OP map (R118) and the fixed fields (R120) of the I-type words. -/
def decodeOp (op : BitVec 6) (a b : Reg) (imm : Imm16) : Except DecodeReject Instr :=
  match op.toNat with
  | 0x03 => .ok (.ldbu b imm a)
  | 0x04 => .ok (.addi b a imm)
  | 0x05 => .ok (.stb b imm a)
  | 0x06 => onlyIf (a = 0#5 ∧ b = 0#5) (.br imm)
  | 0x07 => .ok (.ldb b imm a)
  | 0x08 => .ok (.cmpgei b a imm)
  | 0x0B => .ok (.ldhu b imm a)
  | 0x0C => .ok (.andi b a imm)
  | 0x0D => .ok (.sth b imm a)
  | 0x0E => .ok (.bge a b imm)
  | 0x0F => .ok (.ldh b imm a)
  | 0x10 => .ok (.cmplti b a imm)
  | 0x13 => onlyIf (b = 0#5) (.initda imm a)
  | 0x14 => .ok (.ori b a imm)
  | 0x15 => .ok (.stw b imm a)
  | 0x16 => .ok (.blt a b imm)
  | 0x17 => .ok (.ldw b imm a)
  | 0x18 => .ok (.cmpnei b a imm)
  | 0x1B => onlyIf (b = 0#5) (.flushda imm a)
  | 0x1C => .ok (.xori b a imm)
  | 0x1E => .ok (.bne a b imm)
  | 0x20 => .ok (.cmpeqi b a imm)
  | 0x23 => .ok (.ldbuio b imm a)
  | 0x24 => .ok (.muli b a imm)
  | 0x25 => .ok (.stbio b imm a)
  | 0x26 => .ok (.beq a b imm)
  | 0x27 => .ok (.ldbio b imm a)
  | 0x28 => .ok (.cmpgeui b a imm)
  | 0x2B => .ok (.ldhuio b imm a)
  | 0x2C => .ok (.andhi b a imm)
  | 0x2D => .ok (.sthio b imm a)
  | 0x2E => .ok (.bgeu a b imm)
  | 0x2F => .ok (.ldhio b imm a)
  | 0x30 => .ok (.cmpltui b a imm)
  | 0x33 => onlyIf (b = 0#5) (.initd imm a)
  | 0x34 => .ok (.orhi b a imm)
  | 0x35 => .ok (.stwio b imm a)
  | 0x36 => .ok (.bltu a b imm)
  | 0x37 => .ok (.ldwio b imm a)
  | 0x38 => .ok (.rdprs b a imm)
  | 0x3B => onlyIf (b = 0#5) (.flushd imm a)
  | 0x3C => .ok (.xorhi b a imm)
  | _ => .error .reservedOp

/-- The instruction a word spells, or why it spells none (R117). -/
def decode (w : Word) : Except DecodeReject Instr :=
  if fieldOp w = 0x3A#6 then decodeOpx (fieldOpx6 w) (fieldOpx5 w) (fieldA w) (fieldB w) (fieldC w)
  else if fieldOp w = 0x32#6 then
    .ok (.custom (fieldN w) (fieldC w) (fieldA w) (fieldB w) (fieldReadra w) (fieldReadrb w) (fieldWriterc w))
  else if fieldOp w = 0x00#6 then .ok (.call (fieldImm26 w))
  else if fieldOp w = 0x01#6 then .ok (.jmpi (fieldImm26 w))
  else decodeOp (fieldOp w) (fieldA w) (fieldB w) (fieldImm16 w)

/-! ## Bytes of a word (20_memory.md R72) -/

/-- Byte `k` of a word: bits 8k+7..8k. -/
def byteOfWord (w : Word) (k : Nat) : Byte := w.extractLsb' (8 * k) 8

/-- The word whose byte at the lowest address is `b0`. -/
def wordOfBytes (b0 b1 b2 b3 : Byte) : Word := b3 ++ b2 ++ b1 ++ b0

/-- The instruction the first four bytes spell, the byte at the lowest address first. -/
def decodeBytes (bytes : List Byte) : Except DecodeReject Instr :=
  match bytes with
  | b0 :: b1 :: b2 :: b3 :: _ => decode (wordOfBytes b0 b1 b2 b3)
  | _ => .error .truncated

/-- The instruction the decoder reads from an instruction whose `nbits` low bits are those of `w` and whose other
bits are 0, laid out as the hardware stores it. -/
def decodeTableWord (nbits w : Nat) : Option Instr :=
  let word := BitVec.ofNat 32 (w % 2 ^ nbits)
  (decodeBytes [byteOfWord word 0, byteOfWord word 1, byteOfWord word 2, byteOfWord word 3]).toOption

/-! ## Encoding -/

/-- The I-type layout (R111). -/
def iType (a b : Reg) (imm : Imm16) (op : BitVec 6) : Word := a ++ b ++ imm ++ op

/-- The R-type layout (R112), OP 0x3A. -/
def rType (a b c : Reg) (x6 : BitVec 6) (x5 : Imm5) : Word := a ++ b ++ c ++ x6 ++ x5 ++ 0x3A#6

/-- The J-type layout (R113). -/
def jType (imm : Imm26) (op : BitVec 6) : Word := imm ++ op

/-- The layout of `custom` (R114), OP 0x32. -/
def customType (a b c : Reg) (readra readrb writerc : Bool) (n : BitVec 8) : Word :=
  a ++ b ++ c ++ BitVec.ofBool readra ++ BitVec.ofBool readrb ++ BitVec.ofBool writerc ++ n ++ 0x32#6

/-- The word of an instruction (R120), with 0 in the two ignored fields (R122). -/
def encode (i : Instr) : Word :=
  match i with
  | .add c a b => rType a b c 0x31#6 0#5
  | .addi b a imm => iType a b imm 0x04#6
  | .sub c a b => rType a b c 0x39#6 0#5
  | .mul c a b => rType a b c 0x27#6 0#5
  | .muli b a imm => iType a b imm 0x24#6
  | .mulxss c a b => rType a b c 0x1F#6 0#5
  | .mulxsu c a b => rType a b c 0x17#6 0#5
  | .mulxuu c a b => rType a b c 0x07#6 0#5
  | .div c a b => rType a b c 0x25#6 0#5
  | .divu c a b => rType a b c 0x24#6 0#5
  | .and c a b => rType a b c 0x0E#6 0#5
  | .andi b a imm => iType a b imm 0x0C#6
  | .andhi b a imm => iType a b imm 0x2C#6
  | .or c a b => rType a b c 0x16#6 0#5
  | .ori b a imm => iType a b imm 0x14#6
  | .orhi b a imm => iType a b imm 0x34#6
  | .xor c a b => rType a b c 0x1E#6 0#5
  | .xori b a imm => iType a b imm 0x1C#6
  | .xorhi b a imm => iType a b imm 0x3C#6
  | .nor c a b => rType a b c 0x06#6 0#5
  | .cmpeq c a b => rType a b c 0x20#6 0#5
  | .cmpeqi b a imm => iType a b imm 0x20#6
  | .cmpne c a b => rType a b c 0x18#6 0#5
  | .cmpnei b a imm => iType a b imm 0x18#6
  | .cmpge c a b => rType a b c 0x08#6 0#5
  | .cmpgei b a imm => iType a b imm 0x08#6
  | .cmpgeu c a b => rType a b c 0x28#6 0#5
  | .cmpgeui b a imm => iType a b imm 0x28#6
  | .cmplt c a b => rType a b c 0x10#6 0#5
  | .cmplti b a imm => iType a b imm 0x10#6
  | .cmpltu c a b => rType a b c 0x30#6 0#5
  | .cmpltui b a imm => iType a b imm 0x30#6
  | .rol c a b => rType a b c 0x03#6 0#5
  | .roli c a n => rType a 0#5 c 0x02#6 n
  | .ror c a b => rType a b c 0x0B#6 0#5
  | .sll c a b => rType a b c 0x13#6 0#5
  | .slli c a n => rType a 0#5 c 0x12#6 n
  | .sra c a b => rType a b c 0x3B#6 0#5
  | .srai c a n => rType a 0#5 c 0x3A#6 n
  | .srl c a b => rType a b c 0x1B#6 0#5
  | .srli c a n => rType a 0#5 c 0x1A#6 n
  | .br imm => iType 0#5 0#5 imm 0x06#6
  | .beq a b imm => iType a b imm 0x26#6
  | .bne a b imm => iType a b imm 0x1E#6
  | .bge a b imm => iType a b imm 0x0E#6
  | .bgeu a b imm => iType a b imm 0x2E#6
  | .blt a b imm => iType a b imm 0x16#6
  | .bltu a b imm => iType a b imm 0x36#6
  | .call imm => jType imm 0x00#6
  | .callr a => rType a 0#5 31#5 0x1D#6 0#5
  | .jmp a => rType a 0#5 0#5 0x0D#6 0#5
  | .jmpi imm => jType imm 0x01#6
  | .ret => rType 31#5 0#5 0#5 0x05#6 0#5
  | .nextpc c => rType 0#5 0#5 c 0x1C#6 0#5
  | .ldb b imm a => iType a b imm 0x07#6
  | .ldbio b imm a => iType a b imm 0x27#6
  | .ldbu b imm a => iType a b imm 0x03#6
  | .ldbuio b imm a => iType a b imm 0x23#6
  | .ldh b imm a => iType a b imm 0x0F#6
  | .ldhio b imm a => iType a b imm 0x2F#6
  | .ldhu b imm a => iType a b imm 0x0B#6
  | .ldhuio b imm a => iType a b imm 0x2B#6
  | .ldw b imm a => iType a b imm 0x17#6
  | .ldwio b imm a => iType a b imm 0x37#6
  | .stb b imm a => iType a b imm 0x05#6
  | .stbio b imm a => iType a b imm 0x25#6
  | .sth b imm a => iType a b imm 0x0D#6
  | .sthio b imm a => iType a b imm 0x2D#6
  | .stw b imm a => iType a b imm 0x15#6
  | .stwio b imm a => iType a b imm 0x35#6
  | .flushd imm a => iType a 0#5 imm 0x3B#6
  | .flushda imm a => iType a 0#5 imm 0x1B#6
  | .initd imm a => iType a 0#5 imm 0x33#6
  | .initda imm a => iType a 0#5 imm 0x13#6
  | .flushi a => rType a 0#5 0#5 0x0C#6 0#5
  | .initi a => rType a 0#5 0#5 0x29#6 0#5
  | .flushp => rType 0#5 0#5 0#5 0x04#6 0#5
  | .sync => rType 0#5 0#5 0#5 0x36#6 0#5
  | .trap n => rType 0#5 0#5 29#5 0x2D#6 n
  | .eret => rType 29#5 30#5 0#5 0x01#6 0#5
  | .brk n => rType 0#5 0#5 30#5 0x34#6 n
  | .bret => rType 30#5 0#5 30#5 0x09#6 0#5
  | .rdctl c n => rType 0#5 0#5 c 0x26#6 n
  | .wrctl n a => rType a 0#5 0#5 0x2E#6 n
  | .rdprs b a imm => iType a b imm 0x38#6
  | .wrprs c a => rType a 0#5 c 0x14#6 0#5
  | .custom n c a b ra rb wc => customType a b c ra rb wc n

end Sys2Proof
end

