-- ==== Sys2Proof/Config.lean ====
section
/-! DEFINITION. What an implementation fixes: the configuration record of 00_scope.md R6 (plain data, held in
State and constant there, log 1), and the free constants: values the spec leaves open, each an `opaque` constant
with no body, of which nothing can be proved but what holds of every value. -/

namespace Sys2Proof

/-- One region of the platform's memory map, the answer `region(addr)` gives for the addresses `base` to
`base + size - 1` (20_memory.md R73): which accesses it admits, and whether it is a peripheral. -/
structure Region where
  base : Nat
  size : Nat
  fetch : Bool
  load : Bool
  store : Bool
  peripheral : Bool
  deriving DecidableEq, Repr

/-- The function configured for a custom instruction number (46_system.md R293): the spec's worked example,
a 32-bit add, or logic of the user's, of which nothing is known (`Config.customLogic`). The example is given with all
three flag bits 1; with a custom register in place of an operand or the result it too is free (log 19). -/
inductive CustomFn where
  | add32
  | userDefined
  deriving DecidableEq, Repr

/-- The configuration record (00_scope.md R6). -/
structure Config where
  /-- `IMPL(mul)`, … : the optional instructions this core implements (40_arith_logic.md R171, 45_cache_sync.md R268). -/
  implMul : Bool
  implMuli : Bool
  implMulxss : Bool
  implMulxsu : Bool
  implMulxuu : Bool
  implDiv : Bool
  implDivu : Bool
  implInitda : Bool
  /-- `NUM_SHADOW`: the number of shadow register sets (10_state.md R35). -/
  numShadow : Nat
  /-- `HAS_DCACHE`, `HAS_ICACHE`. -/
  hasDcache : Bool
  hasIcache : Bool
  /-- Cache geometry, powers of two by construction (log 24): a line has `4 * 2^lineLog` bytes, a cache `2^linesLog` lines. -/
  dcacheLineLog : Nat
  dcacheLinesLog : Nat
  icacheLineLog : Nat
  icacheLinesLog : Nat
  /-- `IN_ORDER_MEMORY` (20_memory.md R87). -/
  inOrderMemory : Bool
  /-- `EXCEPTION_ADDR`, `BREAK_ADDR`, `RESET_ADDR`: word-aligned addresses (`Config.WellFormed`). -/
  exceptionAddr : Word
  breakAddr : Word
  resetAddr : Word
  /-- `CUSTOM(N)`: the custom instructions configured, by number; an N that is not listed has no function. -/
  custom : List (BitVec 8 × CustomFn)
  /-- `HAS_MMU`, `HAS_MPU` (20_memory.md R83). -/
  hasMmu : Bool
  hasMpu : Bool
  /-- `HAS_USER_MODE` (60_exceptions.md R370). -/
  hasUserMode : Bool
  /-- `DIV_ERROR_EXC`, `MISALIGNED_DATA_EXC`, `ILLEGAL_EXC`. -/
  divErrorExc : Bool
  misalignedDataExc : Bool
  illegalExc : Bool
  /-- `CTL_STATUS`, `CTL_ESTATUS`, `CTL_BSTATUS` (10_state.md R41 to R43). -/
  ctlStatus : Imm5
  ctlEstatus : Imm5
  ctlBstatus : Imm5
  /-- Positions of the fields of `status` (R41); the CRS position is a parameter that no rule uses (R44). -/
  statusPieBit : Fin 32
  statusUBit : Fin 32
  statusPrsLo : Fin 32
  statusPrsHi : Fin 32
  statusCrsLo : Fin 32
  statusCrsHi : Fin 32
  /-- `STATUS_WRITE_MASK` (10_state.md R45). -/
  statusWriteMask : Word
  /-- The platform's memory map, first match first (20_memory.md R73; log 25). -/
  regions : List Region
  deriving DecidableEq, Repr

/-- The default map: every address is memory admitting fetch, load and store (92_eei_decisions.md D29). -/
def Region.everything : Region :=
  { base := 0, size := 2 ^ 32, fetch := true, load := true, store := true, peripheral := false }

/-- The default configuration: the default column of 00_scope.md R6. For the parameters it leaves OPEN, the
three addresses are those of the examples of 95_test_vectors.md (log 2) and the cache geometry, which is not used
without a cache, is one word a line and one line (log 24). -/
def Config.default : Config where
  implMul := true
  implMuli := true
  implMulxss := true
  implMulxsu := true
  implMulxuu := true
  implDiv := true
  implDivu := true
  implInitda := true
  numShadow := 0
  hasDcache := false
  hasIcache := false
  dcacheLineLog := 0
  dcacheLinesLog := 0
  icacheLineLog := 0
  icacheLinesLog := 0
  inOrderMemory := true
  exceptionAddr := 0x00002000#32
  breakAddr := 0x00004000#32
  resetAddr := 0x00001000#32
  custom := []
  hasMmu := false
  hasMpu := false
  hasUserMode := true
  divErrorExc := false
  misalignedDataExc := false
  illegalExc := false
  ctlStatus := 0#5
  ctlEstatus := 1#5
  ctlBstatus := 2#5
  statusPieBit := 0
  statusUBit := 1
  statusPrsLo := 16
  statusPrsHi := 21
  statusCrsLo := 10
  statusCrsHi := 15
  statusWriteMask := 0x00000003#32
  regions := [Region.everything]

/-- One transfer on the processor's data bus (20_memory.md R80, R81, R86). -/
inductive Transfer where
  /-- a load of `width` bytes at `addr` that reached the bus -/
  | load (addr : Word) (width : Nat)
  /-- a store of the low `width` bytes of `value` at `addr` that reached the bus -/
  | store (addr : Word) (width : Nat) (value : Word)
  /-- a plain access that missed and filled the data-cache line beginning at `addr` -/
  | refill (addr : Word)
  /-- a dirty data-cache line beginning at `addr` written back to memory -/
  | writeBack (addr : Word)
  deriving DecidableEq, Repr

/-- The exceptions `protect` can report for an instruction fetch (60_exceptions.md R343). -/
inductive FetchViolation where
  | supervisorOnlyInstructionAddress
  | fastTlbMissInstruction
  | doubleTlbMissInstruction
  | tlbPermissionViolationExecute
  | mpuRegionViolationInstruction
  deriving DecidableEq, Repr, Inhabited

/-- The exceptions `protect` can report for a load or a store (R355): the permission violation is the one of
the access's own kind. -/
inductive DataViolation where
  | supervisorOnlyDataAddress
  | tlbPermissionViolation
  | fastTlbMissData
  | doubleTlbMissData
  | mpuRegionViolationData
  deriving DecidableEq, Repr, Inhabited

/-- The exceptions `protect` can report for `flushda` and `initda` (R355): no permission violation. -/
inductive CacheOpViolation where
  | supervisorOnlyDataAddress
  | fastTlbMissData
  | doubleTlbMissData
  | mpuRegionViolationData
  deriving DecidableEq, Repr, Inhabited

/-- Whether a data access reads or writes. -/
inductive AccessKind where
  | read
  | write
  deriving DecidableEq, Repr

/-- What the open `crs_policy` chooses a register set for (10_state.md R35, 46_system.md R286, 60_exceptions.md R350):
the set current after an entry or a return, and the set whose r29 receives `ea` at an entry. -/
inductive CrsEvent where
  | exceptionEntry
  | interruptEntry
  | exceptionReturn
  | exceptionAddress
  | interruptAddress
  deriving DecidableEq, Repr

/-- `draw_32()` (00_scope.md R11): the n-th value the model does not fix. Log 12. -/
opaque Config.draw32 : Nat → Word

/-- Whether the n-th open choice, a data-cache miss, fills the line (20_memory.md R85). Log 13. -/
opaque Config.dcacheAllocates : Nat → Bool

/-- Whether the n-th open choice, an instruction-cache miss, fills the line. Log 14. -/
opaque Config.icacheAllocates : Nat → Bool

/-- What a peripheral answers to a load of a given width at an address, after the transfers it has seen
(first list) and those issued but not known to have completed (second list): 20_memory.md R76(4). Log 15. -/
opaque Config.deviceAnswer : List Transfer → List Transfer → Word → Nat → Word

/-- The hook `protect(fetch, vaddr, U)` (20_memory.md R83), consulted only with an MMU or an MPU. Log 16. -/
opaque Config.protectFetch : Config → Word → Bool → Except FetchViolation Word

/-- The hook `protect(read | write, vaddr, U)` (R83), consulted only with an MMU or an MPU. Log 16. -/
opaque Config.protectData : Config → AccessKind → Word → Bool → Except DataViolation Word

/-- The hook `protect(cacheop, vaddr, U)` (R83), consulted only with an MMU or an MPU. Log 16. -/
opaque Config.protectCacheOp : Config → Word → Bool → Except CacheOpViolation Word

/-- The open `crs_policy` (10_state.md R35): for the n-th free value drawn, from what it is asked for, the current set,
`status` and `estatus`, a number the model takes modulo the number of register sets. Since every event draws anew, two
events that agree in all the rest may have different answers: an interrupt controller that chooses by the interrupt, and a
return that restores the interrupted set, are among them. Consulted only with shadow sets. DESIGN CHOICE, log 17. -/
opaque Config.crsPolicy : Config → CrsEvent → Nat → Word → Word → Nat → Nat

/-- The TLB misses among the exceptions of 60_exceptions.md R342. -/
inductive TlbMiss where
  | fastData
  | doubleData
  | fastInstruction
  | doubleInstruction
  deriving DecidableEq, Repr

/-- The part of the open MMU hook that gives the handler address of a TLB miss, bits 31..2 of a word-aligned address: R350
leaves separate handler addresses for TLB misses, if any, to that hook. Consulted only with an MMU; it may be
`EXCEPTION_ADDR`. DESIGN CHOICE: one address for each configuration and kind of miss, log 16. -/
opaque Config.tlbMissHandler : Config → TlbMiss → BitVec 30

/-- What a custom instruction is given (46_system.md R293): the two operand values (`none` where the flag bit
says the operand is a custom register), the fields A, B, C, the flag bits and its own internal state. -/
structure CustomCall where
  valueA : Option Word
  valueB : Option Word
  fieldA : Reg
  fieldB : Reg
  fieldC : Reg
  readra : Bool
  readrb : Bool
  writerc : Bool
  state : List Word
  deriving DecidableEq, Repr

/-- The user-defined function of custom instruction N (R293), and the example's where it names a custom register: the result
and the new internal state. Log 19. -/
opaque Config.customLogic : BitVec 8 → CustomCall → Word × List Word

end Sys2Proof
end

