-- ==== Sys2Proof/Machine/State.lean ====
section
/-! DEFINITION. The machine's state as plain data (10_state.md R30), the reasons a step can stop, and the state
after reset (R52). A sparse list stands for a table by number: strictly rising keys, and no entry equal to what an
unlisted key reads as (Machine/Sparse.lean). -/

namespace Sys2Proof.Machine

/-- The exceptions the source names (60_exceptions.md R342), and the interrupt (R361). -/
inductive Exception where
  | trap
  | breakpoint
  | supervisorOnlyInstruction
  | illegalInstruction
  | unimplementedInstruction
  | divisionError
  | misalignedDataAddress
  | misalignedDestinationAddress
  | supervisorOnlyDataAddress
  | tlbPermissionViolationRead
  | tlbPermissionViolationWrite
  | fastTlbMissData
  | doubleTlbMissData
  | mpuRegionViolationData
  | supervisorOnlyInstructionAddress
  | fastTlbMissInstruction
  | doubleTlbMissInstruction
  | tlbPermissionViolationExecute
  | mpuRegionViolationInstruction
  | interrupt
  deriving DecidableEq, Repr

/-- Model-level stops, `fault(reason)` of 00_scope.md R11: the spec gives the step no meaning. Each is safe: the
machine of the spec is said to do nothing definite there, and the model goes no further. -/
inductive Fault where
  /-- Raised by a halfword or word load or store at a misaligned address when `MISALIGNED_DATA_EXC` is false:
  "the operation is undefined" (20_memory.md R78). Safe. -/
  | misalignedDataAddress
  /-- Raised by a reserved encoding, a non-canonical word or an unconfigured `custom`, when `ILLEGAL_EXC` is
  false (30_encoding.md R124, R126). Safe. -/
  | reservedEncoding
  /-- Raised by `jmp r31`: "It is illegal to jump to the address contained in register r31" (43_control_transfer.md R225). Safe. -/
  | jmpR31
  /-- Raised by `rdctl` and `wrctl` of a control register the spec does not describe (10_state.md R44). Safe. -/
  | controlRegisterNotModelled
  /-- Raised by an ordinary write to r0 while a shadow register set is current (10_state.md R33). Safe. -/
  | writeR0InShadowSet
  /-- Raised by `rdprs` and `wrprs` when `status.PRS` names no register set (10_state.md R36). Safe. -/
  | prsNamesNoRegisterSet
  /-- Raised by a fetch, load or store the platform's map does not admit (20_memory.md R73). Safe. -/
  | outsideMemoryMap
  /-- Raised by a plain load or store to a peripheral when there is a data cache (20_memory.md R81). Safe. -/
  | plainAccessToPeripheral
  /-- Raised by an `io` access to an address the data cache holds (20_memory.md R80). Safe. -/
  | ioAccessToCachedAddress
  /-- Raised by the fetch of bytes modified since the sequence of 20_memory.md R89 last made them fetchable. Safe. -/
  | fetchOfModifiedMemory
  deriving DecidableEq, Repr

/-- Why an instruction has no meaning in this model. -/
inductive Refusal where
  /-- Answered by an arm of `exec` whose instruction has no meaning yet; no arm answers it now. Safe. -/
  | notModelled (mnemonic : String)
  deriving DecidableEq, Repr

/-- A data-cache line's state (20_memory.md R84); its bytes are in `State.dcacheData`. -/
structure DLine where
  valid : Bool
  dirty : Bool
  tag : Nat
  deriving DecidableEq, Repr

/-- An instruction-cache line's state (10_state.md R49); its bytes are in `State.icacheData`. -/
structure ILine where
  valid : Bool
  tag : Nat
  deriving DecidableEq, Repr

/-- How far the sequence of 20_memory.md R89 is for a word: fetchable, or the step still to come. -/
inductive HazardStage where
  | fetchable
  /-- (a) a plain store with a data cache: `flushd` or `flushda` is to come -/
  | needsWriteBack
  /-- (b) `flushi` or `initi` is to come -/
  | needsInvalidate
  /-- (c) `flushp` is to come -/
  | needsFlushPipeline
  deriving DecidableEq, Repr

/-- What an unlisted data-cache line reads as (log 8). -/
def DLine.empty : DLine := { valid := false, dirty := false, tag := 0 }

/-- What an unlisted instruction-cache line reads as (log 8). -/
def ILine.empty : ILine := { valid := false, tag := 0 }

end Sys2Proof.Machine

namespace Sys2Proof.Machine

/-- The machine's state (10_state.md R30). -/
structure State where
  /-- the configuration record (00_scope.md R6); constant -/
  cfg : Config
  /-- general registers (R31, R35): register `r` of set `k` at key `32 * k + r`; unlisted reads 0 (log 4, log 7) -/
  regs : List (Nat × Word)
  /-- the current register set (R35) -/
  crs : Nat
  /-- the program counter (R37) -/
  pc : Word
  /-- control register `status` (R41) -/
  status : Word
  /-- control register `estatus` (R42) -/
  estatus : Word
  /-- control register `bstatus` (R43) -/
  bstatus : Word
  /-- memory (R48) by byte address; unlisted reads 0 (log 9) -/
  mem : List Host.Cell
  /-- data-cache lines by line index (R49) -/
  dcache : List (Nat × DLine)
  /-- data-cache bytes by address modulo the size of the cache -/
  dcacheData : List Host.Cell
  /-- instruction-cache lines by line index (R49) -/
  icache : List (Nat × ILine)
  /-- instruction-cache bytes by address modulo the size of the cache -/
  icacheData : List Host.Cell
  /-- the fetch hazard of each word with a modified byte, by address divided by 4 (20_memory.md R77, R89; log 23) -/
  hazard : List (Nat × HazardStage)
  /-- bus transfers issued and not known to have completed (R50), newest first; empty on an in-order core -/
  pending : List Transfer
  /-- bus transfers completed (20_memory.md R86), newest first: what peripherals have seen -/
  bus : List Transfer
  /-- `irq_pending` before each coming instruction (R51, 60_exceptions.md R360); after the last, false (log 20) -/
  irq : List Bool
  /-- the internal state of each custom instruction, by N (R46) -/
  custom : List (Nat × List Word)
  /-- the MODEL's own: how many free values have been drawn (log 45) -/
  draws : Nat
  /-- the MODEL's own: the exception the last step took, a label no program can read (60_exceptions.md R341; log 21) -/
  label : Option Exception
  deriving DecidableEq, Repr

/-- The machine right after reset, for a configuration (10_state.md R52, 70_reset_and_hazards.md R391). -/
def State.resetOf (c : Config) : State where
  cfg := c
  regs := []
  crs := 0
  pc := c.resetAddr
  status := 0#32
  estatus := 0#32
  bstatus := 0#32
  mem := []
  dcache := []
  dcacheData := []
  icache := []
  icacheData := []
  hazard := []
  pending := []
  bus := []
  irq := []
  custom := []
  draws := 0
  label := none

/-- The machine right after reset, in the default configuration (00_scope.md R6). -/
def State.reset : State := State.resetOf Config.default

end Sys2Proof.Machine
end

