-- ==== Sys2Proof/Machine/Operands.lean ====
section
/-! DEFINITION. Operand forms and the values instructions compute (00_scope.md R10, 30_encoding.md R115): plain
functions on words, with no state. -/

namespace Sys2Proof.Machine

/-! ## Immediates (30_encoding.md R115) -/

/-- `sext_32(IMM16)`, the source's σ(IMM16). -/
def sextImm (imm : Imm16) : Word := imm.signExtend 32

/-- `0x0000 : IMM16`. -/
def zextImm (imm : Imm16) : Word := imm.setWidth 32

/-- `IMM16 : 0x0000`. -/
def highImm (imm : Imm16) : Word := imm ++ 0#16

/-! ## Addresses -/

/-- Whether an address is a multiple of 4 (R110, 43_control_transfer.md R229). -/
def isAligned4 (address : Word) : Bool := address.extractLsb' 0 2 == 0#2

/-- The target of a relative branch: `pc + 4 + sext_32(IMM16)` (R215). -/
def branchTarget (pc : Word) (imm : Imm16) : Word := pc + 4#32 + sextImm imm

/-- The target of `call` and `jmpi`: `pc[31:28] : IMM26 : 0b00` (R223, R226). -/
def segmentTarget (pc : Word) (imm : Imm26) : Word := pc.extractLsb' 28 4 ++ imm ++ 0#2

/-! ## Multiplication and division (40_arith_logic.md) -/

/-- Bits 63..32 of a 64-bit product. -/
def highWord (product : BitVec 64) : Word := product.extractLsb' 32 32

/-- High word of the signed by signed product (R156). -/
def mulHighSS (a b : Word) : Word := highWord (a.signExtend 64 * b.signExtend 64)

/-- High word of the product of `a`, signed, by `b`, unsigned (R157). -/
def mulHighSU (a b : Word) : Word := highWord (a.signExtend 64 * b.setWidth 64)

/-- High word of the unsigned by unsigned product (R158). -/
def mulHighUU (a b : Word) : Word := highWord (a.setWidth 64 * b.setWidth 64)

/-- Whether `div` leaves its quotient undefined: a zero divisor, or -2^31 by -1 (R159, R173). -/
def divUndefined (a b : Word) : Bool := b == 0#32 || (a == 0x80000000#32 && b == 0xFFFFFFFF#32)

/-- The signed quotient, truncated toward zero (R159). -/
def quotientSigned (a b : Word) : Word := BitVec.ofInt 32 (a.toInt.tdiv b.toInt)

/-- The unsigned quotient (R160). -/
def quotientUnsigned (a b : Word) : Word := BitVec.ofNat 32 (a.toNat / b.toNat)

/-! ## Shifts (42_shift_rotate.md R200) -/

/-- The count of a register form: bits 4..0 of the register. -/
def shiftCount (b : Word) : Nat := (b.extractLsb' 0 5).toNat

/-! ## Access widths (20_memory.md R75) -/

/-- The width of a load or store. -/
inductive Width where
  | byte
  | half
  | word
  deriving DecidableEq, Repr

/-- The number of bytes an access moves. -/
def widthBytes (w : Width) : Nat :=
  match w with
  | .byte => 1
  | .half => 2
  | .word => 4

/-- Whether an address is no multiple of the access's width (20_memory.md R78): a byte access never is. -/
def misaligned (w : Width) (address : Word) : Bool :=
  match w with
  | .byte => false
  | .half => address.extractLsb' 0 1 != 0#1
  | .word => !isAligned4 address

/-- The low bytes of a word that an access moves, the rest 0. -/
def truncateTo (w : Width) (value : Word) : Word :=
  match w with
  | .byte => (value.setWidth 8).setWidth 32
  | .half => (value.setWidth 16).setWidth 32
  | .word => value

/-- `sext_32` of a loaded byte (44_load_store.md R241). -/
def sextByte (value : Word) : Word := (value.setWidth 8).signExtend 32

/-- `sext_32` of a loaded halfword (R245). -/
def sextHalf (value : Word) : Word := (value.setWidth 16).signExtend 32

end Sys2Proof.Machine
end

