-- ==== Sys2Proof/Machine/Flags.lean ====
section
/-! DEFINITION. The fields of `status` (10_state.md R41) and the result of a comparison. There are no condition
codes and no arithmetic flags (R47): a comparison writes 1 or 0 to a general register (41_compare.md R180). -/

namespace Sys2Proof.Machine

/-- The 32-bit value of a comparison: 1 for true, 0 for false (41_compare.md R180). -/
def boolWord (holds : Bool) : Word := if holds then 1#32 else 0#32

/-- The word with the one bit set. -/
def bitMask (bit : Nat) : Word := 1#32 <<< bit

/-- The PIE bit of a status value (R41). -/
def pieOf (c : Config) (status : Word) : Bool := status.getLsbD c.statusPieBit.val

/-- The U bit of a status value; always 0 without user mode (R41, 60_exceptions.md R370). -/
def userOf (c : Config) (status : Word) : Bool := c.hasUserMode && status.getLsbD c.statusUBit.val

/-- The PRS field of a status value (R41). -/
def prsOf (c : Config) (status : Word) : Nat :=
  status.toNat / 2 ^ c.statusPrsLo.val % 2 ^ (c.statusPrsHi.val + 1 - c.statusPrsLo.val)

/-- A status value with PIE and U cleared, the rest kept (46_system.md R285, R287, 60_exceptions.md R350). -/
def clearPieAndU (c : Config) (status : Word) : Word :=
  status &&& ~~~(bitMask c.statusPieBit.val ||| bitMask c.statusUBit.val)

/-- The bits `wrctl` can write: `STATUS_WRITE_MASK` (10_state.md R45), less U without user mode
(60_exceptions.md R370: "U is not writable, reads 0"; log 32). -/
def writableBits (c : Config) : Word :=
  if c.hasUserMode then c.statusWriteMask else c.statusWriteMask &&& ~~~bitMask c.statusUBit.val

/-- The bits of the PRS field. -/
def prsBits (c : Config) : Word :=
  BitVec.ofNat 32 ((2 ^ (c.statusPrsHi.val + 1 - c.statusPrsLo.val) - 1) * 2 ^ c.statusPrsLo.val)

/-- The default of `STATUS_WRITE_MASK`: PIE, U with user mode, PRS with shadow sets (R45). -/
def standardWriteMask (c : Config) : Word :=
  bitMask c.statusPieBit.val ||| (if c.hasUserMode then bitMask c.statusUBit.val else 0#32) |||
    (if c.numShadow = 0 then 0#32 else prsBits c)

end Sys2Proof.Machine
end

