-- ==== Sys2Proof/Machine/Sparse.lean ====
section
/-! DEFINITION. Sparse tables: a list of (key, value) entries in canonical form stands for a total table in which
an unlisted key reads `d`. Memory, the register sets, the caches, the hazard record and the custom-instruction state
are held so; Laws/Sparse.lean proves the read-after-write laws and that `set` keeps the canonical form. -/

namespace Sys2Proof.Machine.Sparse

/-- The entry at a key, `d` where none is listed. -/
def get {V : Type} (d : V) (table : List (Nat × V)) (key : Nat) : V :=
  match table with
  | [] => d
  | (k, v) :: rest => if k = key then v else get d rest key

/-- The table without a key's entry. -/
def erase {V : Type} (table : List (Nat × V)) (key : Nat) : List (Nat × V) :=
  table.filter (fun entry => entry.1 != key)

/-- The table with an entry put before the first greater key. -/
def insert {V : Type} (table : List (Nat × V)) (key : Nat) (value : V) : List (Nat × V) :=
  match table with
  | [] => [(key, value)]
  | (k, v) :: rest => if key < k then (key, value) :: (k, v) :: rest else (k, v) :: insert rest key value

/-- The table with a key's entry written; writing what an unlisted key reads as removes the entry. -/
def set {V : Type} [DecidableEq V] (d : V) (table : List (Nat × V)) (key : Nat) (value : V) : List (Nat × V) :=
  if value = d then erase table key else insert (erase table key) key value

/-- The canonical form: keys strictly rising, and no entry equal to what an unlisted key reads as. -/
abbrev Canonical {V : Type} [DecidableEq V] (d : V) (table : List (Nat × V)) : Prop :=
  table.Pairwise (fun x y => x.1 < y.1) ∧ ∀ entry ∈ table, entry.2 ≠ d

end Sys2Proof.Machine.Sparse
end

