-- ==== Sys2Proof/Machine/Ops.lean ====
section
/-! DEFINITION. The named operations every meaning is built from: register access (10_state.md R31 to R36),
taking an exception and returning from one (60_exceptions.md), the caches and memory (20_memory.md), instruction
fetch (R79), control registers (10_state.md R40) and the custom logic (46_system.md R293). -/

namespace Sys2Proof.Machine

/-- What a meaning answers. -/
abbrev Result := Host.Outcome State Fault Refusal

/-! ## General registers (10_state.md R31, R33, R35, R36) -/

/-- The key of a register of a set in `State.regs`. -/
def regKey (set : Nat) (r : Reg) : Nat := 32 * set + r.toNat

/-- A read of register `r` of a set; r0 of set 0 reads 0 always (R33). -/
def State.regOf (s : State) (set : Nat) (r : Reg) : Word :=
  if set = 0 ∧ r = 0#5 then 0#32 else Sparse.get 0#32 s.regs (regKey set r)

/-- A write of register `r` of a set; r0 of set 0 discards it (R33). -/
def State.setRegOf (s : State) (set : Nat) (r : Reg) (value : Word) : State :=
  if set = 0 ∧ r = 0#5 then s else { s with regs := Sparse.set 0#32 s.regs (regKey set r) value }

/-- `x[r]`: a read in the current register set (00_scope.md R11). -/
def State.reg (s : State) (r : Reg) : Word := s.regOf s.crs r

/-- `x[r] <- value`, as the register file does it. -/
def State.setReg (s : State) (r : Reg) (value : Word) : State := s.setRegOf s.crs r value

/-- `ra`, `ea`, `ba` (10_state.md R32). -/
def raReg : Reg := 31#5
def eaReg : Reg := 29#5
def baReg : Reg := 30#5

/-- `pc <- t`. -/
def State.goto (s : State) (target : Word) : State := { s with pc := target }

/-- The advance to `pc + 4` (10_state.md R38). -/
def State.advance (s : State) : State := s.goto (s.pc + 4#32)

/-- A plain instruction's result: `x[r] <- value` and the advance. While a shadow set is current a plain write to r0
is a fault (R33). -/
def writeReg (r : Reg) (value : Word) (s : State) : Result :=
  if r = 0#5 ∧ s.crs ≠ 0 then .fault .writeR0InShadowSet else .next (s.setReg r value).advance

/-! ## Modes (60_exceptions.md R370) -/

/-- `status.U = 1`: user mode. -/
def State.userMode (s : State) : Bool := userOf s.cfg s.status

/-- `status.PRS`. -/
def State.prs (s : State) : Nat := prsOf s.cfg s.status

/-! ## Taking an exception and returning (60_exceptions.md) -/

/-- The register set the open `crs_policy` names for an event: the current one without shadow sets, else the policy's
answer taken modulo the number of sets (10_state.md R35; log 17). -/
def State.nextCrs (s : State) (event : CrsEvent) : Nat :=
  if s.cfg.numShadow = 0 then s.crs
  else Config.crsPolicy s.cfg event s.crs s.status s.estatus s.draws % (s.cfg.numShadow + 1)

/-- The counter of free values after an event the open `crs_policy` was asked about: it draws anew each time (log 17). -/
def State.drawsAfterPolicy (s : State) : Nat := if s.cfg.numShadow = 0 then s.draws else s.draws + 1

/-- The register set current after the entry of an exception: `trap` does not change it (46_system.md R285). -/
def State.entryCrs (s : State) (e : Exception) : Nat :=
  match e with
  | .trap => s.crs
  | .interrupt => s.nextCrs .interruptEntry
  | _ => s.nextCrs .exceptionEntry

/-- The register set whose r29 receives `ea` at the entry of an exception: with shadow sets the open `crs_policy` names
it, on its own, be it the interrupted set, the set current afterwards or another (R350). DESIGN CHOICE, safe: a free value
(log 17). `trap` writes the current set (R351). -/
def State.eaSet (s : State) (e : Exception) : Nat :=
  match e with
  | .trap => s.crs
  | .interrupt => s.nextCrs .interruptAddress
  | _ => s.nextCrs .exceptionAddress

/-- The counter of free values after the entry of an exception: `trap` asks the policy nothing. -/
def State.entryDraws (s : State) (e : Exception) : Nat :=
  match e with
  | .trap => s.draws
  | _ => s.drawsAfterPolicy

/-- Which exceptions are TLB misses (60_exceptions.md R342). -/
def tlbMissOf (e : Exception) : Option TlbMiss :=
  match e with
  | .fastTlbMissData => some .fastData
  | .doubleTlbMissData => some .doubleData
  | .fastTlbMissInstruction => some .fastInstruction
  | .doubleTlbMissInstruction => some .doubleInstruction
  | _ => none

/-- The handler address of an exception: `EXCEPTION_ADDR`, which all share, but for a TLB miss with an MMU, whose address the
open MMU hook gives, be it the same one or another (R350). DESIGN CHOICE: a free value (log 16). -/
def handlerAddr (c : Config) (e : Exception) : Word :=
  match tlbMissOf e with
  | some miss => if c.hasMmu then Config.tlbMissHandler c miss ++ 0#2 else c.exceptionAddr
  | none => c.exceptionAddr

/-- Exception entry (R350, R351, R361): `estatus <- status; PIE <- 0; U <- 0; x[29] <- pc + 4;
pc <- EXCEPTION_ADDR`. The state given is the one before the instruction, of whose own writes none happen (R353).
With shadow sets, which set is current afterwards and which set's x[29] is written are free values (log 17); with an MMU
the handler address of a TLB miss is (log 16). -/
def takeException (e : Exception) (s : State) : State :=
  ({ s with
      crs := s.entryCrs e
      estatus := s.status
      status := clearPieAndU s.cfg s.status
      draws := s.entryDraws e
      label := some e }.setRegOf (s.eaSet e) eaReg (s.pc + 4#32)).goto (handlerAddr s.cfg e)

/-- Break entry (R352): `bstatus <- status; PIE <- 0; U <- 0; x[30] <- pc + 4; pc <- BREAK_ADDR`. -/
def takeBreak (s : State) : State :=
  ({ s with
      bstatus := s.status
      status := clearPieAndU s.cfg s.status
      label := some .breakpoint }.setReg baReg (s.pc + 4#32)).goto s.cfg.breakAddr

/-- An instruction whose whole effect is to raise an exception. -/
def raise (e : Exception) (s : State) : Result := .next (takeException e s)

/-- A transfer of control to an address: Misaligned destination address unless it is a multiple of 4
(43_control_transfer.md R229); `arrive` is the state in which the instruction's own writes are done. -/
def transferTo (target : Word) (arrive : State) (s : State) : Result :=
  if isAligned4 target then .next (arrive.goto target) else raise .misalignedDestinationAddress s

/-- Return from an exception or a break (R365): `status` from the saved status, `pc` from the saved address; the register
set and the counter of free values are those given. -/
def returnTo (savedStatus target : Word) (crs draws : Nat) (s : State) : Result :=
  transferTo target { s with status := savedStatus, crs := crs, draws := draws } s

/-- A supervisor-only instruction (R344, R371): in user mode it raises, before any other effect. -/
def supervisorOnly (s : State) (effect : Result) : Result :=
  if s.userMode then raise .supervisorOnlyInstruction s else effect

/-- An optional instruction (40_arith_logic.md R171): raises Unimplemented instruction on a core without it. -/
def optionalInstr (implemented : Bool) (s : State) (effect : Result) : Result :=
  if implemented then effect else raise .unimplementedInstruction s

/-- A reserved encoding (30_encoding.md R124). -/
def reservedEncoding (s : State) : Result :=
  if s.cfg.illegalExc then raise .illegalInstruction s else .fault .reservedEncoding

/-- A conditional branch (43_control_transfer.md R215, R229). -/
def branchIf (condition : Bool) (imm : Imm16) (s : State) : Result :=
  if condition then transferTo (branchTarget s.pc imm) s s else .next s.advance

/-! ## Free values (00_scope.md R11; log 12) -/

/-- The state after one free value has been drawn. -/
def State.drawn (s : State) : State := { s with draws := s.draws + 1 }

/-- A division whose quotient is undefined (40_arith_logic.md R173): Division error, or `x[c] <- draw_32()`. -/
def undefinedQuotient (c : Reg) (s : State) : Result :=
  if s.cfg.divErrorExc then raise .divisionError s else writeReg c (Config.draw32 s.draws) s.drawn

/-! ## The data bus (20_memory.md R80, R81, R86, R87) -/

/-- One transfer made: completed at once with in-order memory, else issued and pending until `sync` (log 22). -/
def State.onBus (s : State) (t : Transfer) : State :=
  if s.cfg.inOrderMemory then { s with bus := t :: s.bus } else { s with pending := t :: s.pending }

/-- Every pending access completed (R87), recorded on the bus in program order. DESIGN CHOICE: with `IN_ORDER_MEMORY`
false the spec leaves the order open, and 92_eei_decisions.md D16 would refuse a program that depends on it (log 22). -/
def State.completePending (s : State) : State := { s with bus := s.pending ++ s.bus, pending := [] }

/-! ## Memory bytes (10_state.md R48, 20_memory.md R70) -/

/-- The canonical form of memory: that of a sparse table, every address inside the 32-bit space (log 9). -/
abbrev Memory.wf (mem : List Host.Cell) : Prop := Sparse.Canonical 0#8 mem ∧ ∀ cell ∈ mem, cell.1 < 2 ^ 32

/-- The byte memory holds at an address; a byte nothing has written reads 0 (log 9). -/
def State.memByte (s : State) (address : Word) : Byte := Sparse.get 0#8 s.mem address.toNat

/-- A byte written to memory. -/
def State.setMemByte (s : State) (address : Word) (value : Byte) : State :=
  { s with mem := Sparse.set 0#8 s.mem address.toNat value }

/-- `count` bytes copied from one byte table to another, byte `k` from key `source k` to key `target k`. -/
def copyBytes (table : List Host.Cell) (source target : Nat → Nat) (count : Nat) (into : List Host.Cell) :
    List Host.Cell :=
  match count with
  | 0 => into
  | k + 1 => Sparse.set 0#8 (copyBytes table source target k into) (target k) (Sparse.get 0#8 table (source k))

/-! ## Cache geometry (20_memory.md R84; log 24) -/

/-- `DCACHE_LINE_BYTES`, `DCACHE_LINES`, `ICACHE_LINE_BYTES`, `ICACHE_LINES`. -/
def dcacheLineBytes (c : Config) : Nat := 4 * 2 ^ c.dcacheLineLog
def dcacheLines (c : Config) : Nat := 2 ^ c.dcacheLinesLog
def icacheLineBytes (c : Config) : Nat := 4 * 2 ^ c.icacheLineLog
def icacheLines (c : Config) : Nat := 2 ^ c.icacheLinesLog

/-- `line(addr)`, `tag(addr)` and the place of the byte in the data cache. -/
def dlineOf (c : Config) (address : Nat) : Nat := address / dcacheLineBytes c % dcacheLines c
def dtagOf (c : Config) (address : Nat) : Nat := address / (dcacheLineBytes c * dcacheLines c)
def dslotOf (c : Config) (address : Nat) : Nat := address % (dcacheLineBytes c * dcacheLines c)

/-- `iline(addr)` (45_cache_sync.md R269), the tag and the place of the byte in the instruction cache. -/
def ilineOf (c : Config) (address : Nat) : Nat := address / icacheLineBytes c % icacheLines c
def itagOf (c : Config) (address : Nat) : Nat := address / (icacheLineBytes c * icacheLines c)
def islotOf (c : Config) (address : Nat) : Nat := address % (icacheLineBytes c * icacheLines c)

/-- The first address of the data-cache line of a tag and an index. -/
def dlineBase (c : Config) (tag line : Nat) : Nat := tag * (dcacheLineBytes c * dcacheLines c) + line * dcacheLineBytes c

/-- The first address of the instruction-cache line of a tag and an index. -/
def ilineBase (c : Config) (tag line : Nat) : Nat := tag * (icacheLineBytes c * icacheLines c) + line * icacheLineBytes c

/-! ## The data cache (20_memory.md R84, R85) -/

/-- The state of a data-cache line. -/
def State.dline (s : State) (line : Nat) : DLine := Sparse.get DLine.empty s.dcache line

/-- The state of a data-cache line written. -/
def State.setDline (s : State) (line : Nat) (value : DLine) : State :=
  { s with dcache := Sparse.set DLine.empty s.dcache line value }

/-- A hit: the line of the address is valid and holds its tag (R84). -/
def State.dcacheHit (s : State) (address : Word) : Bool :=
  s.cfg.hasDcache && (s.dline (dlineOf s.cfg address.toNat)).valid &&
    (s.dline (dlineOf s.cfg address.toNat)).tag == dtagOf s.cfg address.toNat

/-- The byte the processor's plain accesses see at an address: the cache's on a hit, else memory's (R85). -/
def State.byteAt (s : State) (address : Word) : Byte :=
  if s.dcacheHit address then Sparse.get 0#8 s.dcacheData (dslotOf s.cfg address.toNat) else s.memByte address

/-- A byte stored by a plain access: into the line, made dirty, on a hit, else into memory (R85). -/
def State.storeByte (s : State) (address : Word) (value : Byte) : State :=
  if s.dcacheHit address then
    { s with dcacheData := Sparse.set 0#8 s.dcacheData (dslotOf s.cfg address.toNat) value }.setDline
      (dlineOf s.cfg address.toNat) { s.dline (dlineOf s.cfg address.toNat) with dirty := true }
  else s.setMemByte address value

/-- A line that is both valid and dirty written back to memory (R84, 45_cache_sync.md R265); it stays in the cache.
DESIGN CHOICE: all its bytes go to memory, whatever region holds each of them (log 25). -/
def State.writeBack (s : State) (line : Nat) : State :=
  if (s.dline line).valid && (s.dline line).dirty then
    { s with
        mem := copyBytes s.dcacheData (fun k => line * dcacheLineBytes s.cfg + k)
          (fun k => (dlineBase s.cfg (s.dline line).tag line + k) % 2 ^ 32) (dcacheLineBytes s.cfg) s.mem }.onBus
      (.writeBack (BitVec.ofNat 32 (dlineBase s.cfg (s.dline line).tag line)))
  else s

/-- A line made invalid and not dirty. -/
def State.invalidateDline (s : State) (line : Nat) : State :=
  s.setDline line { s.dline line with valid := false, dirty := false }

/-- The line of an address filled from memory: valid, not dirty, with the address's tag (R85). DESIGN CHOICE: all its
bytes come from memory, whatever region holds each of them (log 25). -/
def State.fillDline (s : State) (address : Word) : State :=
  { s with
      dcacheData := copyBytes s.mem
        (fun k => (dlineBase s.cfg (dtagOf s.cfg address.toNat) (dlineOf s.cfg address.toNat) + k) % 2 ^ 32)
        (fun k => dlineOf s.cfg address.toNat * dcacheLineBytes s.cfg + k) (dcacheLineBytes s.cfg) s.dcacheData }.setDline
    (dlineOf s.cfg address.toNat) { valid := true, dirty := false, tag := dtagOf s.cfg address.toNat }

/-- A plain access on its way (R85): the direct transfer without a data cache; nothing on a hit; on a miss, an open
choice, the direct transfer with the cache unchanged, or the resident line written back if dirty and the line refilled. -/
def State.plainAccess (s : State) (address : Word) (direct : Transfer) : State :=
  if !s.cfg.hasDcache then s.onBus direct
  else if s.dcacheHit address then s
  else if Config.dcacheAllocates s.draws then
    ((s.drawn.writeBack (dlineOf s.cfg address.toNat)).fillDline address).onBus
      (.refill (BitVec.ofNat 32 (dlineBase s.cfg (dtagOf s.cfg address.toNat) (dlineOf s.cfg address.toNat))))
  else s.drawn.onBus direct

/-! ## The fetch hazard (20_memory.md R89; log 23) -/

/-- The hazard of the aligned word that holds an address: that of the latest store that modified any byte of it. -/
def State.hazardAt (s : State) (address : Word) : HazardStage := Sparse.get .fetchable s.hazard (address.toNat / 4)

/-- The hazard of the aligned word that holds an address, written. -/
def State.setHazard (s : State) (address : Word) (stage : HazardStage) : State :=
  { s with hazard := Sparse.set .fetchable s.hazard (address.toNat / 4) stage }

/-- The step of the sequence that follows the write-back, or a store that needs none. -/
def stageAfterWriteBack (c : Config) : HazardStage := if c.hasIcache then .needsInvalidate else .needsFlushPipeline

/-- Words at stage `before` whose address satisfies `here` moved on to stage `after`. -/
def State.moveHazard (s : State) (here : Nat → Bool) (before after : HazardStage) : State :=
  { s with
      hazard := s.hazard.map (fun entry => if entry.2 = before ∧ here (4 * entry.1) then (entry.1, after) else entry) }

/-- `flushp`, event (c): every word for which only it was to come is fetchable. -/
def State.flushHazard (s : State) : State :=
  { s with hazard := s.hazard.filter (fun entry => entry.2 != .needsFlushPipeline) }

/-! ## Loads and stores (20_memory.md R76 to R81) -/

/-- The plain and the `io` form (44_load_store.md R258). -/
inductive Path where
  | plain
  | io
  deriving DecidableEq, Repr

/-- Why an access is not made: an architectural exception, or a model-level stop. -/
inductive Stop where
  | exception (e : Exception)
  | fault (f : Fault)
  deriving DecidableEq, Repr

/-- What an instruction answers when an access it needs may be stopped: `s` is the state before it. -/
def settle {α : Type} (s : State) (access : Except Stop α) (done : α → Result) : Result :=
  match access with
  | .ok x => done x
  | .error (.exception e) => raise e s
  | .error (.fault f) => .fault f

/-- The value of the bytes of an access, zero-extended, little-endian (20_memory.md R72). -/
def readValue (byteOf : Word → Byte) (w : Width) (address : Word) : Word :=
  match w with
  | .byte => (byteOf address).setWidth 32
  | .half => (byteOf (address + 1#32) ++ byteOf address).setWidth 32
  | .word => wordOfBytes (byteOf address) (byteOf (address + 1#32)) (byteOf (address + 2#32)) (byteOf (address + 3#32))

/-- The bytes of an access written one by one, little-endian (R72, R77). -/
def writeValue (put : State → Word → Byte → State) (w : Width) (address value : Word) (s : State) : State :=
  match w with
  | .byte => put s address (byteOfWord value 0)
  | .half => put (put s address (byteOfWord value 0)) (address + 1#32) (byteOfWord value 1)
  | .word =>
    put (put (put (put s address (byteOfWord value 0)) (address + 1#32) (byteOfWord value 1))
      (address + 2#32) (byteOfWord value 2)) (address + 3#32) (byteOfWord value 3)

/-- The address of the last byte of an access. -/
def lastByte (w : Width) (address : Word) : Word := address + BitVec.ofNat 32 (widthBytes w - 1)

/-- The step of R89 a stored word is left at: a plain store with a data cache must still be written back. -/
def stageAfterStore (c : Config) (path : Path) : HazardStage :=
  if c.hasDcache && path == .plain then .needsWriteBack else stageAfterWriteBack c

/-- The bytes of a store recorded as modified (R77 step 6): the word that holds them, or the two words where an MMU puts
them at a misaligned address. The store is now the latest that modified any byte of those words. -/
def State.markModified (s : State) (path : Path) (w : Width) (address : Word) : State :=
  (s.setHazard address (stageAfterStore s.cfg path)).setHazard (lastByte w address) (stageAfterStore s.cfg path)

/-- `region(addr)` (R73): the first region listed that holds the address; it is asked for the first byte of an access,
and not for the other bytes of a cache line filled or written back (log 25). -/
def regionOf (c : Config) (address : Word) : Option Region :=
  c.regions.find? (fun r => decide (r.base ≤ address.toNat) && decide (address.toNat < r.base + r.size))

/-- The architectural name of a violation (60_exceptions.md R355). -/
def dataException (kind : AccessKind) (v : DataViolation) : Exception :=
  match v with
  | .supervisorOnlyDataAddress => .supervisorOnlyDataAddress
  | .tlbPermissionViolation =>
    match kind with
    | .read => .tlbPermissionViolationRead
    | .write => .tlbPermissionViolationWrite
  | .fastTlbMissData => .fastTlbMissData
  | .doubleTlbMissData => .doubleTlbMissData
  | .mpuRegionViolationData => .mpuRegionViolationData

/-- `protect(read | write, ea, U)` (R83): the address itself without an MMU and an MPU. -/
def State.protectData (s : State) (kind : AccessKind) (ea : Word) : Except DataViolation Word :=
  if s.cfg.hasMmu || s.cfg.hasMpu then Config.protectData s.cfg kind ea s.userMode else .ok ea

/-- The address a load or store goes to, checked in the order of 60_exceptions.md R354: Supervisor-only data
address, misalignment (20_memory.md R78), then the other results of `protect`. -/
def State.dataAddress (s : State) (kind : AccessKind) (w : Width) (ea : Word) : Except Stop Word :=
  if s.protectData kind ea matches .error .supervisorOnlyDataAddress then
    .error (.exception .supervisorOnlyDataAddress)
  else if misaligned w ea then
    .error (if s.cfg.misalignedDataExc then .exception .misalignedDataAddress else .fault .misalignedDataAddress)
  else
    match s.protectData kind ea with
    | .ok pa => .ok pa
    | .error v => .error (.exception (dataException kind v))

/-- The region of an access the platform's map and the cache rules admit (R73, R80, R81). -/
def State.admitted (s : State) (kind : AccessKind) (path : Path) (pa : Word) : Except Stop Region :=
  match regionOf s.cfg pa with
  | none => .error (.fault .outsideMemoryMap)
  | some r =>
    if !(match kind with | .read => r.load | .write => r.store) then .error (.fault .outsideMemoryMap)
    else if r.peripheral && s.cfg.hasDcache && path == .plain then .error (.fault .plainAccessToPeripheral)
    else if s.dcacheHit pa && path == .io then .error (.fault .ioAccessToCachedAddress)
    else .ok r

/-- `MemRead` and `MemReadIO` (R76, R80): the value read, zero-extended, and the state after the access. -/
def State.memRead (s : State) (path : Path) (w : Width) (ea : Word) : Except Stop (Word × State) :=
  match s.dataAddress .read w ea with
  | .error stop => .error stop
  | .ok pa =>
    match s.admitted .read path pa with
    | .error stop => .error stop
    | .ok r =>
      if r.peripheral then
        .ok (truncateTo w (Config.deviceAnswer s.bus s.pending pa (widthBytes w)), s.onBus (.load pa (widthBytes w)))
      else
        match path with
        | .plain =>
          let s' := s.plainAccess pa (.load pa (widthBytes w))
          .ok (readValue s'.byteAt w pa, s')
        | .io => .ok (readValue s.memByte w pa, s.onBus (.load pa (widthBytes w)))

/-- `MemWrite` and `MemWriteIO` (R77, R80): the state after the store. -/
def State.memWrite (s : State) (path : Path) (w : Width) (ea value : Word) : Except Stop State :=
  match s.dataAddress .write w ea with
  | .error stop => .error stop
  | .ok pa =>
    match s.admitted .write path pa with
    | .error stop => .error stop
    | .ok r =>
      if r.peripheral then
        .ok ((s.onBus (.store pa (widthBytes w) (truncateTo w value))).markModified path w pa)
      else
        match path with
        | .plain =>
          .ok ((writeValue State.storeByte w pa value
            (s.plainAccess pa (.store pa (widthBytes w) (truncateTo w value)))).markModified path w pa)
        | .io =>
          .ok ((writeValue State.setMemByte w pa value
            (s.onBus (.store pa (widthBytes w) (truncateTo w value)))).markModified path w pa)

/-- The effective address `x[A] + sext_32(IMM16)` (R71). -/
def State.effectiveAddress (s : State) (a : Reg) (imm : Imm16) : Word := s.reg a + sextImm imm

/-- A load (44_load_store.md R240): the value, extended, written to `x[b]`. -/
def loadInto (b : Reg) (path : Path) (w : Width) (extend : Word → Word) (a : Reg) (imm : Imm16) (s : State) : Result :=
  settle s (s.memRead path w (s.effectiveAddress a imm)) (fun answer => writeReg b (extend answer.1) answer.2)

/-- A store (R240): the low bytes of `x[b]`. -/
def storeFrom (b : Reg) (path : Path) (w : Width) (a : Reg) (imm : Imm16) (s : State) : Result :=
  settle s (s.memWrite path w (s.effectiveAddress a imm) (s.reg b)) (fun s' => .next s'.advance)

/-! ## Cache maintenance (45_cache_sync.md) -/

/-- The architectural name of a violation of `flushda` or `initda` (60_exceptions.md R355). -/
def cacheOpException (v : CacheOpViolation) : Exception :=
  match v with
  | .supervisorOnlyDataAddress => .supervisorOnlyDataAddress
  | .fastTlbMissData => .fastTlbMissData
  | .doubleTlbMissData => .doubleTlbMissData
  | .mpuRegionViolationData => .mpuRegionViolationData

/-- `protect(cacheop, ea, U)` (20_memory.md R83). -/
def State.cacheOpAddress (s : State) (ea : Word) : Except Stop Word :=
  if s.cfg.hasMmu || s.cfg.hasMpu then
    match Config.protectCacheOp s.cfg ea s.userMode with
    | .ok pa => .ok pa
    | .error v => .error (.exception (cacheOpException v))
  else .ok ea

/-- The line of an index written back if valid and dirty, then invalid (R265). -/
def State.flushDline (s : State) (line : Nat) : State := (s.writeBack line).invalidateDline line

/-- Whether a line is valid and dirty and holds the word at an address: a flush writes that word back with it. -/
def State.wordInDirtyLine (s : State) (line address : Nat) : Bool :=
  (s.dline line).valid && (s.dline line).dirty && dlineOf s.cfg address == line &&
    dtagOf s.cfg address == (s.dline line).tag

/-- Whether an address stands in the data-cache line of another, cached or not. -/
def sameDline (c : Config) (address other : Nat) : Bool :=
  dlineOf c other == dlineOf c address && dtagOf c other == dtagOf c address

/-- `flushd` (R265): the line of the address's index, whatever it holds. Event (a) of 20_memory.md R89 for the words of a
line it writes back, and for the words of the address's own line, of which memory then holds what the processor reads even
where nothing was left to write back (70_reset_and_hazards.md R400; log 23). -/
def State.flushIndex (s : State) (address : Word) : State :=
  if s.cfg.hasDcache then
    (s.flushDline (dlineOf s.cfg address.toNat)).moveHazard
      (fun word => s.wordInDirtyLine (dlineOf s.cfg address.toNat) word || sameDline s.cfg address.toNat word)
      .needsWriteBack (stageAfterWriteBack s.cfg)
  else s

/-- `flushda` (R266): the line, only on a hit. Event (a) of R89 for the words of the address's own line, on a hit or not
(R400; log 23). -/
def State.flushAddress (s : State) (address : Word) : State :=
  if s.cfg.hasDcache then
    (if s.dcacheHit address then s.flushDline (dlineOf s.cfg address.toNat) else s).moveHazard
      (sameDline s.cfg address.toNat) .needsWriteBack (stageAfterWriteBack s.cfg)
  else s

/-- `initd` (R267): the line of the address's index invalid, with no write-back. -/
def State.initIndex (s : State) (address : Word) : State :=
  if s.cfg.hasDcache then s.invalidateDline (dlineOf s.cfg address.toNat) else s

/-- `initda` (R268): the line invalid with no write-back, only on a hit. -/
def State.initAddress (s : State) (address : Word) : State :=
  if s.dcacheHit address then s.invalidateDline (dlineOf s.cfg address.toNat) else s

/-- The state of an instruction-cache line. -/
def State.iline (s : State) (line : Nat) : ILine := Sparse.get ILine.empty s.icache line

/-- The state of an instruction-cache line written. -/
def State.setIline (s : State) (line : Nat) (value : ILine) : State :=
  { s with icache := Sparse.set ILine.empty s.icache line value }

/-- `flushi` and `initi` (R269, R270): the instruction-cache line of the address's index invalid; event (b) of R89. -/
def State.invalidateInstruction (s : State) (address : Word) : State :=
  if s.cfg.hasIcache then
    (s.setIline (ilineOf s.cfg address.toNat) { s.iline (ilineOf s.cfg address.toNat) with valid := false }).moveHazard
      (fun word => ilineOf s.cfg word == ilineOf s.cfg address.toNat) .needsInvalidate .needsFlushPipeline
  else s

/-! ## Instruction fetch (20_memory.md R79) -/

/-- The architectural name of a fetch violation (60_exceptions.md R343). -/
def fetchException (v : FetchViolation) : Exception :=
  match v with
  | .supervisorOnlyInstructionAddress => .supervisorOnlyInstructionAddress
  | .fastTlbMissInstruction => .fastTlbMissInstruction
  | .doubleTlbMissInstruction => .doubleTlbMissInstruction
  | .tlbPermissionViolationExecute => .tlbPermissionViolationExecute
  | .mpuRegionViolationInstruction => .mpuRegionViolationInstruction

/-- `protect(fetch, pc, U)` (R83). -/
def State.fetchAddress (s : State) : Except Stop Word :=
  if s.cfg.hasMmu || s.cfg.hasMpu then
    match Config.protectFetch s.cfg s.pc s.userMode with
    | .ok pa => .ok pa
    | .error v => .error (.exception (fetchException v))
  else .ok s.pc

/-- A hit in the instruction cache. -/
def State.icacheHit (s : State) (address : Word) : Bool :=
  s.cfg.hasIcache && (s.iline (ilineOf s.cfg address.toNat)).valid &&
    (s.iline (ilineOf s.cfg address.toNat)).tag == itagOf s.cfg address.toNat

/-- The byte an instruction fetch sees: the instruction cache's on a hit, else memory's (R79). -/
def State.codeByte (s : State) (address : Word) : Byte :=
  if s.icacheHit address then Sparse.get 0#8 s.icacheData (islotOf s.cfg address.toNat) else s.memByte address

/-- The instruction-cache line of an address filled from memory, whatever region holds each byte (logs 14, 25). -/
def State.fillIline (s : State) (address : Word) : State :=
  { s with
      icacheData := copyBytes s.mem
        (fun k => (ilineBase s.cfg (itagOf s.cfg address.toNat) (ilineOf s.cfg address.toNat) + k) % 2 ^ 32)
        (fun k => ilineOf s.cfg address.toNat * icacheLineBytes s.cfg + k) (icacheLineBytes s.cfg) s.icacheData }.setIline
    (ilineOf s.cfg address.toNat) { valid := true, tag := itagOf s.cfg address.toNat }

/-- A fetch on its way: with an instruction cache a miss may, an open choice, fill the line (log 14). -/
def State.fetchAccess (s : State) (address : Word) : State :=
  if !s.cfg.hasIcache || s.icacheHit address then s
  else if Config.icacheAllocates s.draws then s.drawn.fillIline address
  else s.drawn

/-- The state after an instruction, where `s` is the state before its fetch: an instruction that raised an exception
leaves no cache change behind, the fill of its own fetch included (60_exceptions.md R353, 92_eei_decisions.md D12). -/
def State.unfilledIfRaised (s after : State) : State :=
  if after.label.isSome then { after with icache := s.icache, icacheData := s.icacheData } else after

/-- What an instruction answers, precise in the instruction cache too. -/
def preciseFetch (s : State) (answer : Result) : Result :=
  match answer with
  | .next after => .next (s.unfilledIfRaised after)
  | .fault f => .fault f
  | .refused r => .refused r

/-- Whether the four bytes of the instruction at an address are fetchable (R89): they are one word, but where an MMU puts
them at a misaligned address, and then each of the two words must be. -/
def State.fetchable (s : State) (address : Word) : Bool :=
  s.hazardAt address == .fetchable && s.hazardAt (address + 1#32) == .fetchable &&
    s.hazardAt (address + 2#32) == .fetchable && s.hazardAt (address + 3#32) == .fetchable

/-- `Fetch(pc)` (R79): the instruction word and the state after the access. -/
def State.fetch (s : State) : Except Stop (Word × State) :=
  match s.fetchAddress with
  | .error stop => .error stop
  | .ok pa =>
    match regionOf s.cfg pa with
    | none => .error (.fault .outsideMemoryMap)
    | some r =>
      if !r.fetch then .error (.fault .outsideMemoryMap)
      else if !s.fetchable pa then .error (.fault .fetchOfModifiedMemory)
      else .ok (readValue s.codeByte .word pa, s.fetchAccess pa)

/-- An instruction word placed where the next step fetches, as if the platform had loaded it: its bytes in memory,
fetchable, not hidden by an instruction-cache line, and no interrupt in front of it (log 34). -/
def State.placeWord (s : State) (word : Word) : State :=
  match s.fetchAddress with
  | .error _ => s
  | .ok pa =>
    let loaded := ((writeValue State.setMemByte .word pa word s).setHazard pa .fetchable).setHazard
      (lastByte .word pa) .fetchable
    { (if s.icacheHit pa then
        loaded.setIline (ilineOf s.cfg pa.toNat) { s.iline (ilineOf s.cfg pa.toNat) with valid := false }
      else loaded) with
      irq := match s.irq with
        | true :: rest => false :: rest
        | quiet => quiet }

/-! ## Control registers (10_state.md R40 to R45) -/

/-- `ctl[n]` where the spec describes the register (R44). -/
def State.readCtl (s : State) (n : Imm5) : Option Word :=
  if n = s.cfg.ctlStatus then some s.status
  else if n = s.cfg.ctlEstatus then some s.estatus
  else if n = s.cfg.ctlBstatus then some s.bstatus
  else none

/-- `ctl[n] <- value & STATUS_WRITE_MASK` where the spec describes the register (R45, 46_system.md R290). -/
def State.writeCtl (s : State) (n : Imm5) (value : Word) : Option State :=
  if n = s.cfg.ctlStatus then some { s with status := value &&& writableBits s.cfg }
  else if n = s.cfg.ctlEstatus then some { s with estatus := value &&& writableBits s.cfg }
  else if n = s.cfg.ctlBstatus then some { s with bstatus := value &&& writableBits s.cfg }
  else none

/-! ## The previous register set (46_system.md R291, R292) -/

/-- The common checks of `rdprs` and `wrprs`: supervisor mode, shadow sets implemented, and a set that exists. -/
def withPreviousSet (s : State) (effect : Result) : Result :=
  supervisorOnly s
    (if s.cfg.numShadow = 0 then raise .illegalInstruction s
     else if s.prs > s.cfg.numShadow then .fault .prsNamesNoRegisterSet
     else effect)

/-! ## Custom instructions (46_system.md R293) -/

/-- What the function configured for a custom instruction answers: the spec's example, or the user's logic. The example
is the 32-bit add with all three flag bits 1, which keeps no state. What it does with an operand or a result that is a
custom register (a flag bit 0) the spec does not say. DESIGN CHOICE, safe: a free value (log 19). -/
def customAnswer (f : CustomFn) (n : BitVec 8) (call : CustomCall) : Word × List Word :=
  match f, call.valueA, call.valueB, call.writerc with
  | .add32, some a, some b, true => (a + b, call.state)
  | _, _, _, _ => Config.customLogic n call

/-- The internal state of custom instruction N (10_state.md R46). -/
def State.customState (s : State) (n : BitVec 8) : List Word := Sparse.get [] s.custom n.toNat

/-- The internal state of custom instruction N written. -/
def State.setCustomState (s : State) (n : BitVec 8) (value : List Word) : State :=
  { s with custom := Sparse.set [] s.custom n.toNat value }

/-- What custom instruction N is given: an operand's value only where its flag bit is 1 (R293). -/
def State.customCall (s : State) (n : BitVec 8) (c a b : Reg) (readra readrb writerc : Bool) : CustomCall :=
  { valueA := if readra then some (s.reg a) else none
    valueB := if readrb then some (s.reg b) else none
    fieldA := a, fieldB := b, fieldC := c
    readra := readra, readrb := readrb, writerc := writerc
    state := s.customState n }

end Sys2Proof.Machine
end

