-- ==== Sys2Proof/Machine/Arith.lean ====
section
/-! DEFINITION. Arithmetic and logical instructions (40_arith_logic.md R150 to R173). -/

namespace Sys2Proof.Machine

/-- `add` (R151): `x[C] <- x[A] + x[B]`. -/
def execAdd (c a b : Reg) (s : State) : Result :=
  writeReg c (s.reg a + s.reg b) s

/-- `addi` (R152): `x[B] <- x[A] + sext_32(IMM16)`. -/
def execAddi (b a : Reg) (imm : Imm16) (s : State) : Result :=
  writeReg b (s.reg a + sextImm imm) s

/-- `sub` (R153): `x[C] <- x[A] - x[B]`. -/
def execSub (c a b : Reg) (s : State) : Result :=
  writeReg c (s.reg a - s.reg b) s

/-- `mul` (R154): the low word of the product; optional (R171). -/
def execMul (c a b : Reg) (s : State) : Result :=
  optionalInstr s.cfg.implMul s (writeReg c (s.reg a * s.reg b) s)

/-- `muli` (R155): the low word of the product by the sign-extended immediate; optional (R171). -/
def execMuli (b a : Reg) (imm : Imm16) (s : State) : Result :=
  optionalInstr s.cfg.implMuli s (writeReg b (s.reg a * sextImm imm) s)

/-- `mulxss` (R156): the high word, signed by signed; optional (R171). -/
def execMulxss (c a b : Reg) (s : State) : Result :=
  optionalInstr s.cfg.implMulxss s (writeReg c (mulHighSS (s.reg a) (s.reg b)) s)

/-- `mulxsu` (R157): the high word, `x[A]` signed by `x[B]` unsigned; optional (R171). -/
def execMulxsu (c a b : Reg) (s : State) : Result :=
  optionalInstr s.cfg.implMulxsu s (writeReg c (mulHighSU (s.reg a) (s.reg b)) s)

/-- `mulxuu` (R158): the high word, unsigned by unsigned; optional (R171). -/
def execMulxuu (c a b : Reg) (s : State) : Result :=
  optionalInstr s.cfg.implMulxuu s (writeReg c (mulHighUU (s.reg a) (s.reg b)) s)

/-- `div` (R159, R173): the signed quotient truncated toward zero; optional (R171). -/
def execDiv (c a b : Reg) (s : State) : Result :=
  optionalInstr s.cfg.implDiv s
    (if divUndefined (s.reg a) (s.reg b) then undefinedQuotient c s
     else writeReg c (quotientSigned (s.reg a) (s.reg b)) s)

/-- `divu` (R160, R173): the unsigned quotient; optional (R171). -/
def execDivu (c a b : Reg) (s : State) : Result :=
  optionalInstr s.cfg.implDivu s
    (if s.reg b = 0#32 then undefinedQuotient c s
     else writeReg c (quotientUnsigned (s.reg a) (s.reg b)) s)

/-- `and` (R161): bitwise AND. -/
def execAnd (c a b : Reg) (s : State) : Result :=
  writeReg c (s.reg a &&& s.reg b) s

/-- `andi` (R162): bitwise AND with `0x0000 : IMM16`. -/
def execAndi (b a : Reg) (imm : Imm16) (s : State) : Result :=
  writeReg b (s.reg a &&& zextImm imm) s

/-- `andhi` (R163): bitwise AND with `IMM16 : 0x0000`. -/
def execAndhi (b a : Reg) (imm : Imm16) (s : State) : Result :=
  writeReg b (s.reg a &&& highImm imm) s

/-- `or` (R164): bitwise OR. -/
def execOr (c a b : Reg) (s : State) : Result :=
  writeReg c (s.reg a ||| s.reg b) s

/-- `ori` (R165): bitwise OR with `0x0000 : IMM16`. -/
def execOri (b a : Reg) (imm : Imm16) (s : State) : Result :=
  writeReg b (s.reg a ||| zextImm imm) s

/-- `orhi` (R166): bitwise OR with `IMM16 : 0x0000`. -/
def execOrhi (b a : Reg) (imm : Imm16) (s : State) : Result :=
  writeReg b (s.reg a ||| highImm imm) s

/-- `xor` (R167): bitwise exclusive OR. -/
def execXor (c a b : Reg) (s : State) : Result :=
  writeReg c (s.reg a ^^^ s.reg b) s

/-- `xori` (R168): bitwise exclusive OR with `0x0000 : IMM16`. -/
def execXori (b a : Reg) (imm : Imm16) (s : State) : Result :=
  writeReg b (s.reg a ^^^ zextImm imm) s

/-- `xorhi` (R169): bitwise exclusive OR with `IMM16 : 0x0000`. -/
def execXorhi (b a : Reg) (imm : Imm16) (s : State) : Result :=
  writeReg b (s.reg a ^^^ highImm imm) s

/-- `nor` (R170): bitwise NOR. -/
def execNor (c a b : Reg) (s : State) : Result :=
  writeReg c (~~~(s.reg a ||| s.reg b)) s

end Sys2Proof.Machine
end

