-- ==== Sys2Proof/Machine/Cache.lean ====
section
/-! DEFINITION. Cache maintenance, pipeline flush and sync (45_cache_sync.md R265 to R274). -/

namespace Sys2Proof.Machine

/-- `flushd` (R265): `protect` is not called. -/
def execFlushd (imm : Imm16) (a : Reg) (s : State) : Result :=
  .next (s.flushIndex (s.effectiveAddress a imm)).advance

/-- `flushda` (R266). -/
def execFlushda (imm : Imm16) (a : Reg) (s : State) : Result :=
  settle s (s.cacheOpAddress (s.effectiveAddress a imm)) (fun pa => .next (s.flushAddress pa).advance)

/-- `initd` (R267): supervisor only; `protect` is not called. -/
def execInitd (imm : Imm16) (a : Reg) (s : State) : Result :=
  supervisorOnly s (.next (s.initIndex (s.effectiveAddress a imm)).advance)

/-- `initda` (R268): optional (R171), in any mode. -/
def execInitda (imm : Imm16) (a : Reg) (s : State) : Result :=
  optionalInstr s.cfg.implInitda s
    (settle s (s.cacheOpAddress (s.effectiveAddress a imm)) (fun pa => .next (s.initAddress pa).advance))

/-- `flushi` (R269). -/
def execFlushi (a : Reg) (s : State) : Result :=
  .next (s.invalidateInstruction (s.reg a)).advance

/-- `initi` (R270): supervisor only. -/
def execIniti (a : Reg) (s : State) : Result :=
  supervisorOnly s (.next (s.invalidateInstruction (s.reg a)).advance)

/-- `flushp` (R271): no instruction is prefetched in this model; event (c) of 20_memory.md R89. -/
def execFlushp (s : State) : Result :=
  .next s.flushHazard.advance

/-- `sync` (R272): every pending access completes; with in-order memory none is pending. -/
def execSync (s : State) : Result :=
  .next (if s.cfg.inOrderMemory then s else s.completePending).advance

end Sys2Proof.Machine
end

