-- ==== Sys2Proof/Machine/Compare.lean ====
section
/-! DEFINITION. Comparison instructions (41_compare.md R180 to R193): 1 or 0 to a general register. -/

namespace Sys2Proof.Machine

/-- `cmpeq` (R181): equal. -/
def execCmpeq (c a b : Reg) (s : State) : Result :=
  writeReg c (boolWord (s.reg a == s.reg b)) s

/-- `cmpeqi` (R182): equal to the sign-extended immediate. -/
def execCmpeqi (b a : Reg) (imm : Imm16) (s : State) : Result :=
  writeReg b (boolWord (s.reg a == sextImm imm)) s

/-- `cmpne` (R183): not equal. -/
def execCmpne (c a b : Reg) (s : State) : Result :=
  writeReg c (boolWord (s.reg a != s.reg b)) s

/-- `cmpnei` (R184): not equal to the sign-extended immediate. -/
def execCmpnei (b a : Reg) (imm : Imm16) (s : State) : Result :=
  writeReg b (boolWord (s.reg a != sextImm imm)) s

/-- `cmpge` (R185): signed `>=`. -/
def execCmpge (c a b : Reg) (s : State) : Result :=
  writeReg c (boolWord (BitVec.sle (s.reg b) (s.reg a))) s

/-- `cmpgei` (R186): signed `>=` with the sign-extended immediate. -/
def execCmpgei (b a : Reg) (imm : Imm16) (s : State) : Result :=
  writeReg b (boolWord (BitVec.sle (sextImm imm) (s.reg a))) s

/-- `cmpgeu` (R187): unsigned `>=`. -/
def execCmpgeu (c a b : Reg) (s : State) : Result :=
  writeReg c (boolWord (BitVec.ule (s.reg b) (s.reg a))) s

/-- `cmpgeui` (R188): unsigned `>=` with the zero-extended immediate. -/
def execCmpgeui (b a : Reg) (imm : Imm16) (s : State) : Result :=
  writeReg b (boolWord (BitVec.ule (zextImm imm) (s.reg a))) s

/-- `cmplt` (R189): signed `<`. -/
def execCmplt (c a b : Reg) (s : State) : Result :=
  writeReg c (boolWord (BitVec.slt (s.reg a) (s.reg b))) s

/-- `cmplti` (R190): signed `<` with the sign-extended immediate. -/
def execCmplti (b a : Reg) (imm : Imm16) (s : State) : Result :=
  writeReg b (boolWord (BitVec.slt (s.reg a) (sextImm imm))) s

/-- `cmpltu` (R191): unsigned `<`. -/
def execCmpltu (c a b : Reg) (s : State) : Result :=
  writeReg c (boolWord (BitVec.ult (s.reg a) (s.reg b))) s

/-- `cmpltui` (R192): unsigned `<` with the zero-extended immediate. -/
def execCmpltui (b a : Reg) (imm : Imm16) (s : State) : Result :=
  writeReg b (boolWord (BitVec.ult (s.reg a) (zextImm imm))) s

end Sys2Proof.Machine
end

