-- ==== Sys2Proof/Machine/Control.lean ====
section
/-! DEFINITION. Control transfer instructions (43_control_transfer.md R215 to R229). A transfer to an address that is not a
multiple of 4 raises Misaligned destination address and writes nothing; a branch not taken raises nothing (R229). -/

namespace Sys2Proof.Machine

/-- `br` (R216). -/
def execBr (imm : Imm16) (s : State) : Result :=
  branchIf true imm s

/-- `beq` (R217): branch if equal. -/
def execBeq (a b : Reg) (imm : Imm16) (s : State) : Result :=
  branchIf (s.reg a == s.reg b) imm s

/-- `bne` (R218): branch if not equal. -/
def execBne (a b : Reg) (imm : Imm16) (s : State) : Result :=
  branchIf (s.reg a != s.reg b) imm s

/-- `bge` (R219): branch if signed `>=`. -/
def execBge (a b : Reg) (imm : Imm16) (s : State) : Result :=
  branchIf (BitVec.sle (s.reg b) (s.reg a)) imm s

/-- `bgeu` (R220): branch if unsigned `>=`. -/
def execBgeu (a b : Reg) (imm : Imm16) (s : State) : Result :=
  branchIf (BitVec.ule (s.reg b) (s.reg a)) imm s

/-- `blt` (R221): branch if signed `<`. -/
def execBlt (a b : Reg) (imm : Imm16) (s : State) : Result :=
  branchIf (BitVec.slt (s.reg a) (s.reg b)) imm s

/-- `bltu` (R222): branch if unsigned `<`. -/
def execBltu (a b : Reg) (imm : Imm16) (s : State) : Result :=
  branchIf (BitVec.ult (s.reg a) (s.reg b)) imm s

/-- `call` (R223): `x[31] <- pc + 4; pc <- pc[31:28] : IMM26 : 0b00`. -/
def execCall (imm : Imm26) (s : State) : Result :=
  .next ((s.setReg raReg (s.pc + 4#32)).goto (segmentTarget s.pc imm))

/-- `callr` (R224): jumps to the old `x[A]`, and then `x[31]` holds `pc + 4`. -/
def execCallr (a : Reg) (s : State) : Result :=
  transferTo (s.reg a) (s.setReg raReg (s.pc + 4#32)) s

/-- `jmp` (R225); `jmp r31` is illegal and named a fault (70_reset_and_hazards.md R402; log 28). -/
def execJmp (a : Reg) (s : State) : Result :=
  if a = 31#5 then .fault .jmpR31 else transferTo (s.reg a) s s

/-- `jmpi` (R226): `pc <- pc[31:28] : IMM26 : 0b00`. -/
def execJmpi (imm : Imm26) (s : State) : Result :=
  .next (s.goto (segmentTarget s.pc imm))

/-- `ret` (R227): `pc <- x[31]`. -/
def execRet (s : State) : Result :=
  transferTo (s.reg raReg) s s

/-- `nextpc` (R228): `x[C] <- pc + 4`. -/
def execNextpc (c : Reg) (s : State) : Result :=
  writeReg c (s.pc + 4#32) s

end Sys2Proof.Machine
end

