-- ==== Sys2Proof/Machine/LoadStore.lean ====
section
/-! DEFINITION. Load and store instructions (44_load_store.md R240 to R258). -/

namespace Sys2Proof.Machine

/-- `ldb` (R241): load a byte, sign-extended. -/
def execLdb (b : Reg) (imm : Imm16) (a : Reg) (s : State) : Result :=
  loadInto b .plain .byte sextByte a imm s

/-- `ldbio` (R242): `ldb` past the data cache. -/
def execLdbio (b : Reg) (imm : Imm16) (a : Reg) (s : State) : Result :=
  loadInto b .io .byte sextByte a imm s

/-- `ldbu` (R243): load a byte, zero-extended. -/
def execLdbu (b : Reg) (imm : Imm16) (a : Reg) (s : State) : Result :=
  loadInto b .plain .byte id a imm s

/-- `ldbuio` (R244): `ldbu` past the data cache. -/
def execLdbuio (b : Reg) (imm : Imm16) (a : Reg) (s : State) : Result :=
  loadInto b .io .byte id a imm s

/-- `ldh` (R245): load a halfword, sign-extended. -/
def execLdh (b : Reg) (imm : Imm16) (a : Reg) (s : State) : Result :=
  loadInto b .plain .half sextHalf a imm s

/-- `ldhio` (R246): `ldh` past the data cache. -/
def execLdhio (b : Reg) (imm : Imm16) (a : Reg) (s : State) : Result :=
  loadInto b .io .half sextHalf a imm s

/-- `ldhu` (R247): load a halfword, zero-extended. -/
def execLdhu (b : Reg) (imm : Imm16) (a : Reg) (s : State) : Result :=
  loadInto b .plain .half id a imm s

/-- `ldhuio` (R248): `ldhu` past the data cache. -/
def execLdhuio (b : Reg) (imm : Imm16) (a : Reg) (s : State) : Result :=
  loadInto b .io .half id a imm s

/-- `ldw` (R249): load a word. -/
def execLdw (b : Reg) (imm : Imm16) (a : Reg) (s : State) : Result :=
  loadInto b .plain .word id a imm s

/-- `ldwio` (R250): `ldw` past the data cache. -/
def execLdwio (b : Reg) (imm : Imm16) (a : Reg) (s : State) : Result :=
  loadInto b .io .word id a imm s

/-- `stb` (R251): store the low byte. -/
def execStb (b : Reg) (imm : Imm16) (a : Reg) (s : State) : Result :=
  storeFrom b .plain .byte a imm s

/-- `stbio` (R252): `stb` past the data cache. -/
def execStbio (b : Reg) (imm : Imm16) (a : Reg) (s : State) : Result :=
  storeFrom b .io .byte a imm s

/-- `sth` (R253): store the low halfword. -/
def execSth (b : Reg) (imm : Imm16) (a : Reg) (s : State) : Result :=
  storeFrom b .plain .half a imm s

/-- `sthio` (R254): `sth` past the data cache. -/
def execSthio (b : Reg) (imm : Imm16) (a : Reg) (s : State) : Result :=
  storeFrom b .io .half a imm s

/-- `stw` (R255): store the word. -/
def execStw (b : Reg) (imm : Imm16) (a : Reg) (s : State) : Result :=
  storeFrom b .plain .word a imm s

/-- `stwio` (R256): `stw` past the data cache. -/
def execStwio (b : Reg) (imm : Imm16) (a : Reg) (s : State) : Result :=
  storeFrom b .io .word a imm s

end Sys2Proof.Machine
end

