-- ==== Sys2Proof/Machine/Shift.lean ====
section
/-! DEFINITION. Shift and rotate instructions (42_shift_rotate.md R200 to R209): counts 0 to 31. -/

namespace Sys2Proof.Machine

/-- `rol` (R201): rotate left by bits 4..0 of `x[B]`. -/
def execRol (c a b : Reg) (s : State) : Result :=
  writeReg c ((s.reg a).rotateLeft (shiftCount (s.reg b))) s

/-- `roli` (R202): rotate left by IMM5. -/
def execRoli (c a : Reg) (n : Imm5) (s : State) : Result :=
  writeReg c ((s.reg a).rotateLeft n.toNat) s

/-- `ror` (R203): rotate right by bits 4..0 of `x[B]`. -/
def execRor (c a b : Reg) (s : State) : Result :=
  writeReg c ((s.reg a).rotateRight (shiftCount (s.reg b))) s

/-- `sll` (R204): shift left, zeros in. -/
def execSll (c a b : Reg) (s : State) : Result :=
  writeReg c (s.reg a <<< shiftCount (s.reg b)) s

/-- `slli` (R205): shift left by IMM5, zeros in. -/
def execSlli (c a : Reg) (n : Imm5) (s : State) : Result :=
  writeReg c (s.reg a <<< n.toNat) s

/-- `sra` (R206): shift right, the sign bit copied in. -/
def execSra (c a b : Reg) (s : State) : Result :=
  writeReg c ((s.reg a).sshiftRight (shiftCount (s.reg b))) s

/-- `srai` (R207): shift right by IMM5, the sign bit copied in. -/
def execSrai (c a : Reg) (n : Imm5) (s : State) : Result :=
  writeReg c ((s.reg a).sshiftRight n.toNat) s

/-- `srl` (R208): shift right, zeros in. -/
def execSrl (c a b : Reg) (s : State) : Result :=
  writeReg c (s.reg a >>> shiftCount (s.reg b)) s

/-- `srli` (R209): shift right by IMM5, zeros in. -/
def execSrli (c a : Reg) (n : Imm5) (s : State) : Result :=
  writeReg c (s.reg a >>> n.toNat) s

end Sys2Proof.Machine
end

