-- ==== Sys2Proof/Machine/System.lean ====
section
/-! DEFINITION. Trap, break, exception return, control registers, register sets, custom (46_system.md R285 to R294). -/

namespace Sys2Proof.Machine

/-- `trap` (R285): IMM5 is ignored. -/
def execTrap (_n : Imm5) (s : State) : Result :=
  raise .trap s

/-- `eret` (R286): `status <- estatus; pc <- ea`; with shadow sets the open `crs_policy` gives the register set. -/
def execEret (s : State) : Result :=
  supervisorOnly s (returnTo s.estatus (s.reg eaReg) (s.nextCrs .exceptionReturn) s.drawsAfterPolicy s)

/-- `break` (R287): IMM5 is ignored. -/
def execBrk (_n : Imm5) (s : State) : Result :=
  .next (takeBreak s)

/-- `bret` (R288): `status <- bstatus; pc <- ba`. -/
def execBret (s : State) : Result :=
  supervisorOnly s (returnTo s.bstatus (s.reg baReg) s.crs s.draws s)

/-- `rdctl` (R289). -/
def execRdctl (c : Reg) (n : Imm5) (s : State) : Result :=
  supervisorOnly s
    (match s.readCtl n with
     | some value => writeReg c value s
     | none => .fault .controlRegisterNotModelled)

/-- `wrctl` (R290). -/
def execWrctl (n : Imm5) (a : Reg) (s : State) : Result :=
  supervisorOnly s
    (match s.writeCtl n (s.reg a) with
     | some s' => .next s'.advance
     | none => .fault .controlRegisterNotModelled)

/-- `rdprs` (R291): `x[B] <- prs[A] + sext_32(IMM16)`. -/
def execRdprs (b a : Reg) (imm : Imm16) (s : State) : Result :=
  withPreviousSet s (writeReg b (s.regOf s.prs a + sextImm imm) s)

/-- `wrprs` (R292): `prs[C] <- x[A]`. -/
def execWrprs (c a : Reg) (s : State) : Result :=
  withPreviousSet s (.next (s.setRegOf s.prs c (s.reg a)).advance)

/-- `custom` (R293): the configured function of N, with its own state; without one, a reserved encoding (30_encoding.md R126). -/
def execCustom (n : BitVec 8) (c a b : Reg) (readra readrb writerc : Bool) (s : State) : Result :=
  match s.cfg.custom.lookup n with
  | none => reservedEncoding s
  | some f =>
    let answer := customAnswer f n (s.customCall n c a b readra readrb writerc)
    let s' := s.setCustomState n answer.2
    if writerc then writeReg c answer.1 s' else .next s'.advance

end Sys2Proof.Machine
end

