-- ==== Sys2Proof/Machine/Dispatch.lean ====
section
/-! DEFINITION. The meaning of every instruction: one arm per constructor, each a call of its own meaning. -/

namespace Sys2Proof.Machine

def exec (i : Instr) (s : State) : Host.Outcome State Fault Refusal :=
  match i with
  | .add c a b => Sys2Proof.Machine.execAdd c a b s
  | .addi b a imm => Sys2Proof.Machine.execAddi b a imm s
  | .sub c a b => Sys2Proof.Machine.execSub c a b s
  | .mul c a b => Sys2Proof.Machine.execMul c a b s
  | .muli b a imm => Sys2Proof.Machine.execMuli b a imm s
  | .mulxss c a b => Sys2Proof.Machine.execMulxss c a b s
  | .mulxsu c a b => Sys2Proof.Machine.execMulxsu c a b s
  | .mulxuu c a b => Sys2Proof.Machine.execMulxuu c a b s
  | .div c a b => Sys2Proof.Machine.execDiv c a b s
  | .divu c a b => Sys2Proof.Machine.execDivu c a b s
  | .and c a b => Sys2Proof.Machine.execAnd c a b s
  | .andi b a imm => Sys2Proof.Machine.execAndi b a imm s
  | .andhi b a imm => Sys2Proof.Machine.execAndhi b a imm s
  | .or c a b => Sys2Proof.Machine.execOr c a b s
  | .ori b a imm => Sys2Proof.Machine.execOri b a imm s
  | .orhi b a imm => Sys2Proof.Machine.execOrhi b a imm s
  | .xor c a b => Sys2Proof.Machine.execXor c a b s
  | .xori b a imm => Sys2Proof.Machine.execXori b a imm s
  | .xorhi b a imm => Sys2Proof.Machine.execXorhi b a imm s
  | .nor c a b => Sys2Proof.Machine.execNor c a b s
  | .cmpeq c a b => Sys2Proof.Machine.execCmpeq c a b s
  | .cmpeqi b a imm => Sys2Proof.Machine.execCmpeqi b a imm s
  | .cmpne c a b => Sys2Proof.Machine.execCmpne c a b s
  | .cmpnei b a imm => Sys2Proof.Machine.execCmpnei b a imm s
  | .cmpge c a b => Sys2Proof.Machine.execCmpge c a b s
  | .cmpgei b a imm => Sys2Proof.Machine.execCmpgei b a imm s
  | .cmpgeu c a b => Sys2Proof.Machine.execCmpgeu c a b s
  | .cmpgeui b a imm => Sys2Proof.Machine.execCmpgeui b a imm s
  | .cmplt c a b => Sys2Proof.Machine.execCmplt c a b s
  | .cmplti b a imm => Sys2Proof.Machine.execCmplti b a imm s
  | .cmpltu c a b => Sys2Proof.Machine.execCmpltu c a b s
  | .cmpltui b a imm => Sys2Proof.Machine.execCmpltui b a imm s
  | .rol c a b => Sys2Proof.Machine.execRol c a b s
  | .roli c a n => Sys2Proof.Machine.execRoli c a n s
  | .ror c a b => Sys2Proof.Machine.execRor c a b s
  | .sll c a b => Sys2Proof.Machine.execSll c a b s
  | .slli c a n => Sys2Proof.Machine.execSlli c a n s
  | .sra c a b => Sys2Proof.Machine.execSra c a b s
  | .srai c a n => Sys2Proof.Machine.execSrai c a n s
  | .srl c a b => Sys2Proof.Machine.execSrl c a b s
  | .srli c a n => Sys2Proof.Machine.execSrli c a n s
  | .br imm => Sys2Proof.Machine.execBr imm s
  | .beq a b imm => Sys2Proof.Machine.execBeq a b imm s
  | .bne a b imm => Sys2Proof.Machine.execBne a b imm s
  | .bge a b imm => Sys2Proof.Machine.execBge a b imm s
  | .bgeu a b imm => Sys2Proof.Machine.execBgeu a b imm s
  | .blt a b imm => Sys2Proof.Machine.execBlt a b imm s
  | .bltu a b imm => Sys2Proof.Machine.execBltu a b imm s
  | .call imm => Sys2Proof.Machine.execCall imm s
  | .callr a => Sys2Proof.Machine.execCallr a s
  | .jmp a => Sys2Proof.Machine.execJmp a s
  | .jmpi imm => Sys2Proof.Machine.execJmpi imm s
  | .ret => Sys2Proof.Machine.execRet s
  | .nextpc c => Sys2Proof.Machine.execNextpc c s
  | .ldb b imm a => Sys2Proof.Machine.execLdb b imm a s
  | .ldbio b imm a => Sys2Proof.Machine.execLdbio b imm a s
  | .ldbu b imm a => Sys2Proof.Machine.execLdbu b imm a s
  | .ldbuio b imm a => Sys2Proof.Machine.execLdbuio b imm a s
  | .ldh b imm a => Sys2Proof.Machine.execLdh b imm a s
  | .ldhio b imm a => Sys2Proof.Machine.execLdhio b imm a s
  | .ldhu b imm a => Sys2Proof.Machine.execLdhu b imm a s
  | .ldhuio b imm a => Sys2Proof.Machine.execLdhuio b imm a s
  | .ldw b imm a => Sys2Proof.Machine.execLdw b imm a s
  | .ldwio b imm a => Sys2Proof.Machine.execLdwio b imm a s
  | .stb b imm a => Sys2Proof.Machine.execStb b imm a s
  | .stbio b imm a => Sys2Proof.Machine.execStbio b imm a s
  | .sth b imm a => Sys2Proof.Machine.execSth b imm a s
  | .sthio b imm a => Sys2Proof.Machine.execSthio b imm a s
  | .stw b imm a => Sys2Proof.Machine.execStw b imm a s
  | .stwio b imm a => Sys2Proof.Machine.execStwio b imm a s
  | .flushd imm a => Sys2Proof.Machine.execFlushd imm a s
  | .flushda imm a => Sys2Proof.Machine.execFlushda imm a s
  | .initd imm a => Sys2Proof.Machine.execInitd imm a s
  | .initda imm a => Sys2Proof.Machine.execInitda imm a s
  | .flushi a => Sys2Proof.Machine.execFlushi a s
  | .initi a => Sys2Proof.Machine.execIniti a s
  | .flushp => Sys2Proof.Machine.execFlushp s
  | .sync => Sys2Proof.Machine.execSync s
  | .trap n => Sys2Proof.Machine.execTrap n s
  | .eret => Sys2Proof.Machine.execEret s
  | .brk n => Sys2Proof.Machine.execBrk n s
  | .bret => Sys2Proof.Machine.execBret s
  | .rdctl c n => Sys2Proof.Machine.execRdctl c n s
  | .wrctl n a => Sys2Proof.Machine.execWrctl n a s
  | .rdprs b a imm => Sys2Proof.Machine.execRdprs b a imm s
  | .wrprs c a => Sys2Proof.Machine.execWrprs c a s
  | .custom n c a b readra readrb writerc => Sys2Proof.Machine.execCustom n c a b readra readrb writerc s

end Sys2Proof.Machine
end

