-- ==== Sys2Proof/Machine/Step.lean ====
section
/-! DEFINITION. One step of the machine, in the order of 60_exceptions.md R354: a pending interrupt, the fetch,
decoding, and then the instruction's own checks and effect. -/

namespace Sys2Proof.Machine

/-- The state in which the coming instruction is considered: the environment's `irq_pending` for it is used up
(60_exceptions.md R360), and no exception has been taken yet. -/
def State.begin (s : State) : State := { s with irq := s.irq.tail, label := none }

/-- Whether an interrupt is taken before the coming instruction: `irq_pending` and `status.PIE` (R360). -/
def State.interrupted (s : State) : Bool := s.irq.headD false && pieOf s.cfg s.status

/-- The instruction at `pc` fetched, decoded and executed (20_memory.md R79, 30_encoding.md R117, R124). -/
def runInstruction (s : State) : Result :=
  settle s s.fetch (fun fetched =>
    preciseFetch s
      (match decode fetched.1 with
       | .ok i => exec i fetched.2
       | .error _ => reservedEncoding fetched.2))

/-- One step. -/
def step (s : State) : Host.Outcome State Fault Refusal :=
  if s.interrupted then .next (takeException .interrupt s.begin) else runInstruction s.begin

/-- The state with the instruction whose `nbits` low bits are those of `w`, its other bits 0, stored where the next
step fetches (log 34). -/
def State.withFetchWord (s : State) (nbits w : Nat) : State := s.placeWord (BitVec.ofNat 32 (w % 2 ^ nbits))

end Sys2Proof.Machine
end

