-- ==== Sys2Proof/WellFormed.lean ====
section
/-! DEFINITION. Well-formedness. Every operand of `Instr` is a vector of its field's width, so every instruction
is encodable; `Instr.WellFormed` is what an assembler of 30_encoding.md R129 and 70_reset_and_hazards.md R402
would emit. `Pseudo.WellFormed` is the operand ranges of 47_pseudo.md, and `Config.WellFormed` what
00_scope.md R6 asks of the configuration record. Each is a decidable proposition. -/

namespace Sys2Proof

/-- R129: a branch offset is a multiple of 4. -/
abbrev Imm16.WordOffset (imm : Imm16) : Prop := imm.extractLsb' 0 2 = 0#2

/-- What the assembler emits: branch offsets are multiples of 4 (R129), and no `jmp r31` (R402). The decoder,
the meanings and the statements cover the other words too. -/
abbrev Instr.WellFormed (i : Instr) : Prop :=
  match i with
  | .br imm => imm.WordOffset
  | .beq _ _ imm => imm.WordOffset
  | .bne _ _ imm => imm.WordOffset
  | .bge _ _ imm => imm.WordOffset
  | .bgeu _ _ imm => imm.WordOffset
  | .blt _ _ imm => imm.WordOffset
  | .bltu _ _ imm => imm.WordOffset
  | .jmp a => a ≠ 31#5
  | _ => True

/-- The operand ranges of the pseudo-instructions (R316, R318, R320, R322, R324, R325, R327, R329), and branch
offsets as in R129. -/
abbrev Pseudo.WellFormed (p : Pseudo) : Prop :=
  match p with
  | .bgt _ _ imm => imm.WordOffset
  | .bgtu _ _ imm => imm.WordOffset
  | .ble _ _ imm => imm.WordOffset
  | .bleu _ _ imm => imm.WordOffset
  | .cmpgti _ _ m => -32769 ≤ m ∧ m ≤ 32766
  | .cmpgtui _ _ m => 0 ≤ m ∧ m ≤ 65534
  | .cmplei _ _ m => -32769 ≤ m ∧ m ≤ 32766
  | .cmpleui _ _ m => 0 ≤ m ∧ m ≤ 65534
  | .movhi _ m => 0 ≤ m ∧ m ≤ 65535
  | .movi _ m => -32768 ≤ m ∧ m ≤ 32767
  | .movui _ m => 0 ≤ m ∧ m ≤ 65535
  | .subi _ _ m => -32767 ≤ m ∧ m ≤ 32768
  | _ => True

/-- An address is a multiple of 4 (30_encoding.md R110). -/
abbrev Word.Aligned4 (w : Word) : Prop := w.extractLsb' 0 2 = 0#2

/-- What R6 asks of the record: word-aligned handler and reset addresses, distinct control register numbers,
distinct PIE and U bits outside an ordered PRS field, regions inside the 32-bit space, and caches no larger than
that space (log 24). -/
abbrev Config.WellFormed (c : Config) : Prop :=
  Word.Aligned4 c.exceptionAddr ∧ Word.Aligned4 c.breakAddr ∧ Word.Aligned4 c.resetAddr ∧
  c.ctlStatus ≠ c.ctlEstatus ∧ c.ctlStatus ≠ c.ctlBstatus ∧ c.ctlEstatus ≠ c.ctlBstatus ∧
  c.statusPieBit ≠ c.statusUBit ∧ c.statusPrsLo ≤ c.statusPrsHi ∧
  ¬ (c.statusPrsLo ≤ c.statusPieBit ∧ c.statusPieBit ≤ c.statusPrsHi) ∧
  ¬ (c.statusPrsLo ≤ c.statusUBit ∧ c.statusUBit ≤ c.statusPrsHi) ∧
  (∀ r ∈ c.regions, r.base + r.size ≤ 2 ^ 32) ∧
  c.dcacheLineLog + c.dcacheLinesLog ≤ 30 ∧ c.icacheLineLog + c.icacheLinesLog ≤ 30

end Sys2Proof
end

