-- ==== Sys2Proof/Machine/Pseudo.lean ====
section
/-! DEFINITION. The assembler's part of the spec: the expansions of the pseudo-instructions and the macros
(47_pseudo.md R310 to R336), and the offsets it computes for labels (30_encoding.md R127, R129). The processor
executes the expansion; a pseudo-instruction has no opcode and no meaning of its own. -/

namespace Sys2Proof.Machine

/-! ## Macros (47_pseudo.md R335, R336) -/

/-- `%lo(value)`: bits 15..0. -/
def loMacro (value : Word) : Imm16 := value.extractLsb' 0 16

/-- `%hi(value)`: bits 31..16. -/
def hiMacro (value : Word) : Imm16 := value.extractLsb' 16 16

/-- `%hiadj(value)`: bits 31..16 plus bit 15, modulo 2^16 (R336). -/
def hiadjMacro (value : Word) : Imm16 := value.extractLsb' 16 16 + (value.extractLsb' 15 1).setWidth 16

/-- `%gprel(value)`: the offset from the global pointer, the symbol `_gp` of the linker, as the 16 bits placed in IMM16.
DESIGN CHOICE: an offset that is no 16-bit value, signed or unsigned, has none; the spec is silent there (log 46). -/
def gprelMacro (gp value : Word) : Option Imm16 :=
  if -32768 ≤ (value - gp).toInt ∧ (value - gp).toInt ≤ 65535 then some (loMacro (value - gp)) else none

/-- The value a macro returns (R335): signed for an instruction with a signed immediate, else unsigned; the 16 bits placed
in IMM16 are the same. -/
def macroValue (signed : Bool) (placed : Imm16) : Int := if signed then placed.toInt else placed.toNat

/-! ## Labels (30_encoding.md R127, R129) -/

/-- The IMM16 of a branch at `pc` to a label, where the offset is a multiple of 4 in -32768..32767. -/
def branchOffset (pc label : Word) : Option Imm16 :=
  let offset := (label - (pc + 4#32)).toInt
  if -32768 ≤ offset ∧ offset ≤ 32767 ∧ (label - (pc + 4#32)).extractLsb' 0 2 = 0#2 then
    some (BitVec.ofInt 16 offset)
  else none

/-- The IMM26 of a `call` or `jmpi` at `pc` to a label, which must be word-aligned in the same 256-MB segment. -/
def segmentIndex (pc label : Word) : Option Imm26 :=
  if label.extractLsb' 28 4 = pc.extractLsb' 28 4 ∧ isAligned4 label then some (label.extractLsb' 2 26) else none

/-! ## Expansions (47_pseudo.md R330) -/

/-- The machine instructions of a pseudo-instruction: one, but for `movia` two (R326). -/
def expand (p : Pseudo) : List Instr :=
  match p with
  | .bgt a b imm => [.blt b a imm]
  | .bgtu a b imm => [.bltu b a imm]
  | .ble a b imm => [.bge b a imm]
  | .bleu a b imm => [.bgeu b a imm]
  | .cmpgt c a b => [.cmplt c b a]
  | .cmpgti b a m => [.cmpgei b a (BitVec.ofInt 16 (m + 1))]
  | .cmpgtu c a b => [.cmpltu c b a]
  | .cmpgtui b a m => [.cmpgeui b a (BitVec.ofInt 16 (m + 1))]
  | .cmple c a b => [.cmpge c b a]
  | .cmplei b a m => [.cmplti b a (BitVec.ofInt 16 (m + 1))]
  | .cmpleu c a b => [.cmpgeu c b a]
  | .cmpleui b a m => [.cmpltui b a (BitVec.ofInt 16 (m + 1))]
  | .mov c a => [.add c a 0#5]
  | .movhi b m => [.orhi b 0#5 (BitVec.ofInt 16 m)]
  | .movi b m => [.addi b 0#5 (BitVec.ofInt 16 m)]
  | .movia b label => [.orhi b 0#5 (hiadjMacro label), .addi b b (loMacro label)]
  | .movui b m => [.ori b 0#5 (BitVec.ofInt 16 m)]
  | .nop => [.add 0#5 0#5 0#5]
  | .subi b a m => [.addi b a (BitVec.ofInt 16 (-m))]

end Sys2Proof.Machine
end

