-- ==== Sys2Proof/Safety.lean ====
section
/-! DEFINITION. The terms the statements are made in: what an instruction leaves unchanged, what an exception entry
is, the forms of the loads and stores, the invariants of the state, and what a safe run is. -/

namespace Sys2Proof.Machine

/-! ## Outcomes -/

/-- The instruction answers a next state, and that state is as described. -/
def Completes (i : Instr) (s : State) (post : State → Prop) : Prop := ∃ t, exec i s = .next t ∧ post t

/-- A run of `k` steps with no stop. -/
def RunsSafely (k : Nat) (s : State) : Prop := ∃ t, Sys2Proof.core.run k s = .next t

/-! ## Frames -/

/-- Every byte reads as before: in memory, through the data cache, and by instruction fetch. -/
def SameMemory (s t : State) : Prop :=
  ∀ a : Word, t.memByte a = s.memByte a ∧ t.byteAt a = s.byteAt a ∧ t.codeByte a = s.codeByte a

/-- Every register of every set reads as before. -/
def SameRegisters (s t : State) : Prop := ∀ set x, t.regOf set x = s.regOf set x

/-- Register `r` of set `k` holds `v`, but for r0 of set 0, which discards it (10_state.md R33); every other register
of every set reads as before. -/
def RegisterBecomes (k : Nat) (r : Reg) (v : Word) (s t : State) : Prop :=
  ∀ set x, t.regOf set x = if set = k ∧ x = r ∧ ¬ (k = 0 ∧ r = 0#5) then v else s.regOf set x

/-- `x[r] <- v` and the advance to `pc + 4`, and nothing else. -/
def WritesRegister (r : Reg) (v : Word) (s t : State) : Prop :=
  t = { s with regs := t.regs, pc := s.pc + 4#32 } ∧ RegisterBecomes s.crs r v s t ∧ SameMemory s t

/-- A plain write to `r` has a meaning: not to r0 while a shadow set is current (R33). -/
def Writable (r : Reg) (s : State) : Prop := r ≠ 0#5 ∨ s.crs = 0

/-- The instruction completes with a register written and nothing else, and the value written is as described. -/
def Yields (i : Instr) (r : Reg) (s : State) (value : Word → Prop) : Prop :=
  ∃ v, value v ∧ Completes i s (WritesRegister r v s)

/-- `x[31] <- pc + 4` and control at `target`, and nothing else. -/
def LinksAndGoes (target : Word) (s t : State) : Prop :=
  t = { s with regs := t.regs, pc := target } ∧ RegisterBecomes s.crs 31#5 (s.pc + 4#32) s t ∧ SameMemory s t

/-- The general register an instruction names as its destination by a field of its word. -/
def destination (i : Instr) : Option Reg :=
  match i with
  | .add c _ _ | .sub c _ _ | .mul c _ _ | .mulxss c _ _ | .mulxsu c _ _ | .mulxuu c _ _ | .div c _ _ | .divu c _ _
  | .and c _ _ | .or c _ _ | .xor c _ _ | .nor c _ _ | .cmpeq c _ _ | .cmpne c _ _ | .cmpge c _ _ | .cmpgeu c _ _
  | .cmplt c _ _ | .cmpltu c _ _ | .rol c _ _ | .ror c _ _ | .sll c _ _ | .sra c _ _ | .srl c _ _ => some c
  | .roli c _ _ | .slli c _ _ | .srai c _ _ | .srli c _ _ | .nextpc c | .rdctl c _ => some c
  | .addi b _ _ | .muli b _ _ | .andi b _ _ | .andhi b _ _ | .ori b _ _ | .orhi b _ _ | .xori b _ _ | .xorhi b _ _
  | .cmpeqi b _ _ | .cmpnei b _ _ | .cmpgei b _ _ | .cmpgeui b _ _ | .cmplti b _ _ | .cmpltui b _ _
  | .rdprs b _ _ => some b
  | .ldb b _ _ | .ldbio b _ _ | .ldbu b _ _ | .ldbuio b _ _ | .ldh b _ _ | .ldhio b _ _ | .ldhu b _ _ | .ldhuio b _ _
  | .ldw b _ _ | .ldwio b _ _ => some b
  | .custom _ c _ _ _ _ true => some c
  | _ => none

/-! ## Exception entry (60_exceptions.md R350 to R352) -/

/-- A status value with PIE and U cleared and every other bit kept. -/
def ClearsPieAndU (c : Config) (before after : Word) : Prop :=
  ∀ j : Fin 32, after.getLsbD j.val = (before.getLsbD j.val && j != c.statusPieBit && j != c.statusUBit)

/-- The TLB misses (60_exceptions.md R342). -/
abbrev IsTlbMiss (e : Exception) : Prop :=
  e = .fastTlbMissData ∨ e = .doubleTlbMissData ∨ e = .fastTlbMissInstruction ∨ e = .doubleTlbMissInstruction

/-- Exception entry from `s` (R350, R351, R361): the state of the instruction's start but for `estatus`, PIE and U,
x[29], `pc`, and, with shadow sets and but for `trap`, the register set; there the set whose r29 holds `ea` is open too
(10_state.md R35; log 17), and each such entry but that of `trap` draws anew. The handler address is `EXCEPTION_ADDR`, but
for a TLB miss with an MMU, where it is some word-aligned address the open hook gives (log 16). -/
def EntersException (e : Exception) (s t : State) : Prop :=
  t = { s with
        regs := t.regs, crs := t.crs, pc := t.pc, status := t.status, estatus := s.status, draws := t.draws
        label := some e } ∧
  (if IsTlbMiss e ∧ s.cfg.hasMmu = true then Word.Aligned4 t.pc else t.pc = s.cfg.exceptionAddr) ∧
  (e = .trap ∨ s.cfg.numShadow = 0 → t.draws = s.draws) ∧
  ClearsPieAndU s.cfg s.status t.status ∧
  (t.crs = s.crs ∨ e ≠ .trap ∧ 0 < s.cfg.numShadow ∧ t.crs ≤ s.cfg.numShadow) ∧
  (∃ k, (k = s.crs ∨ e ≠ .trap ∧ 0 < s.cfg.numShadow ∧ k ≤ s.cfg.numShadow) ∧
    RegisterBecomes k 29#5 (s.pc + 4#32) s t) ∧
  SameMemory s t

/-- Break entry (R352). -/
def EntersBreak (s t : State) : Prop :=
  t = { s with
        regs := t.regs, pc := s.cfg.breakAddr, status := t.status, bstatus := s.status, label := some .breakpoint } ∧
  ClearsPieAndU s.cfg s.status t.status ∧ RegisterBecomes s.crs 30#5 (s.pc + 4#32) s t ∧ SameMemory s t

/-- The instruction transfers control to `target` where `condition` holds, with Misaligned destination address where
`target` is no multiple of 4, and else goes on at `pc + 4`; it changes nothing but `pc` (43_control_transfer.md R229). -/
def BranchesIf (condition : Prop) (target : Word) (i : Instr) (s : State) : Prop :=
  (condition → Word.Aligned4 target → exec i s = .next { s with pc := target }) ∧
  (condition → ¬ Word.Aligned4 target → ∃ t, exec i s = .next t ∧ EntersException .misalignedDestinationAddress s t) ∧
  (¬ condition → exec i s = .next { s with pc := s.pc + 4#32 })

/-! ## Loads and stores (44_load_store.md) -/

/-- The ten loads: constructor, path, width, and whether the value is sign-extended. -/
def loadForms : List ((Reg → Imm16 → Reg → Instr) × Path × Width × Bool) :=
  [(.ldb, .plain, .byte, true), (.ldbio, .io, .byte, true), (.ldbu, .plain, .byte, false), (.ldbuio, .io, .byte, false),
   (.ldh, .plain, .half, true), (.ldhio, .io, .half, true), (.ldhu, .plain, .half, false), (.ldhuio, .io, .half, false),
   (.ldw, .plain, .word, false), (.ldwio, .io, .word, false)]

/-- The six stores: constructor, path, width. -/
def storeForms : List ((Reg → Imm16 → Reg → Instr) × Path × Width) :=
  [(.stb, .plain, .byte), (.stbio, .io, .byte), (.sth, .plain, .half), (.sthio, .io, .half),
   (.stw, .plain, .word), (.stwio, .io, .word)]

/-- The number the bytes of an access spell, the byte at the lowest address first (20_memory.md R72). -/
def littleEndian (byteOf : Word → Byte) (w : Width) (a : Word) : Nat :=
  match w with
  | .byte => (byteOf a).toNat
  | .half => (byteOf a).toNat + 256 * (byteOf (a + 1#32)).toNat
  | .word => (byteOf a).toNat + 256 * (byteOf (a + 1#32)).toNat + 65536 * (byteOf (a + 2#32)).toNat +
      16777216 * (byteOf (a + 3#32)).toNat

/-- An access's number as a register holds it: zero-extended, or sign-extended from the access's width (R75). -/
def extended (signed : Bool) (w : Width) (n : Nat) : Word :=
  if signed then BitVec.ofInt 32 (BitVec.ofNat (8 * widthBytes w) n).toInt else BitVec.ofNat 32 n

/-- What a byte reads after a store of the low bytes of `v` at `a`, where it read `old` before. -/
def afterStore (w : Width) (a v : Word) (x : Word) (old : Byte) : Byte :=
  if (x - a).toNat < widthBytes w then BitVec.ofNat 8 (v.toNat / 256 ^ (x - a).toNat) else old

/-- The low bytes of a word, the ones a store moves. -/
def lowBytes (w : Width) (v : Word) : Word := BitVec.ofNat 32 (v.toNat % 256 ^ widthBytes w)

/-- One more transfer on the bus: completed, or pending on a core without in-order memory (R86, R87). -/
def OneTransfer (x : Transfer) (s t : State) : Prop :=
  if s.cfg.inOrderMemory then t.bus = x :: s.bus ∧ t.pending = s.pending
  else t.bus = s.bus ∧ t.pending = x :: s.pending

/-- The address stands in an aligned word that an access of this width at `a` touches. -/
abbrev SharesWord (w : Width) (a x : Word) : Prop :=
  x.toNat / 4 = a.toNat / 4 ∨ x.toNat / 4 = (a + BitVec.ofNat 32 (widthBytes w - 1)).toNat / 4

/-- The region of an address is memory (no peripheral) and admits a load, a store (R73). -/
def LoadMemory (c : Config) (a : Word) : Prop := ∃ r, regionOf c a = some r ∧ r.load = true ∧ r.peripheral = false
def StoreMemory (c : Config) (a : Word) : Prop := ∃ r, regionOf c a = some r ∧ r.store = true ∧ r.peripheral = false

/-! ## Invariants -/

/-- Every table of the state is in its canonical form. -/
abbrev State.Canonical (s : State) : Prop :=
  Sparse.Canonical 0#32 s.regs ∧ Memory.wf s.mem ∧ Sparse.Canonical DLine.empty s.dcache ∧
  Sparse.Canonical 0#8 s.dcacheData ∧ Sparse.Canonical ILine.empty s.icache ∧ Sparse.Canonical 0#8 s.icacheData ∧
  Sparse.Canonical HazardStage.fetchable s.hazard ∧ Sparse.Canonical ([] : List Word) s.custom

/-- The architectural invariant: `pc` is word-aligned (10_state.md R37); the register set exists (R35); `status`,
`estatus` and `bstatus` hold no bit software cannot write (R45); no register of a set that does not exist, nor r0 of set
0, is stored; with in-order memory no access is pending (20_memory.md R87). -/
abbrev State.Inv (s : State) : Prop :=
  s.cfg.WellFormed ∧ Word.Aligned4 s.pc ∧ s.crs ≤ s.cfg.numShadow ∧
  s.status &&& ~~~writableBits s.cfg = 0#32 ∧ s.estatus &&& ~~~writableBits s.cfg = 0#32 ∧
  s.bstatus &&& ~~~writableBits s.cfg = 0#32 ∧
  (∀ e ∈ s.regs, 0 < e.1 ∧ e.1 < 32 * (s.cfg.numShadow + 1)) ∧ (s.cfg.inOrderMemory = true → s.pending = [])

/-- Every valid data-cache line holds an address of the 32-bit space. -/
def TagsInRange (s : State) : Prop :=
  ∀ line < dcacheLines s.cfg, (s.dline line).valid = true →
    (s.dline line).tag * (dcacheLineBytes s.cfg * dcacheLines s.cfg) < 2 ^ 32

/-- A byte the data cache holds in a clean line reads as memory has it. -/
def CleanLinesCoherent (s : State) : Prop :=
  ∀ a : Word, s.dcacheHit a = true → (s.dline (dlineOf s.cfg a.toNat)).dirty = false → s.byteAt a = s.memByte a

/-- The data cache is sound (20_memory.md R84, R85). -/
def DcacheSound (s : State) : Prop := TagsInRange s ∧ CleanLinesCoherent s

end Sys2Proof.Machine
end

