-- ==== Sys2Proof/Certificates/Slice0/Obligations.lean ====
section
/-! DEFINITION. The statements for the provers. Each says which rule of spec/ it states, or rests on. A statement about
a result says that the instruction completes, what it writes and that it writes nothing else; `WritesRegister`,
`EntersException`, `BranchesIf` and the other frames are those of Safety.lean. -/

open Sys2Proof Sys2Proof.Machine

/-! ## Encoding (30_encoding.md) -/

/-- Words of the source's examples and of 95_test_vectors.md 1.3, 2.5, 2.8 decode to what they stand for; the eight
reserved words of 2.8 are refused; the two ignored fields of R122 are ignored. A sanity statement on fixed words. -/
def Obligations.SpecWordsDecode : Prop :=
  decode 0x3A0D883A#32 = .ok (.add 6 7 8) ∧ decode 0x39BFE704#32 = .ok (.addi 6 7 0xFF9C) ∧
  decode 0x380C90FA#32 = .ok (.slli 6 7 3) ∧ decode 0x31FFFB1E#32 = .ok (.bne 6 7 0xFFEC) ∧
  decode 0x00090000#32 = .ok (.call 0x2400) ∧ decode 0x00090001#32 = .ok (.jmpi 0x2400) ∧
  decode 0x29801917#32 = .ok (.ldw 6 100 5) ∧ decode 0x298000C5#32 = .ok (.stb 6 3 5) ∧
  decode 0x303FE73B#32 = .ok (.flushd 0xFF9C 6) ∧ decode 0x1801707A#32 = .ok (.wrctl 1 3) ∧
  decode 0x003B6FFA#32 = .ok (.trap 31) ∧ decode 0x28078032#32 = .ok (.custom 0 3 5 0 true true false) ∧
  decode 0xEF8A083A#32 = .ok .eret ∧ decode 0x3800203A#32 = .ok .flushp ∧ decode 0x00000000#32 = .ok (.call 0) ∧
  decode 0xFFFFFFFF#32 = .error .reservedOp ∧ decode 0x00000002#32 = .error .reservedOp ∧
  decode 0x0000003A#32 = .error .reservedOpx ∧ decode 0x0001887A#32 = .error .nonCanonical ∧
  decode 0x2800283A#32 = .error .nonCanonical ∧ decode 0x0040003B#32 = .error .nonCanonical ∧
  decode 0x0001B07A#32 = .error .nonCanonical ∧ decode 0x00400006#32 = .error .nonCanonical

/-- Decode and encode agree: every instruction, with every operand at every value of its field (R111 to R122). -/
def Obligations.DecodeOfEncode : Prop := ∀ i : Instr, decode (encode i) = .ok i

/-- Each word has one meaning: a word that decodes is the word of its instruction (R121), but for the two ignored fields,
bits 21..17 of `eret` and 31..27 of `flushp` (R122). -/
def Obligations.EncodeOfDecode : Prop :=
  ∀ (w : Word) (i : Instr), decode w = .ok i →
    (i ≠ .eret → i ≠ .flushp → encode i = w) ∧ (i = .eret → encode i = w &&& 0xFFC1FFFF#32) ∧
    (i = .flushp → encode i = w &&& 0x07FFFFFF#32)

/-! ## One step (20_memory.md R79, 30_encoding.md R117, 60_exceptions.md R354) -/

/-- Where the four bytes fetched at `pc` spell an instruction, a step is its meaning, run in the state after the fetch (R79,
R117). That state is the model's own part: the environment's interrupt value used up (log 20), no label (log 21), and, only
on a miss of an instruction cache, either the cache unchanged or the line of the address valid, with its tag and memory's
bytes, every other line as before, which of the two being the model's free choice (log 14). An instruction that raises an
exception leaves the instruction cache as it was before the fetch (R353). -/
def Obligations.StepRunsDecoded : Prop :=
  ∀ (s : State) (pa w : Word) (r : Region) (i : Instr),
    s.interrupted = false → s.fetchAddress = .ok pa → regionOf s.cfg pa = some r → r.fetch = true →
    (∀ k : Fin 4, s.hazardAt (pa + BitVec.ofNat 32 k.val) = .fetchable) →
    w = BitVec.ofNat 32 (littleEndian s.codeByte .word pa) → decode w = .ok i →
    ∃ u,
      (match exec i u with
        | .next t => step s =
            .next (if t.label = none then t else { t with icache := s.icache, icacheData := s.icacheData })
        | stop => step s = stop) ∧
      u = { s with
            irq := s.irq.tail, label := none, icache := u.icache, icacheData := u.icacheData, draws := u.draws } ∧
      (s.cfg.hasIcache = false ∨ s.icacheHit pa = true → u = { s with irq := s.irq.tail, label := none }) ∧
      (s.cfg.hasIcache = true → s.icacheHit pa = false →
        (u.icache = s.icache ∧ u.icacheData = s.icacheData) ∨
        ((∀ line, u.iline line =
            if line = ilineOf s.cfg pa.toNat then { valid := true, tag := itagOf s.cfg pa.toNat } else s.iline line) ∧
          ∀ x, u.codeByte x = if ilineOf s.cfg x.toNat = ilineOf s.cfg pa.toNat then s.memByte x else s.codeByte x)) ∧
      (s.cfg.hasMmu = false → s.cfg.hasMpu = false → pa = s.pc)

/-- A reserved word raises Illegal instruction or stops the model, by `ILLEGAL_EXC`; it is never some other instruction
(R124). The exception leaves both caches as they were before the fetch (R353); only the model's counter of free values may
have moved on (log 14). -/
def Obligations.ReservedWordsTrapOrStop : Prop :=
  ∀ (s : State) (pa w : Word) (r : Region) (why : DecodeReject),
    s.interrupted = false → s.fetchAddress = .ok pa → regionOf s.cfg pa = some r → r.fetch = true →
    (∀ k : Fin 4, s.hazardAt (pa + BitVec.ofNat 32 k.val) = .fetchable) →
    w = BitVec.ofNat 32 (littleEndian s.codeByte .word pa) → decode w = .error why →
    (s.cfg.illegalExc = true → ∃ u t, step s = .next t ∧ EntersException .illegalInstruction u t ∧
      u = { s with irq := s.irq.tail, label := none, draws := u.draws }) ∧
    (s.cfg.illegalExc = false → step s = .fault .reservedEncoding)

/-- Interrupt entry (R361): with `irq_pending` and PIE the step is the entry, the instruction at `pc` does not execute,
and PIE is 0 afterwards. The saved address `pc + 4` is general knowledge of the family (log 30), and with shadow sets the
set written and the set current afterwards are free (log 17). -/
def Obligations.InterruptEntry : Prop :=
  ∀ s : State, s.irq.head? = some true → s.status.getLsbD s.cfg.statusPieBit.val = true →
    ∃ t, step s = .next t ∧ EntersException .interrupt { s with irq := s.irq.tail, label := none } t ∧
      t.status.getLsbD s.cfg.statusPieBit.val = false

/-- "An interrupt is taken exactly when `irq_pending` and `status.PIE` = 1" (R360), whatever the instruction. -/
def Obligations.InterruptExactlyWhen : Prop :=
  ∀ s t : State, step s = .next t →
    (t.label = some .interrupt ↔ s.irq.head? = some true ∧ s.status.getLsbD s.cfg.statusPieBit.val = true)

/-- Where a fetch is not admitted: the five fetch exceptions (R343), an address that is not instruction memory (R73) and
bytes modified and not yet made fetchable (R89). -/
def Obligations.FetchStops : Prop :=
  ∀ s : State, s.interrupted = false →
    (s.cfg.hasMmu = true ∨ s.cfg.hasMpu = true →
      match Config.protectFetch s.cfg s.pc s.userMode with
      | .error v => ∃ t, step s = .next t ∧
          EntersException (fetchException v) { s with irq := s.irq.tail, label := none } t
      | .ok pa => s.fetchAddress = .ok pa) ∧
    (∀ pa, s.fetchAddress = .ok pa → (∀ r, regionOf s.cfg pa = some r → r.fetch = false) →
      step s = .fault .outsideMemoryMap) ∧
    (∀ pa r, s.fetchAddress = .ok pa → regionOf s.cfg pa = some r → r.fetch = true →
      (∃ k : Fin 4, s.hazardAt (pa + BitVec.ofNat 32 k.val) ≠ .fetchable) → step s = .fault .fetchOfModifiedMemory)

/-! ## Registers (10_state.md R33) -/

/-- r0: in set 0 it reads 0 and discards what is written; in a shadow set it holds what is written (R33). -/
def Obligations.RegisterZero : Prop :=
  ∀ (s : State) (v : Word), s.regOf 0 0#5 = 0#32 ∧ s.setRegOf 0 0#5 v = s ∧
    ∀ set, set ≠ 0 → (s.setRegOf set 0#5 v).regOf set 0#5 = v

/-- An instruction whose destination field names r0 while a shadow set is current never completes with a write: it
enters an exception or stops, and the plain ones stop with the fault of R33. -/
def Obligations.ShadowR0NeverWritten : Prop :=
  ∀ s : State, s.crs ≠ 0 →
    (∀ (i : Instr) (t : State), destination i = some 0#5 → exec i s = .next t → ∃ e, EntersException e s t) ∧
    (∀ (a b : Reg) (imm : Imm16) (n : Imm5), ∀ i ∈
      [Instr.add 0 a b, .addi 0 a imm, .sub 0 a b, .and 0 a b, .andi 0 a imm, .andhi 0 a imm, .or 0 a b, .ori 0 a imm,
       .orhi 0 a imm, .xor 0 a b, .xori 0 a imm, .xorhi 0 a imm, .nor 0 a b, .cmpeq 0 a b, .cmpeqi 0 a imm, .cmpne 0 a b,
       .cmpnei 0 a imm, .cmpge 0 a b, .cmpgei 0 a imm, .cmpgeu 0 a b, .cmpgeui 0 a imm, .cmplt 0 a b, .cmplti 0 a imm,
       .cmpltu 0 a b, .cmpltui 0 a imm, .rol 0 a b, .roli 0 a n, .ror 0 a b, .sll 0 a b, .slli 0 a n, .sra 0 a b,
       .srai 0 a n, .srl 0 a b, .srli 0 a n, .nextpc 0], exec i s = .fault .writeR0InShadowSet)

/-! ## Arithmetic and logic (40_arith_logic.md) -/

/-- `add`, `addi`, `sub`: the sum or difference modulo 2^32 (R151, R152, R153). -/
def Obligations.AddSubResults : Prop :=
  ∀ (s : State) (c a b : Reg) (imm : Imm16), Writable c s →
    Yields (.add c a b) c s (fun v => v.toNat = ((s.reg a).toNat + (s.reg b).toNat) % 2 ^ 32) ∧
    Yields (.addi c a imm) c s (fun v => v = BitVec.ofInt 32 ((s.reg a).toInt + imm.toInt)) ∧
    Yields (.sub c a b) c s (fun v => v = BitVec.ofInt 32 ((s.reg a).toInt - (s.reg b).toInt))

/-- `mul`, `muli`: the 32 low bits of the product, the same for signed and unsigned operands (R154, R155). -/
def Obligations.MulLowResults : Prop :=
  ∀ (s : State) (c a b : Reg) (imm : Imm16), Writable c s →
    (s.cfg.implMul = true → Yields (.mul c a b) c s (fun v =>
      v.toNat = (s.reg a).toNat * (s.reg b).toNat % 2 ^ 32 ∧
      v = BitVec.ofInt 32 ((s.reg a).toInt * (s.reg b).toInt))) ∧
    (s.cfg.implMuli = true → Yields (.muli c a imm) c s (fun v => v = BitVec.ofInt 32 ((s.reg a).toInt * imm.toInt)))

/-- `mulxss`, `mulxsu`, `mulxuu`: the 32 high bits of the 64-bit product of the operands taken signed or unsigned (R156,
R157, R158). -/
def Obligations.MulHighResults : Prop :=
  ∀ (s : State) (c a b : Reg), Writable c s →
    (s.cfg.implMulxss = true → Yields (.mulxss c a b) c s (fun v =>
      v.toInt = (s.reg a).toInt * (s.reg b).toInt / 2 ^ 32)) ∧
    (s.cfg.implMulxsu = true → Yields (.mulxsu c a b) c s (fun v =>
      v.toInt = (s.reg a).toInt * ((s.reg b).toNat : Int) / 2 ^ 32)) ∧
    (s.cfg.implMulxuu = true → Yields (.mulxuu c a b) c s (fun v =>
      v.toNat = (s.reg a).toNat * (s.reg b).toNat / 2 ^ 32))

/-- `div`, `divu`: where the quotient is defined it is the quotient truncated toward zero (R159, R160). -/
def Obligations.DivisionResults : Prop :=
  ∀ (s : State) (c a b : Reg), Writable c s → s.reg b ≠ 0#32 →
    (s.cfg.implDiv = true → ¬ ((s.reg a).toInt = -2 ^ 31 ∧ (s.reg b).toInt = -1) →
      Yields (.div c a b) c s (fun v => v.toInt = (s.reg a).toInt.tdiv (s.reg b).toInt)) ∧
    (s.cfg.implDivu = true → Yields (.divu c a b) c s (fun v => v.toNat = (s.reg a).toNat / (s.reg b).toNat))

/-- A division whose quotient is undefined goes on with some value in its destination, of which nothing is said, where
`DIV_ERROR_EXC` is false, and raises Division error, writing nothing, where it is true (R173, R347). -/
def Obligations.UndefinedDivision : Prop :=
  ∀ (s : State) (c a b : Reg),
    (∀ i, (i = Instr.div c a b ∧ s.cfg.implDiv = true ∧
          (s.reg b = 0#32 ∨ (s.reg a).toInt = -2 ^ 31 ∧ (s.reg b).toInt = -1)) ∨
        (i = Instr.divu c a b ∧ s.cfg.implDivu = true ∧ s.reg b = 0#32) →
      (s.cfg.divErrorExc = false → Writable c s →
        ∃ v, Completes i s (WritesRegister c v { s with draws := s.draws + 1 })) ∧
      (s.cfg.divErrorExc = true → Completes i s (EntersException .divisionError s)))

/-- An optional instruction the core does not implement raises Unimplemented instruction, before its operands are
looked at, whatever they hold (R171, R268, R346). The entry is that of R350, whose saved address `pc + 4` is general
knowledge of the family (log 30) and whose register sets, with shadow sets, are free (log 17). -/
def Obligations.UnimplementedRaises : Prop :=
  ∀ (s : State) (c a b : Reg) (imm : Imm16),
    ∀ p ∈ [(s.cfg.implMul, Instr.mul c a b), (s.cfg.implMuli, .muli c a imm), (s.cfg.implMulxss, .mulxss c a b),
        (s.cfg.implMulxsu, .mulxsu c a b), (s.cfg.implMulxuu, .mulxuu c a b), (s.cfg.implDiv, .div c a b),
        (s.cfg.implDivu, .divu c a b), (s.cfg.implInitda, .initda imm a)],
      p.1 = false → Completes p.2 s (EntersException .unimplementedInstruction s)

/-- The ten logical instructions, bit by bit: the immediate forms take IMM16 in the low half or the high half with zeros
in the other (R161 to R170). -/
def Obligations.LogicalResults : Prop :=
  ∀ (s : State) (c a b : Reg) (imm : Imm16), Writable c s →
    ∀ p ∈ [(Instr.and c a b, fun j => (s.reg a).getLsbD j && (s.reg b).getLsbD j),
        (.or c a b, fun j => (s.reg a).getLsbD j || (s.reg b).getLsbD j),
        (.xor c a b, fun j => (s.reg a).getLsbD j != (s.reg b).getLsbD j),
        (.nor c a b, fun j => !((s.reg a).getLsbD j || (s.reg b).getLsbD j)),
        (.andi c a imm, fun j => (s.reg a).getLsbD j && imm.getLsbD j),
        (.ori c a imm, fun j => (s.reg a).getLsbD j || imm.getLsbD j),
        (.xori c a imm, fun j => (s.reg a).getLsbD j != imm.getLsbD j),
        (.andhi c a imm, fun j => (s.reg a).getLsbD j && (decide (16 ≤ j) && imm.getLsbD (j - 16))),
        (.orhi c a imm, fun j => (s.reg a).getLsbD j || (decide (16 ≤ j) && imm.getLsbD (j - 16))),
        (.xorhi c a imm, fun j => (s.reg a).getLsbD j != (decide (16 ≤ j) && imm.getLsbD (j - 16)))],
      Yields p.1 c s (fun v => ∀ j < 32, v.getLsbD j = p.2 j)

/-- The carry idiom of R172: after `add rC, rA, rB`, `cmpltu rD, rC, rA` writes the carry bit to rD. -/
def Obligations.CarryIdiom : Prop :=
  ∀ (s : State) (c d a b : Reg), c ≠ 0#5 → d ≠ 0#5 → c ≠ a → d ≠ c →
    ∃ t u, exec (.add c a b) s = .next t ∧ exec (.cmpltu d c a) t = .next u ∧
      (u.reg d).toNat * 2 ^ 32 + (u.reg c).toNat = (s.reg a).toNat + (s.reg b).toNat

/-- The overflow idiom of R172: after `mul`, `mulxuu rD, rA, rB` and `cmpne rD, rD, r0` write 1 to rD where the unsigned
product does not fit a word, else 0. -/
def Obligations.MulCarryIdiom : Prop :=
  ∀ (s : State) (d a b : Reg), s.cfg.implMulxuu = true → d ≠ 0#5 → s.crs = 0 →
    ∃ t u, exec (.mulxuu d a b) s = .next t ∧ exec (.cmpne d d 0#5) t = .next u ∧
      u.reg d = if 2 ^ 32 ≤ (s.reg a).toNat * (s.reg b).toNat then 1#32 else 0#32

/-- The remainder idiom of R172: `div rC, rA, rB`, `mul rD, rC, rB`, `sub rD, rA, rD` leave in rD the remainder of the
truncating division, where the division is defined. -/
def Obligations.RemainderIdiom : Prop :=
  ∀ (s : State) (c d a b : Reg), s.cfg.implDiv = true → s.cfg.implMul = true → c ≠ 0#5 → d ≠ 0#5 → c ≠ a → c ≠ b →
    d ≠ a → s.reg b ≠ 0#32 → ¬ ((s.reg a).toInt = -2 ^ 31 ∧ (s.reg b).toInt = -1) →
    ∃ t u v, exec (.div c a b) s = .next t ∧ exec (.mul d c b) t = .next u ∧ exec (.sub d a d) u = .next v ∧
      (v.reg d).toInt = (s.reg a).toInt.tmod (s.reg b).toInt

/-! ## Comparison, shift, rotate (41_compare.md, 42_shift_rotate.md) -/

/-- The twelve comparisons write 1 or 0 (R180 to R193): signed and unsigned, the immediate sign-extended but for the
two unsigned ones. -/
def Obligations.ComparisonResults : Prop :=
  ∀ (s : State) (c a b : Reg) (imm : Imm16), Writable c s →
    Yields (.cmpeq c a b) c s (fun v => v = if s.reg a = s.reg b then 1#32 else 0#32) ∧
    Yields (.cmpeqi c a imm) c s (fun v => v = if (s.reg a).toInt = imm.toInt then 1#32 else 0#32) ∧
    Yields (.cmpne c a b) c s (fun v => v = if s.reg a = s.reg b then 0#32 else 1#32) ∧
    Yields (.cmpnei c a imm) c s (fun v => v = if (s.reg a).toInt = imm.toInt then 0#32 else 1#32) ∧
    Yields (.cmpge c a b) c s (fun v => v = if (s.reg b).toInt ≤ (s.reg a).toInt then 1#32 else 0#32) ∧
    Yields (.cmpgei c a imm) c s (fun v => v = if imm.toInt ≤ (s.reg a).toInt then 1#32 else 0#32) ∧
    Yields (.cmpgeu c a b) c s (fun v => v = if (s.reg b).toNat ≤ (s.reg a).toNat then 1#32 else 0#32) ∧
    Yields (.cmpgeui c a imm) c s (fun v => v = if imm.toNat ≤ (s.reg a).toNat then 1#32 else 0#32) ∧
    Yields (.cmplt c a b) c s (fun v => v = if (s.reg a).toInt < (s.reg b).toInt then 1#32 else 0#32) ∧
    Yields (.cmplti c a imm) c s (fun v => v = if (s.reg a).toInt < imm.toInt then 1#32 else 0#32) ∧
    Yields (.cmpltu c a b) c s (fun v => v = if (s.reg a).toNat < (s.reg b).toNat then 1#32 else 0#32) ∧
    Yields (.cmpltui c a imm) c s (fun v => v = if (s.reg a).toNat < imm.toNat then 1#32 else 0#32)

/-- The shifts as arithmetic, by the low five bits of x[B] or by IMM5: `sll`, `slli` multiply by 2^n, `srl`, `srli`
divide the unsigned and `sra`, `srai` the signed value by 2^n, rounding down (R204 to R209). -/
def Obligations.ShiftResults : Prop :=
  ∀ (s : State) (c a b : Reg) (m : Imm5), Writable c s →
    ∀ p ∈ [(Instr.sll c a b, Instr.srl c a b, Instr.sra c a b, (s.reg b).toNat % 32),
        (.slli c a m, .srli c a m, .srai c a m, m.toNat)],
      Yields p.1 c s (fun v => v.toNat = (s.reg a).toNat * 2 ^ p.2.2.2 % 2 ^ 32) ∧
      Yields p.2.1 c s (fun v => v.toNat = (s.reg a).toNat / 2 ^ p.2.2.2) ∧
      Yields p.2.2.1 c s (fun v => v.toInt = (s.reg a).toInt / 2 ^ p.2.2.2)

/-- The rotates, bit by bit (R201, R202, R203). -/
def Obligations.RotateResults : Prop :=
  ∀ (s : State) (c a b : Reg) (m : Imm5), Writable c s →
    Yields (.rol c a b) c s (fun v => ∀ j < 32,
      v.getLsbD ((j + (s.reg b).toNat % 32) % 32) = (s.reg a).getLsbD j) ∧
    Yields (.roli c a m) c s (fun v => ∀ j < 32, v.getLsbD ((j + m.toNat) % 32) = (s.reg a).getLsbD j) ∧
    Yields (.ror c a b) c s (fun v => ∀ j < 32,
      v.getLsbD j = (s.reg a).getLsbD ((j + (s.reg b).toNat % 32) % 32))

/-! ## Control transfer (43_control_transfer.md) -/

/-- The seven branches: taken exactly on their condition, to `pc + 4 + sext_32(IMM16)`; misaligned targets raise only
when taken (R215 to R222, R229). -/
def Obligations.BranchResults : Prop :=
  ∀ (s : State) (a b : Reg) (imm : Imm16) (target : Word),
    target = BitVec.ofInt 32 ((s.pc.toNat : Int) + 4 + imm.toInt) →
    BranchesIf True target (.br imm) s ∧
    BranchesIf (s.reg a = s.reg b) target (.beq a b imm) s ∧
    BranchesIf (s.reg a ≠ s.reg b) target (.bne a b imm) s ∧
    BranchesIf ((s.reg b).toInt ≤ (s.reg a).toInt) target (.bge a b imm) s ∧
    BranchesIf ((s.reg b).toNat ≤ (s.reg a).toNat) target (.bgeu a b imm) s ∧
    BranchesIf ((s.reg a).toInt < (s.reg b).toInt) target (.blt a b imm) s ∧
    BranchesIf ((s.reg a).toNat < (s.reg b).toNat) target (.bltu a b imm) s

/-- `call`, `callr`, `jmp`, `jmpi`, `ret`, `nextpc`: `call` and `jmpi` stay in the 256-MB segment of `pc`, `callr r31` jumps
to the old x[31] (R223 to R228); `jmp r31`, illegal with no exception named, stops whatever r31 holds (R402). -/
def Obligations.JumpResults : Prop :=
  ∀ (s : State) (a c : Reg) (imm : Imm26),
    Completes (.call imm) s
      (LinksAndGoes (BitVec.ofNat 32 (s.pc.toNat / 2 ^ 28 * 2 ^ 28 + imm.toNat * 4)) s) ∧
    exec (.jmpi imm) s = .next { s with pc := BitVec.ofNat 32 (s.pc.toNat / 2 ^ 28 * 2 ^ 28 + imm.toNat * 4) } ∧
    (4 ∣ (s.reg a).toNat → Completes (.callr a) s (LinksAndGoes (s.reg a) s)) ∧
    (4 ∣ (s.reg a).toNat → a ≠ 31#5 → exec (.jmp a) s = .next { s with pc := s.reg a }) ∧
    (4 ∣ (s.reg 31#5).toNat → exec .ret s = .next { s with pc := s.reg 31#5 }) ∧
    (Writable c s → Yields (.nextpc c) c s (fun v => v = s.pc + 4#32)) ∧
    exec (.jmp 31#5) s = .fault .jmpR31

/-- Misaligned destination address (R349): raised by the transferring instruction, which writes nothing, by a taken
branch whose target is misaligned and by `callr`, `jmp`, `ret`, `eret`, `bret` whose register is no multiple of 4. -/
def Obligations.MisalignedDestinationRaises : Prop :=
  ∀ (s : State) (a b : Reg) (imm : Imm16), s.pc.toNat % 4 = 0 →
    (imm.toNat % 4 ≠ 0 →
      ∀ p ∈ [(True, Instr.br imm), (s.reg a = s.reg b, .beq a b imm), (s.reg a ≠ s.reg b, .bne a b imm),
          ((s.reg b).toInt ≤ (s.reg a).toInt, .bge a b imm), ((s.reg b).toNat ≤ (s.reg a).toNat, .bgeu a b imm),
          ((s.reg a).toInt < (s.reg b).toInt, .blt a b imm), ((s.reg a).toNat < (s.reg b).toNat, .bltu a b imm)],
        p.1 → Completes p.2 s (EntersException .misalignedDestinationAddress s)) ∧
    (¬ 4 ∣ (s.reg a).toNat → Completes (.callr a) s (EntersException .misalignedDestinationAddress s) ∧
      (a ≠ 31#5 → Completes (.jmp a) s (EntersException .misalignedDestinationAddress s))) ∧
    (¬ 4 ∣ (s.reg 31#5).toNat → Completes .ret s (EntersException .misalignedDestinationAddress s)) ∧
    (s.userMode = false → ¬ 4 ∣ (s.reg 29#5).toNat →
      Completes .eret s (EntersException .misalignedDestinationAddress s)) ∧
    (s.userMode = false → ¬ 4 ∣ (s.reg 30#5).toNat →
      Completes .bret s (EntersException .misalignedDestinationAddress s))

/-! ## Load and store (44_load_store.md, 20_memory.md) -/

/-- A load that goes to memory, an `io` one past the data cache or any one without it: the bytes of memory, little-endian,
sign- or zero-extended; one transfer on the bus; nothing else (R72, R75, R76, R80, R240 to R250). -/
def Obligations.LoadsFromMemory : Prop :=
  ∀ (con : Reg → Imm16 → Reg → Instr) (path : Path) (w : Width) (signed : Bool), (con, path, w, signed) ∈ loadForms →
    ∀ (s : State) (b a : Reg) (imm : Imm16) (ea pa : Word),
      ea = BitVec.ofInt 32 ((s.reg a).toInt + imm.toInt) → widthBytes w ∣ ea.toNat → s.protectData .read ea = .ok pa →
      LoadMemory s.cfg pa → (s.cfg.hasDcache = false ∨ path = .io ∧ s.dcacheHit pa = false) → Writable b s →
      Completes (con b imm a) s (fun t =>
        t = { s with regs := t.regs, pc := s.pc + 4#32, bus := t.bus, pending := t.pending } ∧
        RegisterBecomes s.crs b (extended signed w (littleEndian s.memByte w pa)) s t ∧
        OneTransfer (.load pa (widthBytes w)) s t ∧ SameMemory s t)

/-- A plain load with a data cache: the bytes the processor sees, little-endian, extended; it sees every byte as before,
whether the access hits, misses or allocates; a hit changes nothing but the register and `pc` (R85, R86). -/
def Obligations.LoadsThroughCache : Prop :=
  ∀ (con : Reg → Imm16 → Reg → Instr) (w : Width) (signed : Bool), (con, Path.plain, w, signed) ∈ loadForms →
    ∀ (s : State) (b a : Reg) (imm : Imm16) (ea pa : Word), s.cfg.WellFormed → DcacheSound s →
      ea = BitVec.ofInt 32 ((s.reg a).toInt + imm.toInt) → widthBytes w ∣ ea.toNat → s.protectData .read ea = .ok pa →
      LoadMemory s.cfg pa → s.cfg.hasDcache = true → Writable b s →
      Completes (con b imm a) s (fun t =>
        t = { s with
              regs := t.regs, pc := s.pc + 4#32, mem := t.mem, dcache := t.dcache, dcacheData := t.dcacheData
              bus := t.bus, pending := t.pending, draws := t.draws } ∧
        RegisterBecomes s.crs b (extended signed w (littleEndian s.byteAt w pa)) s t ∧
        (∀ x, t.byteAt x = s.byteAt x) ∧
        (s.dcacheHit pa = true → t = { s with regs := t.regs, pc := s.pc + 4#32 }))

/-- A store that goes to memory: the low bytes of x[B], little-endian, at the effective address; every other byte of
memory as before; one transfer; the word stored to is not fetchable until the sequence of R89; nothing else (R77, R80,
R251 to R256). -/
def Obligations.StoresToMemory : Prop :=
  ∀ (con : Reg → Imm16 → Reg → Instr) (path : Path) (w : Width), (con, path, w) ∈ storeForms →
    ∀ (s : State) (b a : Reg) (imm : Imm16) (ea pa : Word),
      ea = BitVec.ofInt 32 ((s.reg a).toInt + imm.toInt) → widthBytes w ∣ ea.toNat → s.protectData .write ea = .ok pa →
      StoreMemory s.cfg pa → (s.cfg.hasDcache = false ∨ path = .io ∧ s.dcacheHit pa = false) →
      Completes (con b imm a) s (fun t =>
        t = { s with pc := s.pc + 4#32, mem := t.mem, hazard := t.hazard, bus := t.bus, pending := t.pending } ∧
        (∀ x, t.memByte x = afterStore w pa (s.reg b) x (s.memByte x)) ∧
        (widthBytes w ∣ pa.toNat → ∀ x, t.byteAt x = afterStore w pa (s.reg b) x (s.byteAt x)) ∧
        OneTransfer (.store pa (widthBytes w) (lowBytes w (s.reg b))) s t ∧
        (∀ x, t.hazardAt x = if SharesWord w pa x then
          (if s.cfg.hasIcache then .needsInvalidate else .needsFlushPipeline) else s.hazardAt x))

/-- A plain store with a data cache: the processor sees the stored bytes at the effective address and every other byte
as before, whether the access hits, misses or allocates; on a hit memory and the bus see nothing (R77, R85, R86). -/
def Obligations.StoresThroughCache : Prop :=
  ∀ (con : Reg → Imm16 → Reg → Instr) (w : Width), (con, Path.plain, w) ∈ storeForms →
    ∀ (s : State) (b a : Reg) (imm : Imm16) (ea pa : Word), s.cfg.WellFormed → DcacheSound s →
      ea = BitVec.ofInt 32 ((s.reg a).toInt + imm.toInt) → widthBytes w ∣ ea.toNat → s.protectData .write ea = .ok pa →
      StoreMemory s.cfg pa → s.cfg.hasDcache = true →
      Completes (con b imm a) s (fun t =>
        t = { s with
              pc := s.pc + 4#32, mem := t.mem, dcache := t.dcache, dcacheData := t.dcacheData, hazard := t.hazard
              bus := t.bus, pending := t.pending, draws := t.draws } ∧
        (∀ x, t.byteAt x = afterStore w pa (s.reg b) x (s.byteAt x)) ∧
        (∀ x, t.hazardAt x = if SharesWord w pa x then .needsWriteBack else s.hazardAt x) ∧
        (s.dcacheHit pa = true → widthBytes w ∣ pa.toNat →
          t.mem = s.mem ∧ t.bus = s.bus ∧ t.pending = s.pending ∧
          (t.dline (dlineOf s.cfg pa.toNat)).dirty = true))

/-- A misaligned halfword or word access raises Misaligned data address where `MISALIGNED_DATA_EXC` is true, writing
nothing, and is undefined where it is false: the model stops (R348, R78). -/
def Obligations.MisalignedDataRaisesOrStops : Prop :=
  ∀ (s : State) (b a : Reg) (imm : Imm16) (ea : Word), ea = BitVec.ofInt 32 ((s.reg a).toInt + imm.toInt) →
    ∀ (i : Instr) (w : Width) (kind : AccessKind),
      (∃ con path signed, (con, path, w, signed) ∈ loadForms ∧ i = con b imm a ∧ kind = .read) ∨
      (∃ con path, (con, path, w) ∈ storeForms ∧ i = con b imm a ∧ kind = .write) →
      ¬ widthBytes w ∣ ea.toNat → s.protectData kind ea ≠ .error .supervisorOnlyDataAddress →
      (s.cfg.misalignedDataExc = true → Completes i s (EntersException .misalignedDataAddress s)) ∧
      (s.cfg.misalignedDataExc = false → exec i s = .fault .misalignedDataAddress)

/-- The data-address exceptions are what `protect` answers, Supervisor-only data address before misalignment and the
others after it; without an MMU and an MPU `protect` answers the address itself (R83, R354, R355). -/
def Obligations.ProtectedAccessRaises : Prop :=
  ∀ (s : State) (b a : Reg) (imm : Imm16) (ea : Word), ea = BitVec.ofInt 32 ((s.reg a).toInt + imm.toInt) →
    (s.cfg.hasMmu = false → s.cfg.hasMpu = false →
      (∀ kind, s.protectData kind ea = .ok ea) ∧ s.cacheOpAddress ea = .ok ea) ∧
    (s.cfg.hasMmu = true ∨ s.cfg.hasMpu = true →
      (∀ (i : Instr) (w : Width) (kind : AccessKind),
        (∃ con path signed, (con, path, w, signed) ∈ loadForms ∧ i = con b imm a ∧ kind = .read) ∨
        (∃ con path, (con, path, w) ∈ storeForms ∧ i = con b imm a ∧ kind = .write) →
        match Config.protectData s.cfg kind ea s.userMode with
        | .error v => v = .supervisorOnlyDataAddress ∨ widthBytes w ∣ ea.toNat →
            Completes i s (EntersException (dataException kind v) s)
        | .ok pa => s.protectData kind ea = .ok pa) ∧
      (match Config.protectCacheOp s.cfg ea s.userMode with
        | .error v => Completes (.flushda imm a) s (EntersException (cacheOpException v) s) ∧
            (s.cfg.implInitda = true → Completes (.initda imm a) s (EntersException (cacheOpException v) s))
        | .ok pa => s.cacheOpAddress ea = .ok pa))

/-- Accesses the platform or the cache rules do not admit stop: outside the memory map (R73), a plain access to a
peripheral with a data cache (R81), an `io` access to an address the data cache holds (R80). -/
def Obligations.InadmissibleAccessStops : Prop :=
  ∀ (s : State) (b a : Reg) (imm : Imm16) (ea pa : Word), ea = BitVec.ofInt 32 ((s.reg a).toInt + imm.toInt) →
    ∀ (i : Instr) (w : Width) (path : Path) (kind : AccessKind) (admits : Region → Bool),
      (∃ con signed, (con, path, w, signed) ∈ loadForms ∧ i = con b imm a ∧ kind = .read ∧ admits = Region.load) ∨
      (∃ con, (con, path, w) ∈ storeForms ∧ i = con b imm a ∧ kind = .write ∧ admits = Region.store) →
      widthBytes w ∣ ea.toNat → s.protectData kind ea = .ok pa →
      ((∀ r, regionOf s.cfg pa = some r → admits r = false) → exec i s = .fault .outsideMemoryMap) ∧
      (∀ r, regionOf s.cfg pa = some r → admits r = true →
        (r.peripheral = true → s.cfg.hasDcache = true → path = .plain →
          exec i s = .fault .plainAccessToPeripheral) ∧
        (s.dcacheHit pa = true → path = .io → exec i s = .fault .ioAccessToCachedAddress))

/-- An access to a peripheral is one transfer on the bus; a load's value is the platform's, any number of the access's
width; memory and the caches are untouched (R76, R77, R80, R81). -/
def Obligations.PeripheralAccess : Prop :=
  ∀ (s : State) (b a : Reg) (imm : Imm16) (ea pa : Word) (r : Region) (path : Path) (w : Width),
    ea = BitVec.ofInt 32 ((s.reg a).toInt + imm.toInt) → widthBytes w ∣ ea.toNat → regionOf s.cfg pa = some r →
    r.peripheral = true → (s.cfg.hasDcache = false ∨ path = .io ∧ s.dcacheHit pa = false) →
    (∀ con signed, (con, path, w, signed) ∈ loadForms → s.protectData .read ea = .ok pa → r.load = true → Writable b s →
      Completes (con b imm a) s (fun t =>
        t = { s with regs := t.regs, pc := s.pc + 4#32, bus := t.bus, pending := t.pending } ∧
        (∃ n < 256 ^ widthBytes w, RegisterBecomes s.crs b (extended signed w n) s t) ∧
        OneTransfer (.load pa (widthBytes w)) s t ∧ SameMemory s t)) ∧
    (∀ con, (con, path, w) ∈ storeForms → s.protectData .write ea = .ok pa → r.store = true →
      Completes (con b imm a) s (fun t =>
        t = { s with pc := s.pc + 4#32, hazard := t.hazard, bus := t.bus, pending := t.pending } ∧
        OneTransfer (.store pa (widthBytes w) (lowBytes w (s.reg b))) s t ∧ SameMemory s t ∧
        (∀ x, t.hazardAt x = if SharesWord w pa x then
          (if s.cfg.hasIcache then .needsInvalidate else .needsFlushPipeline) else s.hazardAt x)))

/-! ## Caches, pipeline, sync (45_cache_sync.md) -/

/-- Without the cache it addresses, each of the six cache instructions changes nothing but `pc` (R273); the two
supervisor-only ones in supervisor mode, `initda` where implemented. -/
def Obligations.CacheInstructionsWithoutCache : Prop :=
  ∀ (s : State) (a : Reg) (imm : Imm16) (ea pa : Word), ea = BitVec.ofInt 32 ((s.reg a).toInt + imm.toInt) →
    (s.cfg.hasDcache = false →
      exec (.flushd imm a) s = .next { s with pc := s.pc + 4#32 } ∧
      (s.userMode = false → exec (.initd imm a) s = .next { s with pc := s.pc + 4#32 }) ∧
      (s.cacheOpAddress ea = .ok pa → exec (.flushda imm a) s = .next { s with pc := s.pc + 4#32 } ∧
        (s.cfg.implInitda = true → exec (.initda imm a) s = .next { s with pc := s.pc + 4#32 }))) ∧
    (s.cfg.hasIcache = false →
      exec (.flushi a) s = .next { s with pc := s.pc + 4#32 } ∧
      (s.userMode = false → exec (.initi a) s = .next { s with pc := s.pc + 4#32 }))

/-- `flushd` and, on a hit, `flushda`: a dirty line goes back to memory as one transfer, the line becomes invalid and
clean, no other line changes, and the processor sees every byte as before; on a miss `flushda` leaves memory and the
cache alone (R265, R266). Either is event (a) of R89 for the words of a line it writes back and for those of the address's
own line, even where nothing is left to write back (R400; log 23). -/
def Obligations.FlushWritesBack : Prop :=
  ∀ (s : State) (a : Reg) (imm : Imm16) (ea : Word), s.cfg.WellFormed → DcacheSound s → s.cfg.hasDcache = true →
    ea = BitVec.ofInt 32 ((s.reg a).toInt + imm.toInt) →
    (∀ (i : Instr) (pa : Word),
      (i = .flushd imm a ∧ pa = ea) ∨ (i = .flushda imm a ∧ s.cacheOpAddress ea = .ok pa ∧ s.dcacheHit pa = true) →
      Completes i s (fun t =>
        t = { s with
              pc := s.pc + 4#32, mem := t.mem, dcache := t.dcache, hazard := t.hazard, bus := t.bus
              pending := t.pending } ∧
        (∀ x, t.byteAt x = s.byteAt x) ∧
        (∀ x, t.memByte x = if s.dcacheHit x = true ∧ dlineOf s.cfg x.toNat = dlineOf s.cfg pa.toNat ∧
          (s.dline (dlineOf s.cfg pa.toNat)).dirty = true then s.byteAt x else s.memByte x) ∧
        (∀ line, t.dline line = if line = dlineOf s.cfg pa.toNat then
          { s.dline line with valid := false, dirty := false } else s.dline line) ∧
        (if (s.dline (dlineOf s.cfg pa.toNat)).valid = true ∧ (s.dline (dlineOf s.cfg pa.toNat)).dirty = true then
          OneTransfer (.writeBack (BitVec.ofNat 32
            (dlineBase s.cfg (s.dline (dlineOf s.cfg pa.toNat)).tag (dlineOf s.cfg pa.toNat)))) s t
         else t.bus = s.bus ∧ t.pending = s.pending) ∧
        (∀ x, t.hazardAt x = if ((s.dcacheHit x = true ∧ dlineOf s.cfg x.toNat = dlineOf s.cfg pa.toNat ∧
              (s.dline (dlineOf s.cfg pa.toNat)).dirty = true) ∨
            (dlineOf s.cfg x.toNat = dlineOf s.cfg pa.toNat ∧ dtagOf s.cfg x.toNat = dtagOf s.cfg pa.toNat)) ∧
            s.hazardAt x = .needsWriteBack then
          (if s.cfg.hasIcache then .needsInvalidate else .needsFlushPipeline) else s.hazardAt x))) ∧
    (∀ pa, s.cacheOpAddress ea = .ok pa → s.dcacheHit pa = false →
      Completes (.flushda imm a) s (fun t =>
        t = { s with pc := s.pc + 4#32, hazard := t.hazard } ∧
        (∀ x, t.hazardAt x = if (dlineOf s.cfg x.toNat = dlineOf s.cfg pa.toNat ∧
            dtagOf s.cfg x.toNat = dtagOf s.cfg pa.toNat) ∧ s.hazardAt x = .needsWriteBack then
          (if s.cfg.hasIcache then .needsInvalidate else .needsFlushPipeline) else s.hazardAt x)))

/-- `initd` and, on a hit, `initda`: the line becomes invalid with no write-back: memory is untouched and the bytes of
the line revert to what memory held (R267, R268, R86); on a miss `initda` changes nothing. -/
def Obligations.InitDiscards : Prop :=
  ∀ (s : State) (a : Reg) (imm : Imm16) (ea : Word), s.cfg.hasDcache = true →
    ea = BitVec.ofInt 32 ((s.reg a).toInt + imm.toInt) →
    (∀ (i : Instr) (pa : Word),
      (i = .initd imm a ∧ pa = ea ∧ s.userMode = false) ∨
      (i = .initda imm a ∧ s.cfg.implInitda = true ∧ s.cacheOpAddress ea = .ok pa ∧ s.dcacheHit pa = true) →
      Completes i s (fun t =>
        t = { s with pc := s.pc + 4#32, dcache := t.dcache } ∧
        (∀ x, t.byteAt x = if dlineOf s.cfg x.toNat = dlineOf s.cfg pa.toNat then s.memByte x else s.byteAt x) ∧
        (∀ line, t.dline line = if line = dlineOf s.cfg pa.toNat then
          { s.dline line with valid := false, dirty := false } else s.dline line))) ∧
    (∀ pa, s.cfg.implInitda = true → s.cacheOpAddress ea = .ok pa → s.dcacheHit pa = false →
      exec (.initda imm a) s = .next { s with pc := s.pc + 4#32 })

/-- `flushi` and `initi`: the instruction-cache line of the address's index becomes invalid, whatever address it holds,
so that its bytes are fetched from memory; nothing else but the fetch hazard changes (R269, R270). -/
def Obligations.InvalidateInstructionLine : Prop :=
  ∀ (s : State) (a : Reg), s.cfg.hasIcache = true →
    ∀ i, (i = Instr.flushi a ∨ i = Instr.initi a ∧ s.userMode = false) →
      Completes i s (fun t =>
        t = { s with pc := s.pc + 4#32, icache := t.icache, hazard := t.hazard } ∧
        (∀ line, t.iline line = if line = ilineOf s.cfg (s.reg a).toNat then
          { s.iline line with valid := false } else s.iline line) ∧
        (∀ x, t.codeByte x = if ilineOf s.cfg x.toNat = ilineOf s.cfg (s.reg a).toNat then s.memByte x
          else s.codeByte x) ∧
        (∀ x, t.hazardAt x = if ilineOf s.cfg x.toNat = ilineOf s.cfg (s.reg a).toNat ∧
          s.hazardAt x = .needsInvalidate then .needsFlushPipeline else s.hazardAt x))

/-- `flushp` changes nothing but `pc` and the fetch hazard, whose last step it is; `sync` completes every pending access
and, with in-order memory, changes nothing but `pc` (R271, R272, R87). That the accesses completed stand on the bus in program
order is the model's choice, the spec leaves their order open (log 22). -/
def Obligations.FlushpAndSync : Prop :=
  ∀ s : State,
    (Sparse.Canonical HazardStage.fetchable s.hazard → Completes .flushp s (fun t =>
      t = { s with pc := s.pc + 4#32, hazard := t.hazard } ∧
      ∀ x, t.hazardAt x = if s.hazardAt x = .needsFlushPipeline then .fetchable else s.hazardAt x)) ∧
    (s.cfg.inOrderMemory = true → exec .sync s = .next { s with pc := s.pc + 4#32 }) ∧
    (s.cfg.inOrderMemory = false →
      exec .sync s = .next { s with pc := s.pc + 4#32, bus := s.pending ++ s.bus, pending := [] })

/-- Writing an instruction and executing it (R89, R400): after `stw rB, 0(rA)` or `stwio` the word is not fetchable, and it
stays so until `flushp`. After it the word is fetchable exactly where each step the caches call for was taken: with a data
cache and a plain store `flushd` or `flushda`, whether the store hit, missed or allocated, with an instruction cache
`flushi`; with neither cache `flushp` alone does. -/
def Obligations.HazardSequence : Prop :=
  ∀ (s : State) (a b : Reg), Sparse.Canonical HazardStage.fetchable s.hazard →
    s.cfg.hasMmu = false → s.cfg.hasMpu = false → 4 ∣ (s.reg a).toNat → StoreMemory s.cfg (s.reg a) →
    ∀ store ∈ [(Instr.stw b 0#16 a, Path.plain), (.stwio b 0#16 a, .io)],
      (store.2 = .io → s.dcacheHit (s.reg a) = false) →
      ∃ t₁, exec store.1 s = .next t₁ ∧ t₁.fetchable (s.reg a) = false ∧
        ∀ flush ∈ [Instr.flushd 0#16 a, .flushda 0#16 a], ∀ withFlush withFlushi : Bool, ∃ t₂ t₃ t₄,
          (if withFlush then exec flush t₁ = .next t₂ else t₂ = t₁) ∧
          (if withFlushi then exec (.flushi a) t₂ = .next t₃ else t₃ = t₂) ∧ exec .flushp t₃ = .next t₄ ∧
          t₂.fetchable (s.reg a) = false ∧ t₃.fetchable (s.reg a) = false ∧
          (t₄.fetchable (s.reg a) = true ↔
            (s.cfg.hasDcache = true → store.2 = .plain → withFlush = true) ∧
            (s.cfg.hasIcache = true → withFlushi = true))

/-! ## System (46_system.md, 60_exceptions.md) -/

/-- `trap` entry: `estatus <- status`, PIE and U cleared, x[29] <- pc + 4, `pc <- EXCEPTION_ADDR`; nothing is pushed to
memory and no other register changes; IMM5 is ignored (R351). -/
def Obligations.TrapEntry : Prop :=
  ∀ (s : State) (n : Imm5), Completes (.trap n) s (fun t =>
    t = { s with
          regs := t.regs, pc := s.cfg.exceptionAddr, status := t.status, estatus := s.status, label := some .trap } ∧
    ClearsPieAndU s.cfg s.status t.status ∧ RegisterBecomes s.crs 29#5 (s.pc + 4#32) s t ∧ SameMemory s t)

/-- `break` entry: `bstatus <- status`, PIE and U cleared, x[30] <- pc + 4, `pc <- BREAK_ADDR`; `estatus` and x[29] are not
touched; IMM5 is ignored (R352). -/
def Obligations.BreakEntry : Prop :=
  ∀ (s : State) (n : Imm5), Completes (.brk n) s (EntersBreak s)

/-- `eret` and `bret` in supervisor mode: the whole of `status` from the saved status and `pc` from the saved address,
and nothing else; with shadow sets `eret` may change the register set (R286, R288, R365). -/
def Obligations.ReturnsRestore : Prop :=
  ∀ s : State, s.userMode = false →
    (4 ∣ (s.reg 29#5).toNat → Completes .eret s (fun t =>
      t = { s with status := s.estatus, pc := s.reg 29#5, crs := t.crs, draws := t.draws } ∧
      (s.cfg.numShadow = 0 → t.crs = s.crs ∧ t.draws = s.draws) ∧
      (t.crs = s.crs ∨ 0 < s.cfg.numShadow ∧ t.crs ≤ s.cfg.numShadow))) ∧
    (4 ∣ (s.reg 30#5).toNat → exec .bret s = .next { s with status := s.bstatus, pc := s.reg 30#5 })

/-- Supervisor-only instruction: raised by the eight supervisor-only instructions in user mode, before any other effect,
whatever their operands (R344). -/
def Obligations.SupervisorOnlyRaises : Prop :=
  ∀ (s : State) (a b c : Reg) (n : Imm5) (imm : Imm16), s.userMode = true →
    ∀ i ∈ [Instr.eret, .bret, .rdctl c n, .wrctl n a, .rdprs b a imm, .wrprs c a, .initd imm a, .initi a],
      Completes i s (EntersException .supervisorOnlyInstruction s)

/-- `rdctl` reads `status`, `estatus` and `bstatus`; `wrctl` writes them through the write mask, from which U is missing on
a core without user mode, and touches nothing else (R289, R290, R45, R370). A control register the spec does not
describe stops the model (R44). -/
def Obligations.ControlRegisterAccess : Prop :=
  ∀ (s : State) (c a : Reg) (n : Imm5) (mask : Word), s.cfg.WellFormed → s.userMode = false →
    (∀ j : Fin 32, mask.getLsbD j.val =
      (s.cfg.statusWriteMask.getLsbD j.val && (s.cfg.hasUserMode || j != s.cfg.statusUBit))) →
    (Writable c s →
      Yields (.rdctl c s.cfg.ctlStatus) c s (fun v => v = s.status) ∧
      Yields (.rdctl c s.cfg.ctlEstatus) c s (fun v => v = s.estatus) ∧
      Yields (.rdctl c s.cfg.ctlBstatus) c s (fun v => v = s.bstatus)) ∧
    exec (.wrctl s.cfg.ctlStatus a) s = .next { s with status := s.reg a &&& mask, pc := s.pc + 4#32 } ∧
    exec (.wrctl s.cfg.ctlEstatus a) s = .next { s with estatus := s.reg a &&& mask, pc := s.pc + 4#32 } ∧
    exec (.wrctl s.cfg.ctlBstatus a) s = .next { s with bstatus := s.reg a &&& mask, pc := s.pc + 4#32 } ∧
    (n ≠ s.cfg.ctlStatus → n ≠ s.cfg.ctlEstatus → n ≠ s.cfg.ctlBstatus →
      exec (.rdctl c n) s = .fault .controlRegisterNotModelled ∧
      exec (.wrctl n a) s = .fault .controlRegisterNotModelled)

/-- `rdprs` and `wrprs` in supervisor mode: the register of the set `status.PRS` names; without shadow sets Illegal
instruction; a set that does not exist stops the model (R291, R292, R36). -/
def Obligations.PreviousSetAccess : Prop :=
  ∀ (s : State) (b c a : Reg) (imm : Imm16), s.userMode = false →
    (s.cfg.numShadow = 0 → Completes (.rdprs b a imm) s (EntersException .illegalInstruction s) ∧
      Completes (.wrprs c a) s (EntersException .illegalInstruction s)) ∧
    (0 < s.cfg.numShadow → s.cfg.numShadow < s.prs →
      exec (.rdprs b a imm) s = .fault .prsNamesNoRegisterSet ∧ exec (.wrprs c a) s = .fault .prsNamesNoRegisterSet) ∧
    (0 < s.cfg.numShadow → s.prs ≤ s.cfg.numShadow →
      (Writable b s →
        Yields (.rdprs b a imm) b s (fun v => v = BitVec.ofInt 32 ((s.regOf s.prs a).toInt + imm.toInt))) ∧
      Completes (.wrprs c a) s (fun t =>
        t = { s with regs := t.regs, pc := s.pc + 4#32 } ∧ RegisterBecomes s.prs c (s.reg a) s t ∧ SameMemory s t))

/-- `custom`: with a function configured it completes, writes x[C] only where `writerc` is 1, and changes no other state
but the custom state of its N; the spec's example function is a 32-bit add; with none it is a reserved encoding (R293,
R126). -/
def Obligations.CustomResults : Prop :=
  ∀ (s : State) (n : BitVec 8) (c a b : Reg) (readra readrb writerc : Bool),
    (s.cfg.custom.lookup n = none →
      (s.cfg.illegalExc = true → Completes (.custom n c a b readra readrb writerc) s
        (EntersException .illegalInstruction s)) ∧
      (s.cfg.illegalExc = false → exec (.custom n c a b readra readrb writerc) s = .fault .reservedEncoding)) ∧
    (∀ f, s.cfg.custom.lookup n = some f →
      (Writable c s → ∃ v, Completes (.custom n c a b readra readrb true) s (fun t =>
        t = { s with regs := t.regs, pc := s.pc + 4#32, custom := t.custom } ∧ RegisterBecomes s.crs c v s t ∧
        (∀ m, m ≠ n → t.customState m = s.customState m) ∧ SameMemory s t ∧
        (f = .add32 → readra = true → readrb = true → v = s.reg a + s.reg b))) ∧
      Completes (.custom n c a b readra readrb false) s (fun t =>
        t = { s with pc := s.pc + 4#32, custom := t.custom } ∧
        (∀ m, m ≠ n → t.customState m = s.customState m)))

/-! ## Rules of the whole machine -/

/-- Every exception is precise (R353): whatever the instruction, when it raises an exception the next state is that of
the entry alone. -/
def Obligations.ExceptionsArePrecise : Prop :=
  ∀ (i : Instr) (s t : State) (e : Exception), s.label = none → exec i s = .next t → t.label = some e →
    e = .breakpoint ∧ EntersBreak s t ∨ e ≠ .breakpoint ∧ EntersException e s t

/-- No user-mode instruction changes `status`, `estatus`, `bstatus`, the current register set or a register of another
set, or leaves user mode, but by taking an exception (R370, R371). -/
def Obligations.UserModeConfined : Prop :=
  ∀ (i : Instr) (s t : State), s.userMode = true → s.label = none → exec i s = .next t → t.label = none →
    t.status = s.status ∧ t.estatus = s.estatus ∧ t.bstatus = s.bstatus ∧ t.crs = s.crs ∧ t.userMode = true ∧
    ∀ set x, set ≠ s.crs → t.regOf set x = s.regOf set x

/-- A general register changes only where the instruction names it as its destination, by `wrprs` in the previous set, by
`call` and `callr` in r31, by an exception in r29 and by `break` in r30 (R31, R32, R36, R150, R240, R273). -/
def Obligations.RegisterFrame : Prop :=
  ∀ (i : Instr) (s t : State), exec i s = .next t → ∀ set x, t.regOf set x ≠ s.regOf set x →
    (set = s.crs ∧ destination i = some x) ∨
    (set = s.prs ∧ ∃ a, i = .wrprs x a) ∨
    (set = s.crs ∧ x = 31#5 ∧ ((∃ imm, i = .call imm) ∨ ∃ a, i = .callr a)) ∨
    (set = s.crs ∧ x = 30#5 ∧ ∃ n, i = .brk n) ∨
    (x = 29#5 ∧ ∃ e, EntersException e s t)

/-- A byte of memory changes only in two ways (R70, R77, R85, R150, R180, R240, R265, R266, R273). It is one of the bytes a
store stores: the low bytes of x[B], at the address `protect` gives for the effective address. Or it stands in the dirty
data-cache line of the index that a plain load or store, a `flushd` or a `flushda` addresses, and the write-back of that
line gives memory the byte the processor saw. On a core without a data cache only the first. -/
def Obligations.MemoryFrame : Prop :=
  ∀ (i : Instr) (s t : State) (x : Word), s.cfg.WellFormed → (s.cfg.hasDcache = true → TagsInRange s) →
    exec i s = .next t → t.memByte x ≠ s.memByte x →
    (∃ con path w b imm a pa, (con, path, w) ∈ storeForms ∧ i = con b imm a ∧
      s.protectData .write (s.effectiveAddress a imm) = .ok pa ∧ (x - pa).toNat < widthBytes w ∧
      t.memByte x = afterStore w pa (s.reg b) x (s.memByte x)) ∨
    (s.dcacheHit x = true ∧ (s.dline (dlineOf s.cfg x.toNat)).dirty = true ∧ t.memByte x = s.byteAt x ∧
      ∃ pa b imm a, dlineOf s.cfg pa.toNat = dlineOf s.cfg x.toNat ∧
        ((∃ con w signed, (con, Path.plain, w, signed) ∈ loadForms ∧ i = con b imm a ∧
            s.protectData .read (s.effectiveAddress a imm) = .ok pa) ∨
          (∃ con w, (con, Path.plain, w) ∈ storeForms ∧ i = con b imm a ∧
            s.protectData .write (s.effectiveAddress a imm) = .ok pa) ∨
          (i = .flushd imm a ∧ pa = s.effectiveAddress a imm) ∨
          (i = .flushda imm a ∧ s.cacheOpAddress (s.effectiveAddress a imm) = .ok pa)))

/-- The configuration never changes (00_scope.md R6): not by any step. -/
def Obligations.ConfigurationConstant : Prop := ∀ s t : State, step s = .next t → t.cfg = s.cfg

/-- Every step keeps every table of the state in its canonical form. The canonical form is the model's own (log 9). -/
def Obligations.StepKeepsCanonical : Prop := ∀ s t : State, s.Canonical → step s = .next t → t.Canonical

/-- Every step keeps the architectural invariant: `pc` word-aligned (R37), an existing register set (R35), no bit outside
the write mask in `status`, `estatus`, `bstatus` (R45), no pending access with in-order memory (R87). -/
def Obligations.StepKeepsInv : Prop := ∀ s t : State, s.Inv → step s = .next t → t.Inv

/-- Every step keeps the data cache sound, on a core without an MMU and an MPU: valid lines hold addresses of the space,
and a clean line reads as memory does (R84, R85). -/
def Obligations.StepKeepsDcacheSound : Prop :=
  ∀ s t : State, s.cfg.WellFormed → s.cfg.hasMmu = false → s.cfg.hasMpu = false → DcacheSound s → step s = .next t →
    DcacheSound t

/-- Both invariants and the canonical form hold at reset. -/
def Obligations.ResetMeetsInvariants : Prop :=
  State.reset.Canonical ∧ State.reset.Inv ∧ DcacheSound State.reset

/-- What the spec gives for reset, in every configuration (R52, R391): `pc` = RESET_ADDR, `status` = 0, set 0 current, r0
reads 0, no pending access; supervisor mode and interrupts disabled. -/
def Obligations.ResetValues : Prop :=
  ∀ c : Config, (State.resetOf c).pc = c.resetAddr ∧ (State.resetOf c).status = 0#32 ∧ (State.resetOf c).crs = 0 ∧
    (State.resetOf c).reg 0#5 = 0#32 ∧ (State.resetOf c).pending = [] ∧ (State.resetOf c).cfg = c ∧
    (State.resetOf c).userMode = false ∧ pieOf c (State.resetOf c).status = false

/-! ## Pseudo-instructions (47_pseudo.md) -/

/-- The one-instruction expansions that write a register compute the operation their page gives, for every operand in the
range it gives (R315 to R329). -/
def Obligations.PseudoResults : Prop :=
  ∀ (s : State) (c a b : Reg) (m : Int), Writable c s → s.reg 0#5 = 0#32 →
    ∀ p ∈ [(Pseudo.cmpgt c a b, if (s.reg b).toInt < (s.reg a).toInt then 1#32 else 0#32),
        (.cmpgtu c a b, if (s.reg b).toNat < (s.reg a).toNat then 1#32 else 0#32),
        (.cmple c a b, if (s.reg a).toInt ≤ (s.reg b).toInt then 1#32 else 0#32),
        (.cmpleu c a b, if (s.reg a).toNat ≤ (s.reg b).toNat then 1#32 else 0#32),
        (.cmpgti c a m, if m < (s.reg a).toInt then 1#32 else 0#32),
        (.cmpgtui c a m, if m < ((s.reg a).toNat : Int) then 1#32 else 0#32),
        (.cmplei c a m, if (s.reg a).toInt ≤ m then 1#32 else 0#32),
        (.cmpleui c a m, if ((s.reg a).toNat : Int) ≤ m then 1#32 else 0#32),
        (.mov c a, s.reg a), (.movhi c m, BitVec.ofInt 32 (m * 65536)), (.movi c m, BitVec.ofInt 32 m),
        (.movui c m, BitVec.ofInt 32 m), (.subi c a m, BitVec.ofInt 32 ((s.reg a).toInt - m))],
      p.1.WellFormed → ∃ i, expand p.1 = [i] ∧ Yields i c s (fun v => v = p.2)

/-- `bgt`, `bgtu`, `ble`, `bleu` branch on the swapped comparison (R311 to R314); `nop` changes nothing but `pc`, and while
a shadow set is current stops as any plain write to r0 does (R328). -/
def Obligations.PseudoBranches : Prop :=
  ∀ (s : State) (a b : Reg) (imm : Imm16) (target : Word),
    target = BitVec.ofInt 32 ((s.pc.toNat : Int) + 4 + imm.toInt) →
    (∀ i ∈ expand (.bgt a b imm), BranchesIf ((s.reg b).toInt < (s.reg a).toInt) target i s) ∧
    (∀ i ∈ expand (.bgtu a b imm), BranchesIf ((s.reg b).toNat < (s.reg a).toNat) target i s) ∧
    (∀ i ∈ expand (.ble a b imm), BranchesIf ((s.reg a).toInt ≤ (s.reg b).toInt) target i s) ∧
    (∀ i ∈ expand (.bleu a b imm), BranchesIf ((s.reg a).toNat ≤ (s.reg b).toNat) target i s) ∧
    (s.crs = 0 → ∀ i ∈ expand .nop, exec i s = .next { s with pc := s.pc + 4#32 }) ∧
    (s.crs ≠ 0 → ∀ i ∈ expand .nop, exec i s = .fault .writeR0InShadowSet)

/-- `movia`: `orhi rB, r0, %hiadj(label)` leaves the adjusted high half in the register and then `addi rB, rB, %lo(label)`
leaves the label, for every label; nothing else changes (R326, R335). The corner 0xFFFF8000 to 0xFFFFFFFF, where `%hiadj`
is taken modulo 2^16, rests on the spec's own derivation (R336; log 40). -/
def Obligations.MoviaLoadsLabel : Prop :=
  ∀ (s : State) (b : Reg) (label : Word), Writable b s → s.reg 0#5 = 0#32 →
    expand (.movia b label) = [.orhi b 0#5 (hiadjMacro label), .addi b b (loMacro label)] ∧
    ∃ t u, exec (.orhi b 0#5 (hiadjMacro label)) s = .next t ∧ exec (.addi b b (loMacro label)) t = .next u ∧
      t = { s with regs := t.regs, pc := s.pc + 4#32 } ∧ u = { s with regs := u.regs, pc := s.pc + 8#32 } ∧
      RegisterBecomes s.crs b (BitVec.ofNat 32 ((label.toNat + 32768) / 65536 * 65536)) s t ∧
      RegisterBecomes s.crs b label s u ∧ SameMemory s u
end

