-- ==== Sys2Proof/Laws/Sparse.lean ====
section
/-! SUPPORT. Sparse tables: reading after a write, and the canonical form kept by every operation. -/

namespace Sys2Proof.Machine.Sparse

variable {V : Type} {d v : V} {table : List (Nat × V)} {key other : Nat}

theorem get_nil : get d [] key = d := rfl

theorem get_erase_same : get d (erase table key) key = d := by
  induction table with
  | nil => rfl
  | cons entry rest ih =>
    by_cases h : entry.1 = key <;> simp_all [erase, get]

theorem get_erase_other (h : other ≠ key) : get d (erase table key) other = get d table other := by
  induction table with
  | nil => rfl
  | cons entry rest ih =>
    by_cases hk : entry.1 = key
    · subst hk
      simp_all [erase, get, Ne.symm h]
    · by_cases ho : entry.1 = other <;> simp_all [erase, get]

theorem get_insert_other (h : other ≠ key) : get d (insert table key v) other = get d table other := by
  induction table with
  | nil => simp [insert, get, Ne.symm h]
  | cons entry rest ih =>
    by_cases hk : key < entry.1 <;> simp [insert, get, hk, ih, Ne.symm h]

theorem get_insert_same (h : ∀ entry ∈ table, entry.1 ≠ key) : get d (insert table key v) key = v := by
  induction table with
  | nil => simp [insert, get]
  | cons entry rest ih =>
    have hr := ih (fun e he => h e (List.mem_cons_of_mem _ he))
    by_cases hk : key < entry.1 <;> simp [insert, get, hk, hr, h entry]

theorem key_ne_of_mem_erase : ∀ entry ∈ erase table key, entry.1 ≠ key := by
  simp [erase]

theorem mem_insert {entry : Nat × V} : entry ∈ insert table key v ↔ entry = (key, v) ∨ entry ∈ table := by
  induction table with
  | nil => simp [insert]
  | cons e rest ih =>
    by_cases hk : key < e.1
    · simp [insert, hk]
    · simp only [insert, hk, if_false, List.mem_cons, ih]
      tauto

theorem mem_of_mem_erase {entry : Nat × V} (h : entry ∈ erase table key) : entry ∈ table :=
  (List.mem_filter.mp h).1

theorem pairwise_insert (h : table.Pairwise (fun x y => x.1 < y.1)) (hk : ∀ entry ∈ table, entry.1 ≠ key) :
    (insert table key v).Pairwise (fun x y => x.1 < y.1) := by
  induction table with
  | nil => simp [insert]
  | cons e rest ih =>
    obtain ⟨he, hr⟩ := List.pairwise_cons.mp h
    by_cases hlt : key < e.1
    · have hins : insert (e :: rest) key v = (key, v) :: e :: rest := by simp [insert, hlt]
      rw [hins, List.pairwise_cons]
      refine ⟨fun x hx => ?_, h⟩
      rcases List.mem_cons.mp hx with rfl | hx
      · exact hlt
      · exact lt_trans hlt (he x hx)
    · have hins : insert (e :: rest) key v = e :: insert rest key v := by simp [insert, hlt]
      rw [hins, List.pairwise_cons]
      refine ⟨fun x hx => ?_, ih hr (fun y hy => hk y (List.mem_cons_of_mem _ hy))⟩
      rcases mem_insert.mp hx with rfl | hx
      · exact lt_of_le_of_ne (not_lt.mp hlt) (hk e List.mem_cons_self)
      · exact he x hx

/-- In a canonical table every listed entry is what its key reads as. -/
theorem get_of_mem (h : table.Pairwise (fun x y => x.1 < y.1)) {entry : Nat × V} (he : entry ∈ table) :
    get d table entry.1 = entry.2 := by
  induction table with
  | nil => cases he
  | cons e rest ih =>
    obtain ⟨hlt, hr⟩ := List.pairwise_cons.mp h
    rcases List.mem_cons.mp he with rfl | hm
    · simp [get]
    · simp [get, (hlt entry hm).ne, ih hr hm]

variable [DecidableEq V]

/-- Reading the key just written gives the value written, whatever the table. -/
theorem get_set_same : get d (set d table key v) key = v := by
  unfold set
  split
  · next h => rw [get_erase_same, h]
  · exact get_insert_same key_ne_of_mem_erase

/-- Writing a key leaves every other key's reading alone, whatever the table. -/
theorem get_set_other (h : other ≠ key) : get d (set d table key v) other = get d table other := by
  unfold set
  split
  · exact get_erase_other h
  · rw [get_insert_other h, get_erase_other h]

theorem get_set : get d (set d table key v) other = if other = key then v else get d table other := by
  split
  · next h => rw [h, get_set_same]
  · next h => exact get_set_other h

theorem canonical_nil : Canonical d ([] : List (Nat × V)) := by simp [Canonical]

theorem canonical_erase (h : Canonical d table) : Canonical d (erase table key) :=
  ⟨h.1.filter _, fun e he => h.2 e (mem_of_mem_erase he)⟩

/-- Every write keeps the canonical form. -/
theorem canonical_set (h : Canonical d table) : Canonical d (set d table key v) := by
  have hc := canonical_erase (key := key) h
  unfold set
  split
  · exact hc
  · next hv =>
    refine ⟨pairwise_insert hc.1 key_ne_of_mem_erase, fun e he => ?_⟩
    rcases mem_insert.mp he with rfl | he
    · exact hv
    · exact hc.2 e he

theorem mem_set {entry : Nat × V} (h : entry ∈ set d table key v) : entry = (key, v) ∨ entry ∈ table := by
  unfold set at h
  split at h
  · exact .inr (mem_of_mem_erase h)
  · exact (mem_insert.mp h).imp id mem_of_mem_erase

/-- Two canonical tables that read alike are the same table. -/
theorem eq_of_get_eq {t₁ t₂ : List (Nat × V)} (h₁ : Canonical d t₁) (h₂ : Canonical d t₂)
    (h : ∀ k, get d t₁ k = get d t₂ k) : t₁ = t₂ := by
  have key_mem : ∀ {t : List (Nat × V)} {k : Nat}, get d t k ≠ d → (k, get d t k) ∈ t := by
    intro t k
    induction t with
    | nil => intro hne; exact absurd rfl hne
    | cons e rest ih =>
      intro hne
      by_cases he : e.1 = k
      · subst he; simp [get]
      · simp only [get, he, if_false] at hne ⊢
        exact List.mem_cons_of_mem _ (ih hne)
  have sub : ∀ {a b : List (Nat × V)}, Canonical d a → (∀ k, get d a k = get d b k) → ∀ e ∈ a, e ∈ b := by
    intro a b ha hab e he
    have hge := get_of_mem (d := d) ha.1 he
    have hm : (e.1, get d b e.1) ∈ b := key_mem (by rw [← hab, hge]; exact ha.2 e he)
    rwa [← hab, hge] at hm
  have nodup : ∀ {a : List (Nat × V)}, a.Pairwise (fun x y => x.1 < y.1) → a.Nodup := fun ha =>
    ha.imp (fun hxy heq => absurd (heq ▸ hxy) (lt_irrefl _))
  have hp : t₁.Perm t₂ := (List.perm_ext_iff_of_nodup (nodup h₁.1) (nodup h₂.1)).mpr
    (fun e => ⟨sub h₁ h e, sub h₂ (fun k => (h k).symm) e⟩)
  exact hp.eq_of_pairwise (fun a b _ _ hab hba => absurd (lt_trans hab hba) (lt_irrefl _)) h₁.1 h₂.1

end Sys2Proof.Machine.Sparse
end

