-- ==== Sys2Proof/Laws/State.lean ====
section
/-! SUPPORT. What each update of the state leaves in each field: one lemma per field per update. -/

namespace Sys2Proof.Machine

variable (s : State)

@[simp] theorem State.goto_cfg (target : Word) : (s.goto target).cfg = s.cfg := rfl
@[simp] theorem State.goto_regs (target : Word) : (s.goto target).regs = s.regs := rfl
@[simp] theorem State.goto_crs (target : Word) : (s.goto target).crs = s.crs := rfl
@[simp] theorem State.goto_pc (target : Word) : (s.goto target).pc = target := rfl
@[simp] theorem State.goto_status (target : Word) : (s.goto target).status = s.status := rfl
@[simp] theorem State.goto_estatus (target : Word) : (s.goto target).estatus = s.estatus := rfl
@[simp] theorem State.goto_bstatus (target : Word) : (s.goto target).bstatus = s.bstatus := rfl
@[simp] theorem State.goto_mem (target : Word) : (s.goto target).mem = s.mem := rfl
@[simp] theorem State.goto_dcache (target : Word) : (s.goto target).dcache = s.dcache := rfl
@[simp] theorem State.goto_dcacheData (target : Word) : (s.goto target).dcacheData = s.dcacheData := rfl
@[simp] theorem State.goto_icache (target : Word) : (s.goto target).icache = s.icache := rfl
@[simp] theorem State.goto_icacheData (target : Word) : (s.goto target).icacheData = s.icacheData := rfl
@[simp] theorem State.goto_hazard (target : Word) : (s.goto target).hazard = s.hazard := rfl
@[simp] theorem State.goto_pending (target : Word) : (s.goto target).pending = s.pending := rfl
@[simp] theorem State.goto_bus (target : Word) : (s.goto target).bus = s.bus := rfl
@[simp] theorem State.goto_irq (target : Word) : (s.goto target).irq = s.irq := rfl
@[simp] theorem State.goto_custom (target : Word) : (s.goto target).custom = s.custom := rfl
@[simp] theorem State.goto_draws (target : Word) : (s.goto target).draws = s.draws := rfl
@[simp] theorem State.goto_label (target : Word) : (s.goto target).label = s.label := rfl

@[simp] theorem State.advance_cfg : (s.advance).cfg = s.cfg := rfl
@[simp] theorem State.advance_regs : (s.advance).regs = s.regs := rfl
@[simp] theorem State.advance_crs : (s.advance).crs = s.crs := rfl
@[simp] theorem State.advance_pc : (s.advance).pc = s.pc + 4#32 := rfl
@[simp] theorem State.advance_status : (s.advance).status = s.status := rfl
@[simp] theorem State.advance_estatus : (s.advance).estatus = s.estatus := rfl
@[simp] theorem State.advance_bstatus : (s.advance).bstatus = s.bstatus := rfl
@[simp] theorem State.advance_mem : (s.advance).mem = s.mem := rfl
@[simp] theorem State.advance_dcache : (s.advance).dcache = s.dcache := rfl
@[simp] theorem State.advance_dcacheData : (s.advance).dcacheData = s.dcacheData := rfl
@[simp] theorem State.advance_icache : (s.advance).icache = s.icache := rfl
@[simp] theorem State.advance_icacheData : (s.advance).icacheData = s.icacheData := rfl
@[simp] theorem State.advance_hazard : (s.advance).hazard = s.hazard := rfl
@[simp] theorem State.advance_pending : (s.advance).pending = s.pending := rfl
@[simp] theorem State.advance_bus : (s.advance).bus = s.bus := rfl
@[simp] theorem State.advance_irq : (s.advance).irq = s.irq := rfl
@[simp] theorem State.advance_custom : (s.advance).custom = s.custom := rfl
@[simp] theorem State.advance_draws : (s.advance).draws = s.draws := rfl
@[simp] theorem State.advance_label : (s.advance).label = s.label := rfl

@[simp] theorem State.drawn_cfg : (s.drawn).cfg = s.cfg := rfl
@[simp] theorem State.drawn_regs : (s.drawn).regs = s.regs := rfl
@[simp] theorem State.drawn_crs : (s.drawn).crs = s.crs := rfl
@[simp] theorem State.drawn_pc : (s.drawn).pc = s.pc := rfl
@[simp] theorem State.drawn_status : (s.drawn).status = s.status := rfl
@[simp] theorem State.drawn_estatus : (s.drawn).estatus = s.estatus := rfl
@[simp] theorem State.drawn_bstatus : (s.drawn).bstatus = s.bstatus := rfl
@[simp] theorem State.drawn_mem : (s.drawn).mem = s.mem := rfl
@[simp] theorem State.drawn_dcache : (s.drawn).dcache = s.dcache := rfl
@[simp] theorem State.drawn_dcacheData : (s.drawn).dcacheData = s.dcacheData := rfl
@[simp] theorem State.drawn_icache : (s.drawn).icache = s.icache := rfl
@[simp] theorem State.drawn_icacheData : (s.drawn).icacheData = s.icacheData := rfl
@[simp] theorem State.drawn_hazard : (s.drawn).hazard = s.hazard := rfl
@[simp] theorem State.drawn_pending : (s.drawn).pending = s.pending := rfl
@[simp] theorem State.drawn_bus : (s.drawn).bus = s.bus := rfl
@[simp] theorem State.drawn_irq : (s.drawn).irq = s.irq := rfl
@[simp] theorem State.drawn_custom : (s.drawn).custom = s.custom := rfl
@[simp] theorem State.drawn_draws : (s.drawn).draws = s.draws + 1 := rfl
@[simp] theorem State.drawn_label : (s.drawn).label = s.label := rfl

@[simp] theorem State.setMemByte_cfg (address : Word) (value : Byte) : (s.setMemByte address value).cfg = s.cfg := rfl
@[simp] theorem State.setMemByte_regs (address : Word) (value : Byte) : (s.setMemByte address value).regs = s.regs := rfl
@[simp] theorem State.setMemByte_crs (address : Word) (value : Byte) : (s.setMemByte address value).crs = s.crs := rfl
@[simp] theorem State.setMemByte_pc (address : Word) (value : Byte) : (s.setMemByte address value).pc = s.pc := rfl
@[simp] theorem State.setMemByte_status (address : Word) (value : Byte) : (s.setMemByte address value).status = s.status := rfl
@[simp] theorem State.setMemByte_estatus (address : Word) (value : Byte) : (s.setMemByte address value).estatus = s.estatus := rfl
@[simp] theorem State.setMemByte_bstatus (address : Word) (value : Byte) : (s.setMemByte address value).bstatus = s.bstatus := rfl
@[simp] theorem State.setMemByte_mem (address : Word) (value : Byte) : (s.setMemByte address value).mem = Sparse.set 0#8 s.mem address.toNat value := rfl
@[simp] theorem State.setMemByte_dcache (address : Word) (value : Byte) : (s.setMemByte address value).dcache = s.dcache := rfl
@[simp] theorem State.setMemByte_dcacheData (address : Word) (value : Byte) : (s.setMemByte address value).dcacheData = s.dcacheData := rfl
@[simp] theorem State.setMemByte_icache (address : Word) (value : Byte) : (s.setMemByte address value).icache = s.icache := rfl
@[simp] theorem State.setMemByte_icacheData (address : Word) (value : Byte) : (s.setMemByte address value).icacheData = s.icacheData := rfl
@[simp] theorem State.setMemByte_hazard (address : Word) (value : Byte) : (s.setMemByte address value).hazard = s.hazard := rfl
@[simp] theorem State.setMemByte_pending (address : Word) (value : Byte) : (s.setMemByte address value).pending = s.pending := rfl
@[simp] theorem State.setMemByte_bus (address : Word) (value : Byte) : (s.setMemByte address value).bus = s.bus := rfl
@[simp] theorem State.setMemByte_irq (address : Word) (value : Byte) : (s.setMemByte address value).irq = s.irq := rfl
@[simp] theorem State.setMemByte_custom (address : Word) (value : Byte) : (s.setMemByte address value).custom = s.custom := rfl
@[simp] theorem State.setMemByte_draws (address : Word) (value : Byte) : (s.setMemByte address value).draws = s.draws := rfl
@[simp] theorem State.setMemByte_label (address : Word) (value : Byte) : (s.setMemByte address value).label = s.label := rfl

@[simp] theorem State.setDline_cfg (line : Nat) (value : DLine) : (s.setDline line value).cfg = s.cfg := rfl
@[simp] theorem State.setDline_regs (line : Nat) (value : DLine) : (s.setDline line value).regs = s.regs := rfl
@[simp] theorem State.setDline_crs (line : Nat) (value : DLine) : (s.setDline line value).crs = s.crs := rfl
@[simp] theorem State.setDline_pc (line : Nat) (value : DLine) : (s.setDline line value).pc = s.pc := rfl
@[simp] theorem State.setDline_status (line : Nat) (value : DLine) : (s.setDline line value).status = s.status := rfl
@[simp] theorem State.setDline_estatus (line : Nat) (value : DLine) : (s.setDline line value).estatus = s.estatus := rfl
@[simp] theorem State.setDline_bstatus (line : Nat) (value : DLine) : (s.setDline line value).bstatus = s.bstatus := rfl
@[simp] theorem State.setDline_mem (line : Nat) (value : DLine) : (s.setDline line value).mem = s.mem := rfl
@[simp] theorem State.setDline_dcache (line : Nat) (value : DLine) : (s.setDline line value).dcache = Sparse.set DLine.empty s.dcache line value := rfl
@[simp] theorem State.setDline_dcacheData (line : Nat) (value : DLine) : (s.setDline line value).dcacheData = s.dcacheData := rfl
@[simp] theorem State.setDline_icache (line : Nat) (value : DLine) : (s.setDline line value).icache = s.icache := rfl
@[simp] theorem State.setDline_icacheData (line : Nat) (value : DLine) : (s.setDline line value).icacheData = s.icacheData := rfl
@[simp] theorem State.setDline_hazard (line : Nat) (value : DLine) : (s.setDline line value).hazard = s.hazard := rfl
@[simp] theorem State.setDline_pending (line : Nat) (value : DLine) : (s.setDline line value).pending = s.pending := rfl
@[simp] theorem State.setDline_bus (line : Nat) (value : DLine) : (s.setDline line value).bus = s.bus := rfl
@[simp] theorem State.setDline_irq (line : Nat) (value : DLine) : (s.setDline line value).irq = s.irq := rfl
@[simp] theorem State.setDline_custom (line : Nat) (value : DLine) : (s.setDline line value).custom = s.custom := rfl
@[simp] theorem State.setDline_draws (line : Nat) (value : DLine) : (s.setDline line value).draws = s.draws := rfl
@[simp] theorem State.setDline_label (line : Nat) (value : DLine) : (s.setDline line value).label = s.label := rfl

@[simp] theorem State.setIline_cfg (line : Nat) (value : ILine) : (s.setIline line value).cfg = s.cfg := rfl
@[simp] theorem State.setIline_regs (line : Nat) (value : ILine) : (s.setIline line value).regs = s.regs := rfl
@[simp] theorem State.setIline_crs (line : Nat) (value : ILine) : (s.setIline line value).crs = s.crs := rfl
@[simp] theorem State.setIline_pc (line : Nat) (value : ILine) : (s.setIline line value).pc = s.pc := rfl
@[simp] theorem State.setIline_status (line : Nat) (value : ILine) : (s.setIline line value).status = s.status := rfl
@[simp] theorem State.setIline_estatus (line : Nat) (value : ILine) : (s.setIline line value).estatus = s.estatus := rfl
@[simp] theorem State.setIline_bstatus (line : Nat) (value : ILine) : (s.setIline line value).bstatus = s.bstatus := rfl
@[simp] theorem State.setIline_mem (line : Nat) (value : ILine) : (s.setIline line value).mem = s.mem := rfl
@[simp] theorem State.setIline_dcache (line : Nat) (value : ILine) : (s.setIline line value).dcache = s.dcache := rfl
@[simp] theorem State.setIline_dcacheData (line : Nat) (value : ILine) : (s.setIline line value).dcacheData = s.dcacheData := rfl
@[simp] theorem State.setIline_icache (line : Nat) (value : ILine) : (s.setIline line value).icache = Sparse.set ILine.empty s.icache line value := rfl
@[simp] theorem State.setIline_icacheData (line : Nat) (value : ILine) : (s.setIline line value).icacheData = s.icacheData := rfl
@[simp] theorem State.setIline_hazard (line : Nat) (value : ILine) : (s.setIline line value).hazard = s.hazard := rfl
@[simp] theorem State.setIline_pending (line : Nat) (value : ILine) : (s.setIline line value).pending = s.pending := rfl
@[simp] theorem State.setIline_bus (line : Nat) (value : ILine) : (s.setIline line value).bus = s.bus := rfl
@[simp] theorem State.setIline_irq (line : Nat) (value : ILine) : (s.setIline line value).irq = s.irq := rfl
@[simp] theorem State.setIline_custom (line : Nat) (value : ILine) : (s.setIline line value).custom = s.custom := rfl
@[simp] theorem State.setIline_draws (line : Nat) (value : ILine) : (s.setIline line value).draws = s.draws := rfl
@[simp] theorem State.setIline_label (line : Nat) (value : ILine) : (s.setIline line value).label = s.label := rfl

@[simp] theorem State.setCustomState_cfg (n : BitVec 8) (value : List Word) : (s.setCustomState n value).cfg = s.cfg := rfl
@[simp] theorem State.setCustomState_regs (n : BitVec 8) (value : List Word) : (s.setCustomState n value).regs = s.regs := rfl
@[simp] theorem State.setCustomState_crs (n : BitVec 8) (value : List Word) : (s.setCustomState n value).crs = s.crs := rfl
@[simp] theorem State.setCustomState_pc (n : BitVec 8) (value : List Word) : (s.setCustomState n value).pc = s.pc := rfl
@[simp] theorem State.setCustomState_status (n : BitVec 8) (value : List Word) : (s.setCustomState n value).status = s.status := rfl
@[simp] theorem State.setCustomState_estatus (n : BitVec 8) (value : List Word) : (s.setCustomState n value).estatus = s.estatus := rfl
@[simp] theorem State.setCustomState_bstatus (n : BitVec 8) (value : List Word) : (s.setCustomState n value).bstatus = s.bstatus := rfl
@[simp] theorem State.setCustomState_mem (n : BitVec 8) (value : List Word) : (s.setCustomState n value).mem = s.mem := rfl
@[simp] theorem State.setCustomState_dcache (n : BitVec 8) (value : List Word) : (s.setCustomState n value).dcache = s.dcache := rfl
@[simp] theorem State.setCustomState_dcacheData (n : BitVec 8) (value : List Word) : (s.setCustomState n value).dcacheData = s.dcacheData := rfl
@[simp] theorem State.setCustomState_icache (n : BitVec 8) (value : List Word) : (s.setCustomState n value).icache = s.icache := rfl
@[simp] theorem State.setCustomState_icacheData (n : BitVec 8) (value : List Word) : (s.setCustomState n value).icacheData = s.icacheData := rfl
@[simp] theorem State.setCustomState_hazard (n : BitVec 8) (value : List Word) : (s.setCustomState n value).hazard = s.hazard := rfl
@[simp] theorem State.setCustomState_pending (n : BitVec 8) (value : List Word) : (s.setCustomState n value).pending = s.pending := rfl
@[simp] theorem State.setCustomState_bus (n : BitVec 8) (value : List Word) : (s.setCustomState n value).bus = s.bus := rfl
@[simp] theorem State.setCustomState_irq (n : BitVec 8) (value : List Word) : (s.setCustomState n value).irq = s.irq := rfl
@[simp] theorem State.setCustomState_custom (n : BitVec 8) (value : List Word) : (s.setCustomState n value).custom = Sparse.set [] s.custom n.toNat value := rfl
@[simp] theorem State.setCustomState_draws (n : BitVec 8) (value : List Word) : (s.setCustomState n value).draws = s.draws := rfl
@[simp] theorem State.setCustomState_label (n : BitVec 8) (value : List Word) : (s.setCustomState n value).label = s.label := rfl

@[simp] theorem State.completePending_cfg : (s.completePending).cfg = s.cfg := rfl
@[simp] theorem State.completePending_regs : (s.completePending).regs = s.regs := rfl
@[simp] theorem State.completePending_crs : (s.completePending).crs = s.crs := rfl
@[simp] theorem State.completePending_pc : (s.completePending).pc = s.pc := rfl
@[simp] theorem State.completePending_status : (s.completePending).status = s.status := rfl
@[simp] theorem State.completePending_estatus : (s.completePending).estatus = s.estatus := rfl
@[simp] theorem State.completePending_bstatus : (s.completePending).bstatus = s.bstatus := rfl
@[simp] theorem State.completePending_mem : (s.completePending).mem = s.mem := rfl
@[simp] theorem State.completePending_dcache : (s.completePending).dcache = s.dcache := rfl
@[simp] theorem State.completePending_dcacheData : (s.completePending).dcacheData = s.dcacheData := rfl
@[simp] theorem State.completePending_icache : (s.completePending).icache = s.icache := rfl
@[simp] theorem State.completePending_icacheData : (s.completePending).icacheData = s.icacheData := rfl
@[simp] theorem State.completePending_hazard : (s.completePending).hazard = s.hazard := rfl
@[simp] theorem State.completePending_pending : (s.completePending).pending = [] := rfl
@[simp] theorem State.completePending_bus : (s.completePending).bus = s.pending ++ s.bus := rfl
@[simp] theorem State.completePending_irq : (s.completePending).irq = s.irq := rfl
@[simp] theorem State.completePending_custom : (s.completePending).custom = s.custom := rfl
@[simp] theorem State.completePending_draws : (s.completePending).draws = s.draws := rfl
@[simp] theorem State.completePending_label : (s.completePending).label = s.label := rfl

@[simp] theorem State.moveHazard_cfg (here : Nat → Bool) (before after : HazardStage) : (s.moveHazard here before after).cfg = s.cfg := rfl
@[simp] theorem State.moveHazard_regs (here : Nat → Bool) (before after : HazardStage) : (s.moveHazard here before after).regs = s.regs := rfl
@[simp] theorem State.moveHazard_crs (here : Nat → Bool) (before after : HazardStage) : (s.moveHazard here before after).crs = s.crs := rfl
@[simp] theorem State.moveHazard_pc (here : Nat → Bool) (before after : HazardStage) : (s.moveHazard here before after).pc = s.pc := rfl
@[simp] theorem State.moveHazard_status (here : Nat → Bool) (before after : HazardStage) : (s.moveHazard here before after).status = s.status := rfl
@[simp] theorem State.moveHazard_estatus (here : Nat → Bool) (before after : HazardStage) : (s.moveHazard here before after).estatus = s.estatus := rfl
@[simp] theorem State.moveHazard_bstatus (here : Nat → Bool) (before after : HazardStage) : (s.moveHazard here before after).bstatus = s.bstatus := rfl
@[simp] theorem State.moveHazard_mem (here : Nat → Bool) (before after : HazardStage) : (s.moveHazard here before after).mem = s.mem := rfl
@[simp] theorem State.moveHazard_dcache (here : Nat → Bool) (before after : HazardStage) : (s.moveHazard here before after).dcache = s.dcache := rfl
@[simp] theorem State.moveHazard_dcacheData (here : Nat → Bool) (before after : HazardStage) : (s.moveHazard here before after).dcacheData = s.dcacheData := rfl
@[simp] theorem State.moveHazard_icache (here : Nat → Bool) (before after : HazardStage) : (s.moveHazard here before after).icache = s.icache := rfl
@[simp] theorem State.moveHazard_icacheData (here : Nat → Bool) (before after : HazardStage) : (s.moveHazard here before after).icacheData = s.icacheData := rfl
@[simp] theorem State.moveHazard_hazard (here : Nat → Bool) (before after : HazardStage) : (s.moveHazard here before after).hazard = s.hazard.map (fun entry => if entry.2 = before ∧ here (4 * entry.1) then (entry.1, after) else entry) := rfl
@[simp] theorem State.moveHazard_pending (here : Nat → Bool) (before after : HazardStage) : (s.moveHazard here before after).pending = s.pending := rfl
@[simp] theorem State.moveHazard_bus (here : Nat → Bool) (before after : HazardStage) : (s.moveHazard here before after).bus = s.bus := rfl
@[simp] theorem State.moveHazard_irq (here : Nat → Bool) (before after : HazardStage) : (s.moveHazard here before after).irq = s.irq := rfl
@[simp] theorem State.moveHazard_custom (here : Nat → Bool) (before after : HazardStage) : (s.moveHazard here before after).custom = s.custom := rfl
@[simp] theorem State.moveHazard_draws (here : Nat → Bool) (before after : HazardStage) : (s.moveHazard here before after).draws = s.draws := rfl
@[simp] theorem State.moveHazard_label (here : Nat → Bool) (before after : HazardStage) : (s.moveHazard here before after).label = s.label := rfl

@[simp] theorem State.setHazard_cfg (address : Word) (stage : HazardStage) : (s.setHazard address stage).cfg = s.cfg := rfl
@[simp] theorem State.setHazard_regs (address : Word) (stage : HazardStage) : (s.setHazard address stage).regs = s.regs := rfl
@[simp] theorem State.setHazard_crs (address : Word) (stage : HazardStage) : (s.setHazard address stage).crs = s.crs := rfl
@[simp] theorem State.setHazard_pc (address : Word) (stage : HazardStage) : (s.setHazard address stage).pc = s.pc := rfl
@[simp] theorem State.setHazard_status (address : Word) (stage : HazardStage) : (s.setHazard address stage).status = s.status := rfl
@[simp] theorem State.setHazard_estatus (address : Word) (stage : HazardStage) : (s.setHazard address stage).estatus = s.estatus := rfl
@[simp] theorem State.setHazard_bstatus (address : Word) (stage : HazardStage) : (s.setHazard address stage).bstatus = s.bstatus := rfl
@[simp] theorem State.setHazard_mem (address : Word) (stage : HazardStage) : (s.setHazard address stage).mem = s.mem := rfl
@[simp] theorem State.setHazard_dcache (address : Word) (stage : HazardStage) : (s.setHazard address stage).dcache = s.dcache := rfl
@[simp] theorem State.setHazard_dcacheData (address : Word) (stage : HazardStage) : (s.setHazard address stage).dcacheData = s.dcacheData := rfl
@[simp] theorem State.setHazard_icache (address : Word) (stage : HazardStage) : (s.setHazard address stage).icache = s.icache := rfl
@[simp] theorem State.setHazard_icacheData (address : Word) (stage : HazardStage) : (s.setHazard address stage).icacheData = s.icacheData := rfl
@[simp] theorem State.setHazard_hazard (address : Word) (stage : HazardStage) : (s.setHazard address stage).hazard = Sparse.set .fetchable s.hazard (address.toNat / 4) stage := rfl
@[simp] theorem State.setHazard_pending (address : Word) (stage : HazardStage) : (s.setHazard address stage).pending = s.pending := rfl
@[simp] theorem State.setHazard_bus (address : Word) (stage : HazardStage) : (s.setHazard address stage).bus = s.bus := rfl
@[simp] theorem State.setHazard_irq (address : Word) (stage : HazardStage) : (s.setHazard address stage).irq = s.irq := rfl
@[simp] theorem State.setHazard_custom (address : Word) (stage : HazardStage) : (s.setHazard address stage).custom = s.custom := rfl
@[simp] theorem State.setHazard_draws (address : Word) (stage : HazardStage) : (s.setHazard address stage).draws = s.draws := rfl
@[simp] theorem State.setHazard_label (address : Word) (stage : HazardStage) : (s.setHazard address stage).label = s.label := rfl

@[simp] theorem State.flushHazard_cfg : (s.flushHazard).cfg = s.cfg := rfl
@[simp] theorem State.flushHazard_regs : (s.flushHazard).regs = s.regs := rfl
@[simp] theorem State.flushHazard_crs : (s.flushHazard).crs = s.crs := rfl
@[simp] theorem State.flushHazard_pc : (s.flushHazard).pc = s.pc := rfl
@[simp] theorem State.flushHazard_status : (s.flushHazard).status = s.status := rfl
@[simp] theorem State.flushHazard_estatus : (s.flushHazard).estatus = s.estatus := rfl
@[simp] theorem State.flushHazard_bstatus : (s.flushHazard).bstatus = s.bstatus := rfl
@[simp] theorem State.flushHazard_mem : (s.flushHazard).mem = s.mem := rfl
@[simp] theorem State.flushHazard_dcache : (s.flushHazard).dcache = s.dcache := rfl
@[simp] theorem State.flushHazard_dcacheData : (s.flushHazard).dcacheData = s.dcacheData := rfl
@[simp] theorem State.flushHazard_icache : (s.flushHazard).icache = s.icache := rfl
@[simp] theorem State.flushHazard_icacheData : (s.flushHazard).icacheData = s.icacheData := rfl
@[simp] theorem State.flushHazard_hazard : (s.flushHazard).hazard = s.hazard.filter (fun entry => entry.2 != .needsFlushPipeline) := rfl
@[simp] theorem State.flushHazard_pending : (s.flushHazard).pending = s.pending := rfl
@[simp] theorem State.flushHazard_bus : (s.flushHazard).bus = s.bus := rfl
@[simp] theorem State.flushHazard_irq : (s.flushHazard).irq = s.irq := rfl
@[simp] theorem State.flushHazard_custom : (s.flushHazard).custom = s.custom := rfl
@[simp] theorem State.flushHazard_draws : (s.flushHazard).draws = s.draws := rfl
@[simp] theorem State.flushHazard_label : (s.flushHazard).label = s.label := rfl

@[simp] theorem State.begin_cfg : (s.begin).cfg = s.cfg := rfl
@[simp] theorem State.begin_regs : (s.begin).regs = s.regs := rfl
@[simp] theorem State.begin_crs : (s.begin).crs = s.crs := rfl
@[simp] theorem State.begin_pc : (s.begin).pc = s.pc := rfl
@[simp] theorem State.begin_status : (s.begin).status = s.status := rfl
@[simp] theorem State.begin_estatus : (s.begin).estatus = s.estatus := rfl
@[simp] theorem State.begin_bstatus : (s.begin).bstatus = s.bstatus := rfl
@[simp] theorem State.begin_mem : (s.begin).mem = s.mem := rfl
@[simp] theorem State.begin_dcache : (s.begin).dcache = s.dcache := rfl
@[simp] theorem State.begin_dcacheData : (s.begin).dcacheData = s.dcacheData := rfl
@[simp] theorem State.begin_icache : (s.begin).icache = s.icache := rfl
@[simp] theorem State.begin_icacheData : (s.begin).icacheData = s.icacheData := rfl
@[simp] theorem State.begin_hazard : (s.begin).hazard = s.hazard := rfl
@[simp] theorem State.begin_pending : (s.begin).pending = s.pending := rfl
@[simp] theorem State.begin_bus : (s.begin).bus = s.bus := rfl
@[simp] theorem State.begin_irq : (s.begin).irq = s.irq.tail := rfl
@[simp] theorem State.begin_custom : (s.begin).custom = s.custom := rfl
@[simp] theorem State.begin_draws : (s.begin).draws = s.draws := rfl
@[simp] theorem State.begin_label : (s.begin).label = none := rfl

section Conditional

variable (set : Nat) (r : Reg) (v : Word) (t : Transfer)

@[simp] theorem State.setRegOf_cfg : (s.setRegOf set r v).cfg = s.cfg := by unfold State.setRegOf; split <;> rfl
@[simp] theorem State.setRegOf_crs : (s.setRegOf set r v).crs = s.crs := by unfold State.setRegOf; split <;> rfl
@[simp] theorem State.setRegOf_pc : (s.setRegOf set r v).pc = s.pc := by unfold State.setRegOf; split <;> rfl
@[simp] theorem State.setRegOf_status : (s.setRegOf set r v).status = s.status := by unfold State.setRegOf; split <;> rfl
@[simp] theorem State.setRegOf_estatus : (s.setRegOf set r v).estatus = s.estatus := by unfold State.setRegOf; split <;> rfl
@[simp] theorem State.setRegOf_bstatus : (s.setRegOf set r v).bstatus = s.bstatus := by unfold State.setRegOf; split <;> rfl
@[simp] theorem State.setRegOf_mem : (s.setRegOf set r v).mem = s.mem := by unfold State.setRegOf; split <;> rfl
@[simp] theorem State.setRegOf_dcache : (s.setRegOf set r v).dcache = s.dcache := by unfold State.setRegOf; split <;> rfl
@[simp] theorem State.setRegOf_dcacheData : (s.setRegOf set r v).dcacheData = s.dcacheData := by unfold State.setRegOf; split <;> rfl
@[simp] theorem State.setRegOf_icache : (s.setRegOf set r v).icache = s.icache := by unfold State.setRegOf; split <;> rfl
@[simp] theorem State.setRegOf_icacheData : (s.setRegOf set r v).icacheData = s.icacheData := by unfold State.setRegOf; split <;> rfl
@[simp] theorem State.setRegOf_hazard : (s.setRegOf set r v).hazard = s.hazard := by unfold State.setRegOf; split <;> rfl
@[simp] theorem State.setRegOf_pending : (s.setRegOf set r v).pending = s.pending := by unfold State.setRegOf; split <;> rfl
@[simp] theorem State.setRegOf_bus : (s.setRegOf set r v).bus = s.bus := by unfold State.setRegOf; split <;> rfl
@[simp] theorem State.setRegOf_irq : (s.setRegOf set r v).irq = s.irq := by unfold State.setRegOf; split <;> rfl
@[simp] theorem State.setRegOf_custom : (s.setRegOf set r v).custom = s.custom := by unfold State.setRegOf; split <;> rfl
@[simp] theorem State.setRegOf_draws : (s.setRegOf set r v).draws = s.draws := by unfold State.setRegOf; split <;> rfl
@[simp] theorem State.setRegOf_label : (s.setRegOf set r v).label = s.label := by unfold State.setRegOf; split <;> rfl

@[simp] theorem State.setReg_cfg : (s.setReg r v).cfg = s.cfg := State.setRegOf_cfg s s.crs r v
@[simp] theorem State.setReg_crs : (s.setReg r v).crs = s.crs := State.setRegOf_crs s s.crs r v
@[simp] theorem State.setReg_pc : (s.setReg r v).pc = s.pc := State.setRegOf_pc s s.crs r v
@[simp] theorem State.setReg_status : (s.setReg r v).status = s.status := State.setRegOf_status s s.crs r v
@[simp] theorem State.setReg_estatus : (s.setReg r v).estatus = s.estatus := State.setRegOf_estatus s s.crs r v
@[simp] theorem State.setReg_bstatus : (s.setReg r v).bstatus = s.bstatus := State.setRegOf_bstatus s s.crs r v
@[simp] theorem State.setReg_mem : (s.setReg r v).mem = s.mem := State.setRegOf_mem s s.crs r v
@[simp] theorem State.setReg_dcache : (s.setReg r v).dcache = s.dcache := State.setRegOf_dcache s s.crs r v
@[simp] theorem State.setReg_dcacheData : (s.setReg r v).dcacheData = s.dcacheData := State.setRegOf_dcacheData s s.crs r v
@[simp] theorem State.setReg_icache : (s.setReg r v).icache = s.icache := State.setRegOf_icache s s.crs r v
@[simp] theorem State.setReg_icacheData : (s.setReg r v).icacheData = s.icacheData := State.setRegOf_icacheData s s.crs r v
@[simp] theorem State.setReg_hazard : (s.setReg r v).hazard = s.hazard := State.setRegOf_hazard s s.crs r v
@[simp] theorem State.setReg_pending : (s.setReg r v).pending = s.pending := State.setRegOf_pending s s.crs r v
@[simp] theorem State.setReg_bus : (s.setReg r v).bus = s.bus := State.setRegOf_bus s s.crs r v
@[simp] theorem State.setReg_irq : (s.setReg r v).irq = s.irq := State.setRegOf_irq s s.crs r v
@[simp] theorem State.setReg_custom : (s.setReg r v).custom = s.custom := State.setRegOf_custom s s.crs r v
@[simp] theorem State.setReg_draws : (s.setReg r v).draws = s.draws := State.setRegOf_draws s s.crs r v
@[simp] theorem State.setReg_label : (s.setReg r v).label = s.label := State.setRegOf_label s s.crs r v

@[simp] theorem State.onBus_cfg : (s.onBus t).cfg = s.cfg := by unfold State.onBus; split <;> rfl
@[simp] theorem State.onBus_regs : (s.onBus t).regs = s.regs := by unfold State.onBus; split <;> rfl
@[simp] theorem State.onBus_crs : (s.onBus t).crs = s.crs := by unfold State.onBus; split <;> rfl
@[simp] theorem State.onBus_pc : (s.onBus t).pc = s.pc := by unfold State.onBus; split <;> rfl
@[simp] theorem State.onBus_status : (s.onBus t).status = s.status := by unfold State.onBus; split <;> rfl
@[simp] theorem State.onBus_estatus : (s.onBus t).estatus = s.estatus := by unfold State.onBus; split <;> rfl
@[simp] theorem State.onBus_bstatus : (s.onBus t).bstatus = s.bstatus := by unfold State.onBus; split <;> rfl
@[simp] theorem State.onBus_mem : (s.onBus t).mem = s.mem := by unfold State.onBus; split <;> rfl
@[simp] theorem State.onBus_dcache : (s.onBus t).dcache = s.dcache := by unfold State.onBus; split <;> rfl
@[simp] theorem State.onBus_dcacheData : (s.onBus t).dcacheData = s.dcacheData := by unfold State.onBus; split <;> rfl
@[simp] theorem State.onBus_icache : (s.onBus t).icache = s.icache := by unfold State.onBus; split <;> rfl
@[simp] theorem State.onBus_icacheData : (s.onBus t).icacheData = s.icacheData := by unfold State.onBus; split <;> rfl
@[simp] theorem State.onBus_hazard : (s.onBus t).hazard = s.hazard := by unfold State.onBus; split <;> rfl
@[simp] theorem State.onBus_irq : (s.onBus t).irq = s.irq := by unfold State.onBus; split <;> rfl
@[simp] theorem State.onBus_custom : (s.onBus t).custom = s.custom := by unfold State.onBus; split <;> rfl
@[simp] theorem State.onBus_draws : (s.onBus t).draws = s.draws := by unfold State.onBus; split <;> rfl
@[simp] theorem State.onBus_label : (s.onBus t).label = s.label := by unfold State.onBus; split <;> rfl

@[simp] theorem State.unfilledIfRaised_cfg (after : State) : (s.unfilledIfRaised after).cfg = after.cfg := by unfold State.unfilledIfRaised; split <;> rfl
@[simp] theorem State.unfilledIfRaised_regs (after : State) : (s.unfilledIfRaised after).regs = after.regs := by unfold State.unfilledIfRaised; split <;> rfl
@[simp] theorem State.unfilledIfRaised_crs (after : State) : (s.unfilledIfRaised after).crs = after.crs := by unfold State.unfilledIfRaised; split <;> rfl
@[simp] theorem State.unfilledIfRaised_pc (after : State) : (s.unfilledIfRaised after).pc = after.pc := by unfold State.unfilledIfRaised; split <;> rfl
@[simp] theorem State.unfilledIfRaised_status (after : State) : (s.unfilledIfRaised after).status = after.status := by unfold State.unfilledIfRaised; split <;> rfl
@[simp] theorem State.unfilledIfRaised_estatus (after : State) : (s.unfilledIfRaised after).estatus = after.estatus := by unfold State.unfilledIfRaised; split <;> rfl
@[simp] theorem State.unfilledIfRaised_bstatus (after : State) : (s.unfilledIfRaised after).bstatus = after.bstatus := by unfold State.unfilledIfRaised; split <;> rfl
@[simp] theorem State.unfilledIfRaised_mem (after : State) : (s.unfilledIfRaised after).mem = after.mem := by unfold State.unfilledIfRaised; split <;> rfl
@[simp] theorem State.unfilledIfRaised_dcache (after : State) : (s.unfilledIfRaised after).dcache = after.dcache := by unfold State.unfilledIfRaised; split <;> rfl
@[simp] theorem State.unfilledIfRaised_dcacheData (after : State) : (s.unfilledIfRaised after).dcacheData = after.dcacheData := by unfold State.unfilledIfRaised; split <;> rfl
@[simp] theorem State.unfilledIfRaised_hazard (after : State) : (s.unfilledIfRaised after).hazard = after.hazard := by unfold State.unfilledIfRaised; split <;> rfl
@[simp] theorem State.unfilledIfRaised_pending (after : State) : (s.unfilledIfRaised after).pending = after.pending := by unfold State.unfilledIfRaised; split <;> rfl
@[simp] theorem State.unfilledIfRaised_bus (after : State) : (s.unfilledIfRaised after).bus = after.bus := by unfold State.unfilledIfRaised; split <;> rfl
@[simp] theorem State.unfilledIfRaised_irq (after : State) : (s.unfilledIfRaised after).irq = after.irq := by unfold State.unfilledIfRaised; split <;> rfl
@[simp] theorem State.unfilledIfRaised_custom (after : State) : (s.unfilledIfRaised after).custom = after.custom := by unfold State.unfilledIfRaised; split <;> rfl
@[simp] theorem State.unfilledIfRaised_draws (after : State) : (s.unfilledIfRaised after).draws = after.draws := by unfold State.unfilledIfRaised; split <;> rfl
@[simp] theorem State.unfilledIfRaised_label (after : State) : (s.unfilledIfRaised after).label = after.label := by unfold State.unfilledIfRaised; split <;> rfl

end Conditional

end Sys2Proof.Machine
end

