-- ==== Sys2Proof/Laws/Registers.lean ====
section
/-! SUPPORT. The register file: what a read gives after a write, and the whole effect of `writeReg`. -/

namespace Sys2Proof.Machine

variable {s t : State} {set k : Nat} {r x : Reg} {v : Word}

theorem regKey_inj : regKey set x = regKey k r ↔ set = k ∧ x = r := by
  have hx := x.isLt
  have hr := r.isLt
  rw [show (x = r) = (x.toNat = r.toNat) from propext BitVec.toNat_inj.symm]
  unfold regKey
  omega

theorem SameRegisters.of_regs_eq (h : t.regs = s.regs) : SameRegisters s t := by
  intro set x
  simp [State.regOf, h]

/-- Reading any register of any set after a write of one. -/
theorem setRegOf_becomes (s : State) (k : Nat) (r : Reg) (v : Word) : RegisterBecomes k r v s (s.setRegOf k r v) := by
  intro set x
  unfold State.setRegOf
  by_cases h0 : k = 0 ∧ r = 0#5
  · rw [if_pos h0, if_neg (fun h => h.2.2 h0)]
  · rw [if_neg h0]
    unfold State.regOf
    by_cases hx : set = 0 ∧ x = 0#5
    · rw [if_pos hx, if_pos hx, if_neg]
      rintro ⟨rfl, rfl, hn⟩
      exact hn hx
    · simp only [if_neg hx, Sparse.get_set, regKey_inj, h0, not_false_iff, and_true]

theorem RegisterBecomes.of_regs_eq {u : State} (h : RegisterBecomes k r v s t) (hu : u.regs = t.regs) :
    RegisterBecomes k r v s u :=
  fun set x => (SameRegisters.of_regs_eq hu set x).trans (h set x)

theorem RegisterBecomes.of_base {u : State} (h : RegisterBecomes k r v s t) (hu : SameRegisters u s) :
    RegisterBecomes k r v u t := by
  intro set x
  rw [h set x, hu set x]

/-- The register written reads as the value, but for r0 of set 0. -/
theorem RegisterBecomes.same (h : RegisterBecomes k r v s t) (h0 : ¬ (k = 0 ∧ r = 0#5)) : t.regOf k r = v := by
  rw [h k r, if_pos ⟨rfl, rfl, h0⟩]

theorem RegisterBecomes.other (h : RegisterBecomes k r v s t) (hx : set ≠ k ∨ x ≠ r) : t.regOf set x = s.regOf set x := by
  rw [h set x, if_neg]
  rintro ⟨h1, h2, -⟩
  exact hx.elim (· h1) (· h2)

/-- States that agree on memory, the caches and the configuration read alike. -/
theorem SameMemory.of_eq (h₁ : t.cfg = s.cfg) (h₂ : t.mem = s.mem) (h₃ : t.dcache = s.dcache)
    (h₄ : t.dcacheData = s.dcacheData) (h₅ : t.icache = s.icache) (h₆ : t.icacheData = s.icacheData) :
    SameMemory s t := by
  intro a
  simp [State.memByte, State.byteAt, State.codeByte, State.dcacheHit, State.icacheHit, State.dline, State.iline,
    h₁, h₂, h₃, h₄, h₅, h₆]

theorem SameMemory.refl (s : State) : SameMemory s s := fun _ => ⟨rfl, rfl, rfl⟩

/-- A register write changes no field but `regs`. -/
theorem setRegOf_eq (s : State) (k : Nat) (r : Reg) (v : Word) :
    s.setRegOf k r v = { s with regs := (s.setRegOf k r v).regs } := by
  unfold State.setRegOf
  split <;> rfl

theorem setReg_advance_writesRegister (r : Reg) (v : Word) (s : State) :
    WritesRegister r v s (s.setReg r v).advance := by
  refine ⟨?_, (setRegOf_becomes s s.crs r v).of_regs_eq rfl, SameMemory.of_eq ?_ ?_ ?_ ?_ ?_ ?_⟩ <;> simp
  exact congrArg State.advance (setRegOf_eq s s.crs r v)

/-- `writeReg` completes exactly where the write has a meaning. -/
theorem writeReg_of_writable (h : Writable r s) : writeReg r v s = .next (s.setReg r v).advance := by
  unfold writeReg
  rw [if_neg]
  rintro ⟨h1, h2⟩
  exact h.elim (· h1) h2

theorem writeReg_not_writable (h : ¬ Writable r s) : writeReg r v s = .fault .writeR0InShadowSet := by
  unfold writeReg
  rw [if_pos]
  simpa [Writable] using h

/-- All that `writeReg` can answer. -/
theorem writeReg_cases (r : Reg) (v : Word) (s : State) :
    (Writable r s ∧ writeReg r v s = .next (s.setReg r v).advance) ∨
    (¬ Writable r s ∧ writeReg r v s = .fault .writeR0InShadowSet) := by
  by_cases h : Writable r s
  · exact .inl ⟨h, writeReg_of_writable h⟩
  · exact .inr ⟨h, writeReg_not_writable h⟩

theorem writeReg_next (h : writeReg r v s = .next t) : Writable r s ∧ WritesRegister r v s t := by
  rcases writeReg_cases r v s with ⟨hw, he⟩ | ⟨-, he⟩
  · rw [he] at h
    cases h
    exact ⟨hw, setReg_advance_writesRegister r v s⟩
  · rw [he] at h
    cases h

/-- An instruction that is a plain register write completes so. -/
theorem completes_of_writeReg {i : Instr} (he : exec i s = writeReg r v s) (h : Writable r s) :
    Completes i s (WritesRegister r v s) :=
  ⟨_, he.trans (writeReg_of_writable h), setReg_advance_writesRegister r v s⟩

end Sys2Proof.Machine
end

