-- ==== Sys2Proof/Laws/Memory.lean ====
section
/-! SUPPORT. Bytes of memory and the data cache: what every byte reads as after each operation. -/

namespace Sys2Proof.Machine

variable {s t : State} {a x : Word} {v : Byte}

/-! ## Memory -/

/-- Read after write, one byte of memory. -/
theorem memByte_setMemByte : (s.setMemByte a v).memByte x = if x = a then v else s.memByte x := by
  unfold State.memByte
  rw [State.setMemByte_mem, Sparse.get_set]
  simp only [BitVec.toNat_inj]

theorem memByte_of_mem_eq (h : t.mem = s.mem) : t.memByte x = s.memByte x := by
  simp [State.memByte, h]

theorem copyBytes_other {table into : List Host.Cell} {source target : Nat → Nat} {count key : Nat}
    (h : ∀ k < count, target k ≠ key) :
    Sparse.get 0#8 (copyBytes table source target count into) key = Sparse.get 0#8 into key := by
  induction count with
  | zero => rfl
  | succ n ih =>
    rw [copyBytes, Sparse.get_set_other (h n (Nat.lt_succ_self n)).symm]
    exact ih (fun k hk => h k (Nat.lt_succ_of_lt hk))

/-- A copied byte reads as its source, where the targets are distinct. -/
theorem copyBytes_same {table into : List Host.Cell} {source target : Nat → Nat} {count k : Nat} (hk : k < count)
    (inj : ∀ i < count, ∀ j < count, target i = target j → i = j) :
    Sparse.get 0#8 (copyBytes table source target count into) (target k) = Sparse.get 0#8 table (source k) := by
  induction count with
  | zero => cases hk
  | succ n ih =>
    rw [copyBytes]
    by_cases hkn : k = n
    · rw [hkn, Sparse.get_set_same]
    · have hlt : k < n := by omega
      rw [Sparse.get_set_other (fun h => hkn (inj k (by omega) n (by omega) h))]
      exact ih hlt (fun i hi j hj => inj i (by omega) j (by omega))

/-! ## Cache geometry -/

section Geometry

variable (c : Config) (m : Nat)

theorem dcacheLineBytes_pos : 0 < dcacheLineBytes c := by unfold dcacheLineBytes; positivity

theorem dcacheLines_pos : 0 < dcacheLines c := by unfold dcacheLines; positivity

theorem dlineOf_lt : dlineOf c m < dcacheLines c := Nat.mod_lt _ (dcacheLines_pos c)

/-- The place of a byte in the cache is that of its line and its offset in the line. -/
theorem dslotOf_eq : dslotOf c m = dlineOf c m * dcacheLineBytes c + m % dcacheLineBytes c := by
  unfold dslotOf dlineOf
  rw [Nat.mod_mul]
  ring

/-- An address is that of its line and its offset in the line. -/
theorem address_eq : m = dlineBase c (dtagOf c m) (dlineOf c m) + m % dcacheLineBytes c := by
  have h := Nat.div_add_mod m (dcacheLineBytes c * dcacheLines c)
  have hs := dslotOf_eq c m
  unfold dslotOf at hs
  unfold dlineBase dtagOf
  rw [Nat.mul_comm (m / _) _]
  omega

variable {c m} {tag line k : Nat}

theorem dlineOf_dlineBase (hl : line < dcacheLines c) (hk : k < dcacheLineBytes c) :
    dlineOf c (dlineBase c tag line + k) = line := by
  have hp := dcacheLineBytes_pos c
  unfold dlineOf dlineBase
  rw [show tag * (dcacheLineBytes c * dcacheLines c) + line * dcacheLineBytes c + k
      = k + (line + dcacheLines c * tag) * dcacheLineBytes c by ring, Nat.add_mul_div_right _ _ hp,
    Nat.div_eq_of_lt hk, Nat.zero_add, Nat.add_mul_mod_self_left, Nat.mod_eq_of_lt hl]

theorem dtagOf_dlineBase (hl : line < dcacheLines c) (hk : k < dcacheLineBytes c) :
    dtagOf c (dlineBase c tag line + k) = tag := by
  have hp : 0 < dcacheLineBytes c * dcacheLines c := Nat.mul_pos (dcacheLineBytes_pos c) (dcacheLines_pos c)
  have hle : (line + 1) * dcacheLineBytes c ≤ dcacheLineBytes c * dcacheLines c := by
    rw [Nat.mul_comm (dcacheLineBytes c)]
    exact Nat.mul_le_mul_right _ hl
  unfold dtagOf dlineBase
  rw [show tag * (dcacheLineBytes c * dcacheLines c) + line * dcacheLineBytes c + k
      = (line * dcacheLineBytes c + k) + tag * (dcacheLineBytes c * dcacheLines c) by ring,
    Nat.add_mul_div_right _ _ hp, Nat.div_eq_of_lt, Nat.zero_add]
  rw [Nat.add_mul] at hle
  omega

/-- Two addresses in one place of the cache that have one tag are one address. -/
theorem eq_of_slot_tag {n : Nat} (hs : dslotOf c m = dslotOf c n) (ht : dtagOf c m = dtagOf c n) : m = n := by
  have h₁ := Nat.div_add_mod m (dcacheLineBytes c * dcacheLines c)
  have h₂ := Nat.div_add_mod n (dcacheLineBytes c * dcacheLines c)
  unfold dslotOf at hs
  unfold dtagOf at ht
  rw [hs, ht] at h₁
  omega

theorem dlineOf_eq_of_slot {n : Nat} (hs : dslotOf c m = dslotOf c n) : dlineOf c m = dlineOf c n := by
  have hm : dslotOf c m / dcacheLineBytes c = dlineOf c m := Nat.mod_mul_right_div_self ..
  have hn : dslotOf c n / dcacheLineBytes c = dlineOf c n := Nat.mod_mul_right_div_self ..
  rw [← hm, ← hn, hs]

/-- A well-formed cache divides the address space. -/
theorem cacheBytes_dvd (h : c.WellFormed) : dcacheLineBytes c * dcacheLines c ∣ 2 ^ 32 := by
  have h30 : c.dcacheLineLog + c.dcacheLinesLog ≤ 30 := h.2.2.2.2.2.2.2.2.2.2.2.1
  unfold dcacheLineBytes dcacheLines
  rw [show (4 : Nat) * 2 ^ c.dcacheLineLog * 2 ^ c.dcacheLinesLog = 2 ^ (2 + (c.dcacheLineLog + c.dcacheLinesLog)) by
    ring]
  exact Nat.pow_dvd_pow 2 (by omega)

theorem dlineBase_lt (h : c.WellFormed) (ht : tag * (dcacheLineBytes c * dcacheLines c) < 2 ^ 32)
    (hl : line < dcacheLines c) (hk : k < dcacheLineBytes c) : dlineBase c tag line + k < 2 ^ 32 := by
  obtain ⟨q, hq⟩ := cacheBytes_dvd h
  have htq : tag < q := by
    by_contra hge
    have := Nat.mul_le_mul_left (dcacheLineBytes c * dcacheLines c) (not_lt.mp hge)
    rw [← hq, Nat.mul_comm] at this
    omega
  have h1 : (tag + 1) * (dcacheLineBytes c * dcacheLines c) ≤ 2 ^ 32 := by
    rw [hq, Nat.mul_comm]
    exact Nat.mul_le_mul_left _ htq
  have h2 : (line + 1) * dcacheLineBytes c ≤ dcacheLineBytes c * dcacheLines c := by
    rw [Nat.mul_comm (dcacheLineBytes c)]
    exact Nat.mul_le_mul_right _ hl
  unfold dlineBase
  rw [Nat.add_mul] at h1 h2
  omega

theorem dtagOf_in_range (a : Word) : dtagOf c a.toNat * (dcacheLineBytes c * dcacheLines c) < 2 ^ 32 :=
  lt_of_le_of_lt (Nat.div_mul_le_self ..) a.isLt

end Geometry

/-! ## The data cache -/

theorem dline_setDline {line other : Nat} {l : DLine} :
    (s.setDline line l).dline other = if other = line then l else s.dline other := by
  unfold State.dline
  rw [State.setDline_dcache, Sparse.get_set]

theorem hit_iff : s.dcacheHit a = true ↔ s.cfg.hasDcache = true ∧ (s.dline (dlineOf s.cfg a.toNat)).valid = true ∧
    (s.dline (dlineOf s.cfg a.toNat)).tag = dtagOf s.cfg a.toNat := by
  simp [State.dcacheHit, and_assoc]

/-- Without a data cache nothing hits, and the processor sees memory. -/
theorem dcacheHit_of_no_dcache (h : s.cfg.hasDcache = false) : s.dcacheHit a = false := by
  simp [State.dcacheHit, h]

theorem byteAt_of_no_hit (h : s.dcacheHit a = false) : s.byteAt a = s.memByte a := by
  simp [State.byteAt, h]

theorem byteAt_of_hit (h : s.dcacheHit a = true) :
    s.byteAt a = Sparse.get 0#8 s.dcacheData (dslotOf s.cfg a.toNat) := by
  simp [State.byteAt, h]

theorem byteAt_of_no_dcache (h : s.cfg.hasDcache = false) : s.byteAt a = s.memByte a :=
  byteAt_of_no_hit (dcacheHit_of_no_dcache h)

theorem dcacheHit_congr (hc : t.cfg = s.cfg) (hd : ∀ line, (t.dline line).valid = (s.dline line).valid ∧
    (t.dline line).tag = (s.dline line).tag) : t.dcacheHit a = s.dcacheHit a := by
  simp [State.dcacheHit, hc, hd]

theorem dcacheHit_setMemByte : (s.setMemByte a v).dcacheHit x = s.dcacheHit x :=
  dcacheHit_congr rfl (fun _ => ⟨rfl, rfl⟩)

theorem storeByte_hit (h : s.dcacheHit a = true) : s.storeByte a v =
    { s with dcacheData := Sparse.set 0#8 s.dcacheData (dslotOf s.cfg a.toNat) v }.setDline
      (dlineOf s.cfg a.toNat) { s.dline (dlineOf s.cfg a.toNat) with dirty := true } := by
  simp [State.storeByte, h]

theorem storeByte_miss (h : s.dcacheHit a = false) : s.storeByte a v = s.setMemByte a v := by
  simp [State.storeByte, h]

/-- A stored byte changes no line's valid bit or tag. -/
theorem dline_storeByte (line : Nat) : ((s.storeByte a v).dline line).valid = (s.dline line).valid ∧
    ((s.storeByte a v).dline line).tag = (s.dline line).tag := by
  cases h : s.dcacheHit a
  · rw [storeByte_miss h]
    exact ⟨rfl, rfl⟩
  · rw [storeByte_hit h, dline_setDline]
    by_cases hl : line = dlineOf s.cfg a.toNat
    · rw [if_pos hl, hl]
      exact ⟨rfl, rfl⟩
    · rw [if_neg hl]
      exact ⟨rfl, rfl⟩

theorem storeByte_cfg : (s.storeByte a v).cfg = s.cfg := by
  unfold State.storeByte
  split <;> rfl

theorem dcacheHit_storeByte : (s.storeByte a v).dcacheHit x = s.dcacheHit x :=
  dcacheHit_congr storeByte_cfg dline_storeByte

/-- Read after write, as the processor's plain accesses see memory: the byte stored reads as stored, and no other byte
changes, whether the address hits the data cache or not. -/
theorem byteAt_storeByte : (s.storeByte a v).byteAt x = if x = a then v else s.byteAt x := by
  cases ha : s.dcacheHit a
  · rw [storeByte_miss ha]
    cases hx : s.dcacheHit x
    · rw [byteAt_of_no_hit (by rw [dcacheHit_setMemByte, hx]), byteAt_of_no_hit hx, memByte_setMemByte]
    · rw [byteAt_of_hit (by rw [dcacheHit_setMemByte, hx]), byteAt_of_hit hx, if_neg]
      · rfl
      · rintro rfl
        rw [hx] at ha
        cases ha
  · have hdata : (s.storeByte a v).dcacheData = Sparse.set 0#8 s.dcacheData (dslotOf s.cfg a.toNat) v := by
      rw [storeByte_hit ha]
      rfl
    have hmem : (s.storeByte a v).mem = s.mem := by
      rw [storeByte_hit ha]
      rfl
    cases hx : s.dcacheHit x
    · rw [byteAt_of_no_hit (by rw [dcacheHit_storeByte, hx]), byteAt_of_no_hit hx, memByte_of_mem_eq hmem, if_neg]
      rintro rfl
      rw [hx] at ha
      cases ha
    · rw [byteAt_of_hit (by rw [dcacheHit_storeByte, hx]), byteAt_of_hit hx, hdata, storeByte_cfg, Sparse.get_set]
      congr 1
      refine propext ⟨fun hs => ?_, fun h => by rw [h]⟩
      have hl := dlineOf_eq_of_slot hs
      have htag : dtagOf s.cfg x.toNat = dtagOf s.cfg a.toNat := by
        rw [← (hit_iff.mp hx).2.2, ← (hit_iff.mp ha).2.2, hl]
      exact BitVec.eq_of_toNat_eq (eq_of_slot_tag hs htag)

/-! ## Multi-byte accesses (20_memory.md R72, R82) -/

@[simp] theorem widthBytes_byte : widthBytes .byte = 1 := rfl
@[simp] theorem widthBytes_half : widthBytes .half = 2 := rfl
@[simp] theorem widthBytes_word : widthBytes .word = 4 := rfl

/-- A store of whole bytes through an operation that writes one byte, seen through a read of one byte. -/
theorem writeValue_reads {put : State → Word → Byte → State} {look : State → Word → Byte}
    (law : ∀ (s : State) (a : Word) (b : Byte) (x : Word), look (put s a b) x = if x = a then b else look s x)
    (w : Width) (a value : Word) (s : State) (x : Word) :
    look (writeValue put w a value s) x = afterStore w a value x (look s x) := by
  have hb (k : Nat) : byteOfWord value k = BitVec.ofNat 8 (value.toNat / 256 ^ k) := by
    apply BitVec.eq_of_toNat_eq
    simp [byteOfWord, BitVec.extractLsb'_toNat, Nat.shiftRight_eq_div_pow, Nat.pow_mul]
  have off (k : Nat) (hk : k < 2 ^ 32) : x = a + BitVec.ofNat 32 k ↔ (x - a).toNat = k := by
    constructor
    · rintro rfl
      rw [BitVec.add_comm, BitVec.add_sub_cancel]
      simpa using hk
    · rintro rfl
      rw [BitVec.ofNat_toNat, BitVec.setWidth_eq, BitVec.add_comm, BitVec.sub_add_cancel]
  have off0 : x = a ↔ (x - a).toNat = 0 := by
    have h := off 0 (by decide)
    simpa using h
  have h1 := off 1 (by decide)
  have h2 := off 2 (by decide)
  have h3 := off 3 (by decide)
  unfold afterStore
  generalize (x - a).toNat = d at *
  cases w <;> simp only [writeValue, law, hb]
  · by_cases hd : d < widthBytes .byte
    · have : d = 0 := by simpa [widthBytes] using hd
      subst this; simp [off0]
    · have : d ≠ 0 := by rintro rfl; exact hd (by decide)
      simp [off0, this]
  · by_cases hd : d < widthBytes .half
    · have : d = 0 ∨ d = 1 := by rw [widthBytes_half] at hd; omega
      rcases this with rfl | rfl <;> simp [off0, h1]
    · have : d ≠ 0 ∧ d ≠ 1 := by rw [widthBytes_half] at hd; omega
      rw [if_neg hd]
      simp [off0, h1, this]
  · by_cases hd : d < widthBytes .word
    · have : d = 0 ∨ d = 1 ∨ d = 2 ∨ d = 3 := by rw [widthBytes_word] at hd; omega
      rcases this with rfl | rfl | rfl | rfl <;> simp [off0, h1, h2, h3]
    · have : d ≠ 0 ∧ d ≠ 1 ∧ d ≠ 2 ∧ d ≠ 3 := by rw [widthBytes_word] at hd; omega
      rw [if_neg hd]
      simp [off0, h1, h2, h3, this]

/-- What an operation that writes one byte keeps, a store keeps. -/
theorem writeValue_keeps {put : State → Word → Byte → State} {P : State → Prop} (w : Width) (a value : Word) (s : State)
    (law : ∀ (s : State) (a : Word) (b : Byte), P s → P (put s a b)) (h : P s) : P (writeValue put w a value s) := by
  cases w <;> simp only [writeValue] <;> repeat' apply law
  all_goals exact h

/-- The value a load reads is the number its bytes spell, the byte at the lowest address first. -/
theorem readValue_eq (byteOf : Word → Byte) (w : Width) (a : Word) :
    readValue byteOf w a = BitVec.ofNat 32 (littleEndian byteOf w a) := by
  have b0 := (byteOf a).isLt
  have b1 := (byteOf (a + 1#32)).isLt
  have b2 := (byteOf (a + 2#32)).isLt
  have b3 := (byteOf (a + 3#32)).isLt
  apply BitVec.eq_of_toNat_eq
  cases w <;> simp only [readValue, littleEndian, wordOfBytes, BitVec.toNat_setWidth, BitVec.toNat_ofNat, BitVec.toNat_append,
    Nat.shiftLeft_eq]
  · rw [← Nat.shiftLeft_eq, ← Nat.shiftLeft_add_eq_or_of_lt b0, Nat.shiftLeft_eq]
    congr 1
    ring
  · simp only [← Nat.shiftLeft_eq]
    rw [← Nat.shiftLeft_add_eq_or_of_lt b2, ← Nat.shiftLeft_add_eq_or_of_lt b1, ← Nat.shiftLeft_add_eq_or_of_lt b0]
    simp only [Nat.shiftLeft_eq]
    omega

theorem littleEndian_congr {f g : Word → Byte} (h : ∀ x, f x = g x) (w : Width) (a : Word) :
    littleEndian f w a = littleEndian g w a := by
  rw [show f = g from funext h]

end Sys2Proof.Machine
end

