-- ==== Sys2Proof/Laws/Canonical.lean ====
section
/-! SUPPORT. The canonical form of the state's tables (log 9): every operation over memory, the caches, the hazard
record, the register file and the custom state keeps it, and the state after reset has it. -/

namespace Sys2Proof.Machine

variable {s t : State}

/-- Writing one byte inside the address space keeps memory's canonical form. -/
theorem Memory.wf_set {mem : List Host.Cell} {key : Nat} {value : Byte} (h : Memory.wf mem) (hk : key < 2 ^ 32) :
    Memory.wf (Sparse.set 0#8 mem key value) := by
  refine ⟨Sparse.canonical_set h.1, fun cell hc => ?_⟩
  rcases Sparse.mem_set hc with rfl | hm
  · exact hk
  · exact h.2 cell hm

/-- Copying bytes to addresses inside the space keeps memory's canonical form. -/
theorem Memory.wf_copyBytes {mem : List Host.Cell} (table : List Host.Cell) (source target : Nat → Nat) (count : Nat)
    (h : Memory.wf mem) (ht : ∀ k, target k < 2 ^ 32) : Memory.wf (copyBytes table source target count mem) := by
  induction count with
  | zero => exact h
  | succ k ih => exact Memory.wf_set ih (ht k)

theorem canonical_copyBytes {into : List Host.Cell} (table : List Host.Cell) (source target : Nat → Nat) (count : Nat)
    (h : Sparse.Canonical 0#8 into) : Sparse.Canonical 0#8 (copyBytes table source target count into) := by
  induction count with
  | zero => exact h
  | succ k ih => exact Sparse.canonical_set ih

/-- The canonical form is a matter of the eight tables alone. -/
theorem State.Canonical.of_eq (h : s.Canonical) (h₁ : t.regs = s.regs) (h₂ : t.mem = s.mem) (h₃ : t.dcache = s.dcache)
    (h₄ : t.dcacheData = s.dcacheData) (h₅ : t.icache = s.icache) (h₆ : t.icacheData = s.icacheData)
    (h₇ : t.hazard = s.hazard) (h₈ : t.custom = s.custom) : t.Canonical := by
  unfold State.Canonical
  rw [h₁, h₂, h₃, h₄, h₅, h₆, h₇, h₈]
  exact h

theorem canonical_goto (target : Word) (h : s.Canonical) : (s.goto target).Canonical := h

theorem canonical_drawn (h : s.Canonical) : s.drawn.Canonical := h

theorem canonical_onBus (x : Transfer) (h : s.Canonical) : (s.onBus x).Canonical := by
  unfold State.onBus
  split <;> exact h

theorem canonical_setRegOf (k : Nat) (r : Reg) (v : Word) (h : s.Canonical) : (s.setRegOf k r v).Canonical := by
  unfold State.setRegOf
  split
  · exact h
  · exact ⟨Sparse.canonical_set h.1, h.2⟩

theorem canonical_setMemByte (a : Word) (v : Byte) (h : s.Canonical) : (s.setMemByte a v).Canonical :=
  ⟨h.1, Memory.wf_set h.2.1 a.isLt, h.2.2⟩

theorem canonical_setDline (line : Nat) (v : DLine) (h : s.Canonical) : (s.setDline line v).Canonical :=
  ⟨h.1, h.2.1, Sparse.canonical_set h.2.2.1, h.2.2.2⟩

theorem canonical_setIline (line : Nat) (v : ILine) (h : s.Canonical) : (s.setIline line v).Canonical :=
  ⟨h.1, h.2.1, h.2.2.1, h.2.2.2.1, Sparse.canonical_set h.2.2.2.2.1, h.2.2.2.2.2⟩

theorem canonical_setDcacheData {data : List Host.Cell} (h : s.Canonical) (hd : Sparse.Canonical 0#8 data) :
    ({ s with dcacheData := data } : State).Canonical :=
  ⟨h.1, h.2.1, h.2.2.1, hd, h.2.2.2.2⟩

theorem canonical_setIcacheData {data : List Host.Cell} (h : s.Canonical) (hd : Sparse.Canonical 0#8 data) :
    ({ s with icacheData := data } : State).Canonical :=
  ⟨h.1, h.2.1, h.2.2.1, h.2.2.2.1, h.2.2.2.2.1, hd, h.2.2.2.2.2.2⟩

theorem canonical_setMem {mem : List Host.Cell} (h : s.Canonical) (hm : Memory.wf mem) :
    ({ s with mem := mem } : State).Canonical :=
  ⟨h.1, hm, h.2.2⟩

theorem canonical_setHazard {hazard : List (Nat × HazardStage)} (h : s.Canonical)
    (hz : Sparse.Canonical HazardStage.fetchable hazard) : ({ s with hazard := hazard } : State).Canonical :=
  ⟨h.1, h.2.1, h.2.2.1, h.2.2.2.1, h.2.2.2.2.1, h.2.2.2.2.2.1, hz, h.2.2.2.2.2.2.2⟩

theorem canonical_setCustomState (n : BitVec 8) (v : List Word) (h : s.Canonical) : (s.setCustomState n v).Canonical :=
  ⟨h.1, h.2.1, h.2.2.1, h.2.2.2.1, h.2.2.2.2.1, h.2.2.2.2.2.1, h.2.2.2.2.2.2.1, Sparse.canonical_set h.2.2.2.2.2.2.2⟩

theorem canonical_storeByte (a : Word) (v : Byte) (h : s.Canonical) : (s.storeByte a v).Canonical := by
  unfold State.storeByte
  split
  · exact canonical_setDline _ _ (canonical_setDcacheData h (Sparse.canonical_set h.2.2.2.1))
  · exact canonical_setMemByte a v h

theorem canonical_writeBack (line : Nat) (h : s.Canonical) : (s.writeBack line).Canonical := by
  unfold State.writeBack
  split
  · exact canonical_onBus _ (canonical_setMem h
      (Memory.wf_copyBytes _ _ _ _ h.2.1 (fun k => Nat.mod_lt _ (by decide))))
  · exact h

theorem canonical_invalidateDline (line : Nat) (h : s.Canonical) : (s.invalidateDline line).Canonical :=
  canonical_setDline _ _ h

theorem canonical_flushDline (line : Nat) (h : s.Canonical) : (s.flushDline line).Canonical :=
  canonical_invalidateDline _ (canonical_writeBack _ h)

theorem canonical_fillDline (a : Word) (h : s.Canonical) : (s.fillDline a).Canonical :=
  canonical_setDline _ _ (canonical_setDcacheData h (canonical_copyBytes _ _ _ _ h.2.2.2.1))

theorem canonical_fillIline (a : Word) (h : s.Canonical) : (s.fillIline a).Canonical :=
  canonical_setIline _ _ (canonical_setIcacheData h (canonical_copyBytes _ _ _ _ h.2.2.2.2.2.1))

theorem canonical_plainAccess (a : Word) (direct : Transfer) (h : s.Canonical) : (s.plainAccess a direct).Canonical := by
  unfold State.plainAccess
  split
  · exact canonical_onBus _ h
  · split
    · exact h
    · split
      · exact canonical_onBus _ (canonical_fillDline _ (canonical_writeBack _ h))
      · exact canonical_onBus _ h

theorem canonical_fetchAccess (a : Word) (h : s.Canonical) : (s.fetchAccess a).Canonical := by
  unfold State.fetchAccess
  split
  · exact h
  · split
    · exact canonical_fillIline _ h
    · exact h

/-- Moving bytes to a stage that is not `fetchable` keeps the hazard record's canonical form. -/
theorem canonical_moveHazard (here : Nat → Bool) (before : HazardStage) {after : HazardStage} (ha : after ≠ .fetchable)
    (h : s.Canonical) : (s.moveHazard here before after).Canonical := by
  have hz := h.2.2.2.2.2.2.1
  refine canonical_setHazard h ⟨List.pairwise_map.mpr (hz.1.imp fun hlt => ?_), fun e he => ?_⟩
  · split <;> split <;> exact hlt
  · obtain ⟨x, hx, rfl⟩ := List.mem_map.mp he
    split
    · exact ha
    · exact hz.2 x hx

theorem canonical_flushHazard (h : s.Canonical) : s.flushHazard.Canonical :=
  canonical_setHazard h ⟨h.2.2.2.2.2.2.1.1.filter _, fun e he => h.2.2.2.2.2.2.1.2 e (List.mem_filter.mp he).1⟩

theorem canonical_markModified (path : Path) (w : Width) (a : Word) (h : s.Canonical) :
    (s.markModified path w a).Canonical :=
  let first := Sparse.canonical_set h.2.2.2.2.2.2.1
  canonical_setHazard (canonical_setHazard h first) (Sparse.canonical_set first)

/-- A store through the data cache keeps the canonical form. -/
theorem canonical_store_through (w : Width) (a v : Word) (h : s.Canonical) :
    (writeValue State.storeByte w a v s).Canonical :=
  writeValue_keeps (P := State.Canonical) w a v s (fun _ _ _ hs => canonical_storeByte _ _ hs) h

/-- A store past the data cache keeps the canonical form. -/
theorem canonical_store_direct (w : Width) (a v : Word) (h : s.Canonical) :
    (writeValue State.setMemByte w a v s).Canonical :=
  writeValue_keeps (P := State.Canonical) w a v s (fun _ _ _ hs => canonical_setMemByte _ _ hs) h

/-- `MemRead` and `MemReadIO` keep the canonical form. -/
theorem canonical_memRead {path : Path} {w : Width} {ea : Word} {answer : Word × State} (h : s.Canonical)
    (he : s.memRead path w ea = .ok answer) : answer.2.Canonical := by
  unfold State.memRead at he
  split at he
  · cases he
  · split at he
    · cases he
    · split at he
      · cases he
        exact canonical_onBus _ h
      · cases path <;> cases he
        · exact canonical_plainAccess _ _ h
        · exact canonical_onBus _ h

/-- `MemWrite` and `MemWriteIO` keep the canonical form. -/
theorem canonical_memWrite {path : Path} {w : Width} {ea v : Word} (h : s.Canonical)
    (he : s.memWrite path w ea v = .ok t) : t.Canonical := by
  unfold State.memWrite at he
  split at he
  · cases he
  · split at he
    · cases he
    · split at he
      · cases he
        exact canonical_markModified _ _ _ (canonical_onBus _ h)
      · cases path <;> cases he
        · exact canonical_markModified _ _ _ (canonical_store_through _ _ _ (canonical_plainAccess _ _ h))
        · exact canonical_markModified _ _ _ (canonical_store_direct _ _ _ (canonical_onBus _ h))

/-- A fetch keeps the canonical form. -/
theorem canonical_fetch {fetched : Word × State} (h : s.Canonical) (he : s.fetch = .ok fetched) :
    fetched.2.Canonical := by
  unfold State.fetch at he
  split at he
  · cases he
  · split at he
    · cases he
    · split at he
      · cases he
      · split at he <;> cases he
        exact canonical_fetchAccess _ h

/-- Taking back the fill of a fetch keeps the canonical form. -/
theorem canonical_unfilledIfRaised (hs : s.Canonical) (h : t.Canonical) : (s.unfilledIfRaised t).Canonical := by
  unfold State.unfilledIfRaised
  split
  · exact ⟨h.1, h.2.1, h.2.2.1, h.2.2.2.1, hs.2.2.2.2.1, hs.2.2.2.2.2.1, h.2.2.2.2.2.2⟩
  · exact h

theorem canonical_takeException (e : Exception) (h : s.Canonical) : (takeException e s).Canonical :=
  canonical_goto _ (canonical_setRegOf _ _ _ (State.Canonical.of_eq h rfl rfl rfl rfl rfl rfl rfl rfl))

theorem canonical_takeBreak (h : s.Canonical) : (takeBreak s).Canonical :=
  canonical_goto _ (canonical_setRegOf _ _ _ (State.Canonical.of_eq h rfl rfl rfl rfl rfl rfl rfl rfl))

/-- Memory after reset, in every configuration, is in canonical form. -/
theorem wf_resetOf_mem (c : Config) : Memory.wf (State.resetOf c).mem := ⟨Sparse.canonical_nil, by simp [State.resetOf]⟩

theorem wf_reset_mem : Memory.wf State.reset.mem := wf_resetOf_mem Config.default

end Sys2Proof.Machine
end

