-- ==== Sys2Proof/Laws/Dcache.lean ====
section
/-! SUPPORT. The data cache (20_memory.md R84, R85): what write-back, refill, flush and invalidation do to each byte, and
that they keep the cache sound. -/

namespace Sys2Proof.Machine

variable {s t : State} {a x : Word} {line : Nat}

/-! ## The bus -/

theorem onBus_oneTransfer (s : State) (x : Transfer) : OneTransfer x s (s.onBus x) := by
  unfold OneTransfer State.onBus
  split <;> exact ⟨rfl, rfl⟩

/-- A transfer changes no field but `bus` and `pending`. -/
theorem onBus_eq (s : State) (x : Transfer) :
    s.onBus x = { s with bus := (s.onBus x).bus, pending := (s.onBus x).pending } := by
  unfold State.onBus
  split <;> rfl

theorem onBus_sameMemory (s : State) (x : Transfer) : SameMemory s (s.onBus x) := by
  apply SameMemory.of_eq <;> simp

/-! ## Write-back -/

theorem writeBack_clean (h : ¬ ((s.dline line).valid = true ∧ (s.dline line).dirty = true)) : s.writeBack line = s := by
  unfold State.writeBack
  rw [if_neg (by simpa using h)]

/-- A write-back changes no field but `mem`, `bus` and `pending`. -/
theorem writeBack_eq (s : State) (line : Nat) : s.writeBack line =
    { s with mem := (s.writeBack line).mem, bus := (s.writeBack line).bus, pending := (s.writeBack line).pending } := by
  unfold State.writeBack
  split
  · rw [onBus_eq]
  · rfl

theorem dcacheHit_writeBack : (s.writeBack line).dcacheHit x = s.dcacheHit x := by
  rw [writeBack_eq]
  rfl

/-- What memory holds after a write-back: the bytes of a valid dirty line, else what it held. -/
theorem memByte_writeBack (hw : s.cfg.WellFormed) (ht : TagsInRange s) (hl : line < dcacheLines s.cfg)
    (hd : (s.dline line).valid = true) (hdirty : (s.dline line).dirty = true) :
    (s.writeBack line).memByte x =
      if dlineOf s.cfg x.toNat = line ∧ dtagOf s.cfg x.toNat = (s.dline line).tag then
        Sparse.get 0#8 s.dcacheData (dslotOf s.cfg x.toNat)
      else s.memByte x := by
  have hbase (k : Nat) (hk : k < dcacheLineBytes s.cfg) :
      (dlineBase s.cfg (s.dline line).tag line + k) % 2 ^ 32 = dlineBase s.cfg (s.dline line).tag line + k :=
    Nat.mod_eq_of_lt (dlineBase_lt hw (ht line hl hd) hl hk)
  have hmem : (s.writeBack line).memByte x = Sparse.get 0#8 (copyBytes s.dcacheData
      (fun k => line * dcacheLineBytes s.cfg + k) (fun k => (dlineBase s.cfg (s.dline line).tag line + k) % 2 ^ 32)
      (dcacheLineBytes s.cfg) s.mem) x.toNat := by
    unfold State.writeBack State.memByte
    rw [if_pos (by simp [hd, hdirty])]
    simp
  rw [hmem]
  by_cases hx : dlineOf s.cfg x.toNat = line ∧ dtagOf s.cfg x.toNat = (s.dline line).tag
  · rw [if_pos hx]
    have hk : x.toNat % dcacheLineBytes s.cfg < dcacheLineBytes s.cfg := Nat.mod_lt _ (dcacheLineBytes_pos _)
    have haddr := address_eq s.cfg x.toNat
    rw [hx.1, hx.2] at haddr
    have hsame := copyBytes_same (table := s.dcacheData) (into := s.mem)
      (source := fun k => line * dcacheLineBytes s.cfg + k)
      (target := fun k => (dlineBase s.cfg (s.dline line).tag line + k) % 2 ^ 32) hk
      (fun i hi j hj h => by simp only [hbase i hi, hbase j hj] at h; omega)
    simp only [← haddr] at hsame
    rw [Nat.mod_eq_of_lt x.isLt] at hsame
    rw [hsame, dslotOf_eq, hx.1]
  · rw [if_neg hx]
    refine copyBytes_other (fun k hk h => hx ?_)
    simp only [hbase k hk] at h
    rw [← h]
    exact ⟨dlineOf_dlineBase hl hk, dtagOf_dlineBase hl hk⟩

/-- After a write-back memory has, for each byte of a valid dirty line, the byte the processor saw. -/
theorem memByte_writeBack_eq (hw : s.cfg.WellFormed) (ht : TagsInRange s) (hc : s.cfg.hasDcache = true)
    (hl : line < dcacheLines s.cfg) :
    (s.writeBack line).memByte x =
      if s.dcacheHit x = true ∧ dlineOf s.cfg x.toNat = line ∧ (s.dline line).dirty = true then s.byteAt x
      else s.memByte x := by
  by_cases hd : (s.dline line).valid = true ∧ (s.dline line).dirty = true
  · rw [memByte_writeBack hw ht hl hd.1 hd.2]
    by_cases hx : dlineOf s.cfg x.toNat = line ∧ dtagOf s.cfg x.toNat = (s.dline line).tag
    · have hhit : s.dcacheHit x = true := hit_iff.mpr ⟨hc, by rw [hx.1]; exact hd.1, by rw [hx.1]; exact hx.2.symm⟩
      rw [if_pos hx, if_pos ⟨hhit, hx.1, hd.2⟩, byteAt_of_hit hhit]
    · rw [if_neg hx, if_neg]
      rintro ⟨h1, h2, -⟩
      have := (hit_iff.mp h1).2.2
      rw [h2] at this
      exact hx ⟨h2, this.symm⟩
  · rw [writeBack_clean hd, if_neg]
    rintro ⟨h1, h2, h3⟩
    have := (hit_iff.mp h1).2.1
    rw [h2] at this
    exact hd ⟨this, h3⟩

/-- A write-back changes nothing the processor's plain accesses see. -/
theorem byteAt_writeBack (hw : s.cfg.WellFormed) (ht : TagsInRange s) (hc : s.cfg.hasDcache = true)
    (hl : line < dcacheLines s.cfg) : (s.writeBack line).byteAt x = s.byteAt x := by
  cases hx : s.dcacheHit x
  · rw [byteAt_of_no_hit (by rw [dcacheHit_writeBack, hx]), byteAt_of_no_hit hx, memByte_writeBack_eq hw ht hc hl,
      if_neg (by simp [hx])]
  · rw [byteAt_of_hit (by rw [dcacheHit_writeBack, hx]), byteAt_of_hit hx, writeBack_eq]

/-! ## Invalidation -/

theorem dline_invalidateDline (other : Nat) : (s.invalidateDline line).dline other =
    if other = line then { s.dline line with valid := false, dirty := false } else s.dline other :=
  dline_setDline

theorem dcacheHit_invalidateDline : (s.invalidateDline line).dcacheHit x =
    (s.dcacheHit x && !decide (dlineOf s.cfg x.toNat = line)) := by
  have hcfg : (s.invalidateDline line).cfg = s.cfg := rfl
  unfold State.dcacheHit
  rw [hcfg, dline_invalidateDline]
  by_cases h : dlineOf s.cfg x.toNat = line
  · simp [h]
  · simp [h]

/-- Bytes of an invalidated line read as memory has them; no other byte changes. -/
theorem byteAt_invalidateDline : (s.invalidateDline line).byteAt x =
    if dlineOf s.cfg x.toNat = line then s.memByte x else s.byteAt x := by
  by_cases h : dlineOf s.cfg x.toNat = line
  · rw [if_pos h, byteAt_of_no_hit (by rw [dcacheHit_invalidateDline]; simp [h])]
    rfl
  · rw [if_neg h]
    cases hx : s.dcacheHit x
    · rw [byteAt_of_no_hit (by rw [dcacheHit_invalidateDline, hx]; rfl), byteAt_of_no_hit hx]
      rfl
    · rw [byteAt_of_hit (by rw [dcacheHit_invalidateDline, hx]; simp [h]), byteAt_of_hit hx]
      rfl

theorem tagsInRange_invalidateDline (h : TagsInRange s) : TagsInRange (s.invalidateDline line) := by
  intro l hl hv
  rw [dline_invalidateDline] at hv ⊢
  by_cases he : l = line
  · simp [he] at hv
  · rw [if_neg he] at hv ⊢
    exact h l hl hv

/-- Invalidating a line keeps the cache sound (`initd`, `initda`). -/
theorem sound_invalidateDline (h : DcacheSound s) : DcacheSound (s.invalidateDline line) := by
  refine ⟨tagsInRange_invalidateDline h.1, fun x hx hd => ?_⟩
  rw [dcacheHit_invalidateDline, Bool.and_eq_true] at hx
  have hl : dlineOf s.cfg x.toNat ≠ line := by simpa using hx.2
  have hcfg : (s.invalidateDline line).cfg = s.cfg := rfl
  rw [hcfg, dline_invalidateDline, if_neg hl] at hd
  rw [byteAt_invalidateDline, if_neg hl]
  exact h.2 x hx.1 hd

/-! ## Flush -/

theorem tagsInRange_writeBack (h : TagsInRange s) : TagsInRange (s.writeBack line) := by
  rw [writeBack_eq]
  exact h

/-- After a flush the processor sees every byte as before (`flushd`, `flushda`). -/
theorem byteAt_flushDline (hw : s.cfg.WellFormed) (h : DcacheSound s) (hc : s.cfg.hasDcache = true)
    (hl : line < dcacheLines s.cfg) : (s.flushDline line).byteAt x = s.byteAt x := by
  have hcfg : (s.writeBack line).cfg = s.cfg := by rw [writeBack_eq]
  unfold State.flushDline
  rw [byteAt_invalidateDline, hcfg]
  by_cases he : dlineOf s.cfg x.toNat = line
  · rw [if_pos he, memByte_writeBack_eq hw h.1 hc hl]
    by_cases hx : s.dcacheHit x = true
    · by_cases hd : (s.dline line).dirty = true
      · rw [if_pos ⟨hx, he, hd⟩]
      · rw [if_neg (fun hh => hd hh.2.2)]
        exact (h.2 x hx (by rw [he]; simpa using hd)).symm
    · rw [if_neg (fun hh => hx hh.1), byteAt_of_no_hit (by simpa using hx)]
  · rw [if_neg he, byteAt_writeBack hw h.1 hc hl]

/-- What memory holds after a flush: the processor's bytes of a dirty line, else what it held. -/
theorem memByte_flushDline (hw : s.cfg.WellFormed) (ht : TagsInRange s) (hc : s.cfg.hasDcache = true)
    (hl : line < dcacheLines s.cfg) : (s.flushDline line).memByte x =
      if s.dcacheHit x = true ∧ dlineOf s.cfg x.toNat = line ∧ (s.dline line).dirty = true then s.byteAt x
      else s.memByte x :=
  memByte_writeBack_eq hw ht hc hl

/-- A flush changes no field but `mem`, `dcache`, `bus` and `pending`. -/
theorem flushDline_eq (s : State) (line : Nat) : s.flushDline line =
    { s with mem := (s.flushDline line).mem, dcache := (s.flushDline line).dcache
             bus := (s.flushDline line).bus, pending := (s.flushDline line).pending } := by
  unfold State.flushDline State.invalidateDline State.setDline
  rw [writeBack_eq]

theorem dline_writeBack (other : Nat) : (s.writeBack line).dline other = s.dline other := by
  rw [writeBack_eq]
  rfl

theorem dline_flushDline (other : Nat) : (s.flushDline line).dline other =
    if other = line then { s.dline line with valid := false, dirty := false } else s.dline other := by
  unfold State.flushDline
  rw [dline_invalidateDline, dline_writeBack, dline_writeBack]

theorem sound_flushDline (hw : s.cfg.WellFormed) (h : DcacheSound s) (hc : s.cfg.hasDcache = true)
    (hl : line < dcacheLines s.cfg) : DcacheSound (s.flushDline line) := by
  have hcfg : (s.flushDline line).cfg = s.cfg := by rw [flushDline_eq]
  refine ⟨tagsInRange_invalidateDline (tagsInRange_writeBack h.1), fun x hx hd => ?_⟩
  rw [byteAt_flushDline hw h hc hl, memByte_flushDline hw h.1 hc hl]
  by_cases he : dlineOf s.cfg x.toNat = line
  · have := (hit_iff.mp hx).2.1
    rw [hcfg, dline_flushDline, if_pos he] at this
    cases this
  · rw [if_neg (fun hh => he hh.2.1)]
    have hx' : s.dcacheHit x = true := by
      have := hit_iff.mp hx
      rw [hcfg, dline_flushDline, if_neg he] at this
      exact hit_iff.mpr this
    rw [hcfg, dline_flushDline, if_neg he] at hd
    exact h.2 x hx' hd

/-! ## Refill -/

/-- A refill changes no field but `dcache` and `dcacheData`. -/
theorem fillDline_eq (s : State) (a : Word) : s.fillDline a =
    { s with dcache := (s.fillDline a).dcache, dcacheData := (s.fillDline a).dcacheData } := rfl

theorem dline_fillDline (other : Nat) : (s.fillDline a).dline other =
    if other = dlineOf s.cfg a.toNat then { valid := true, dirty := false, tag := dtagOf s.cfg a.toNat }
    else s.dline other :=
  dline_setDline

theorem dcacheHit_fillDline_same (hc : s.cfg.hasDcache = true) (h : dlineOf s.cfg x.toNat = dlineOf s.cfg a.toNat) :
    (s.fillDline a).dcacheHit x = decide (dtagOf s.cfg x.toNat = dtagOf s.cfg a.toNat) := by
  have hcfg : (s.fillDline a).cfg = s.cfg := rfl
  unfold State.dcacheHit
  rw [hcfg, dline_fillDline, if_pos h, hc, Bool.eq_iff_iff]
  simp only [Bool.true_and, beq_iff_eq, decide_eq_true_eq]
  exact eq_comm

theorem dcacheHit_fillDline_other (h : dlineOf s.cfg x.toNat ≠ dlineOf s.cfg a.toNat) :
    (s.fillDline a).dcacheHit x = s.dcacheHit x := by
  have hcfg : (s.fillDline a).cfg = s.cfg := rfl
  unfold State.dcacheHit
  rw [hcfg, dline_fillDline, if_neg h]

theorem dcacheData_fillDline_other (h : dlineOf s.cfg x.toNat ≠ dlineOf s.cfg a.toNat) :
    Sparse.get 0#8 (s.fillDline a).dcacheData (dslotOf s.cfg x.toNat) =
      Sparse.get 0#8 s.dcacheData (dslotOf s.cfg x.toNat) := by
  refine copyBytes_other (fun k hk he => h ?_)
  have hdiv : (dlineOf s.cfg a.toNat * dcacheLineBytes s.cfg + k) / dcacheLineBytes s.cfg = dlineOf s.cfg a.toNat := by
    rw [Nat.mul_comm, Nat.mul_add_div (dcacheLineBytes_pos _), Nat.div_eq_of_lt hk, Nat.add_zero]
  have hslot : dslotOf s.cfg x.toNat / dcacheLineBytes s.cfg = dlineOf s.cfg x.toNat := Nat.mod_mul_right_div_self ..
  rw [← hslot, ← he, hdiv]

/-- A byte of the line filled is memory's. -/
theorem dcacheData_fillDline_same (hl : dlineOf s.cfg x.toNat = dlineOf s.cfg a.toNat)
    (ht : dtagOf s.cfg x.toNat = dtagOf s.cfg a.toNat) :
    Sparse.get 0#8 (s.fillDline a).dcacheData (dslotOf s.cfg x.toNat) = s.memByte x := by
  have hk : x.toNat % dcacheLineBytes s.cfg < dcacheLineBytes s.cfg := Nat.mod_lt _ (dcacheLineBytes_pos _)
  have hsame := copyBytes_same (table := s.mem) (into := s.dcacheData)
    (source := fun k => (dlineBase s.cfg (dtagOf s.cfg a.toNat) (dlineOf s.cfg a.toNat) + k) % 2 ^ 32)
    (target := fun k => dlineOf s.cfg a.toNat * dcacheLineBytes s.cfg + k) hk (fun i _ j _ h => by omega)
  have haddr := address_eq s.cfg x.toNat
  rw [hl, ht] at haddr
  have hslot := dslotOf_eq s.cfg x.toNat
  rw [hl] at hslot
  rw [← hslot] at hsame
  refine hsame.trans ?_
  rw [← haddr, Nat.mod_eq_of_lt x.isLt]
  rfl

/-- After a refill of a line whose resident line was no dirty one, the processor sees every byte as before. -/
theorem byteAt_fillDline (hc : s.cfg.hasDcache = true)
    (hres : ∀ y : Word, dlineOf s.cfg y.toNat = dlineOf s.cfg a.toNat → s.byteAt y = s.memByte y) :
    (s.fillDline a).byteAt x = s.byteAt x := by
  by_cases hl : dlineOf s.cfg x.toNat = dlineOf s.cfg a.toNat
  · rw [hres x hl]
    by_cases ht : dtagOf s.cfg x.toNat = dtagOf s.cfg a.toNat
    · rw [byteAt_of_hit (by rw [dcacheHit_fillDline_same hc hl]; simpa using ht)]
      exact dcacheData_fillDline_same hl ht
    · rw [byteAt_of_no_hit (by rw [dcacheHit_fillDline_same hc hl]; simpa using ht)]
      rfl
  · cases hx : s.dcacheHit x
    · rw [byteAt_of_no_hit (by rw [dcacheHit_fillDline_other hl, hx]), byteAt_of_no_hit hx]
      rfl
    · rw [byteAt_of_hit (by rw [dcacheHit_fillDline_other hl, hx]), byteAt_of_hit hx]
      exact dcacheData_fillDline_other hl

theorem sound_fillDline (h : DcacheSound s) (hc : s.cfg.hasDcache = true)
    (hres : ∀ y : Word, dlineOf s.cfg y.toNat = dlineOf s.cfg a.toNat → s.byteAt y = s.memByte y) :
    DcacheSound (s.fillDline a) := by
  have hcfg : (s.fillDline a).cfg = s.cfg := rfl
  refine ⟨fun l hl hv => ?_, fun x hx hd => ?_⟩
  · rw [dline_fillDline] at hv ⊢
    by_cases he : l = dlineOf s.cfg a.toNat
    · rw [if_pos he]
      exact dtagOf_in_range a
    · rw [if_neg he] at hv ⊢
      exact h.1 l hl hv
  · rw [byteAt_fillDline hc hres]
    by_cases hl : dlineOf s.cfg x.toNat = dlineOf s.cfg a.toNat
    · exact hres x hl
    · rw [dcacheHit_fillDline_other hl] at hx
      rw [hcfg, dline_fillDline, if_neg hl] at hd
      exact h.2 x hx hd

/-! ## A plain access on its way (R85) -/

/-- After the write-back of the resident line, its bytes are memory's. -/
theorem resident_after_writeBack (hw : s.cfg.WellFormed) (h : DcacheSound s) (hc : s.cfg.hasDcache = true)
    (hl : line < dcacheLines s.cfg) (hx : dlineOf s.cfg x.toNat = line) :
    (s.writeBack line).byteAt x = (s.writeBack line).memByte x := by
  rw [byteAt_writeBack hw h.1 hc hl, memByte_writeBack_eq hw h.1 hc hl]
  by_cases hhit : s.dcacheHit x = true
  · by_cases hd : (s.dline line).dirty = true
    · rw [if_pos ⟨hhit, hx, hd⟩]
    · rw [if_neg (fun hh => hd hh.2.2)]
      exact h.2 x hhit (by rw [hx]; simpa using hd)
  · rw [if_neg (fun hh => hhit hh.1), byteAt_of_no_hit (by simpa using hhit)]

theorem sound_writeBack_byteAt (hw : s.cfg.WellFormed) (h : DcacheSound s) (hc : s.cfg.hasDcache = true)
    (hl : line < dcacheLines s.cfg) : CleanLinesCoherent (s.writeBack line) := by
  intro x hx hd
  rw [dcacheHit_writeBack] at hx
  have hcfg : (s.writeBack line).cfg = s.cfg := by rw [writeBack_eq]
  rw [hcfg, dline_writeBack] at hd
  rw [byteAt_writeBack hw h.1 hc hl, memByte_writeBack_eq hw h.1 hc hl]
  by_cases hxl : dlineOf s.cfg x.toNat = line
  · rw [if_neg]
    · exact h.2 x hx hd
    · rintro ⟨-, -, h3⟩
      rw [hxl, h3] at hd
      cases hd
  · rw [if_neg (fun hh => hxl hh.2.1)]
    exact h.2 x hx hd

/-- A plain access changes no field but the cache's, `mem` (a write-back), the bus's and `draws`. -/
theorem plainAccess_eq (s : State) (a : Word) (direct : Transfer) : s.plainAccess a direct =
    { s with
        mem := (s.plainAccess a direct).mem, dcache := (s.plainAccess a direct).dcache
        dcacheData := (s.plainAccess a direct).dcacheData, bus := (s.plainAccess a direct).bus
        pending := (s.plainAccess a direct).pending, draws := (s.plainAccess a direct).draws } := by
  unfold State.plainAccess
  split
  · rw [onBus_eq]
  · split
    · rfl
    · split
      · rw [onBus_eq, fillDline_eq, writeBack_eq]
        rfl
      · rw [onBus_eq]
        rfl

/-- The refilled state of an allocating miss. -/
theorem plainAccess_cases (s : State) (a : Word) (direct : Transfer) :
    (s.cfg.hasDcache = false ∧ s.plainAccess a direct = s.onBus direct) ∨
    (s.cfg.hasDcache = true ∧ s.dcacheHit a = true ∧ s.plainAccess a direct = s) ∨
    (s.cfg.hasDcache = true ∧ s.dcacheHit a = false ∧ s.plainAccess a direct = s.drawn.onBus direct) ∨
    (s.cfg.hasDcache = true ∧ s.dcacheHit a = false ∧ s.plainAccess a direct =
      ((s.drawn.writeBack (dlineOf s.cfg a.toNat)).fillDline a).onBus
        (.refill (BitVec.ofNat 32 (dlineBase s.cfg (dtagOf s.cfg a.toNat) (dlineOf s.cfg a.toNat))))) := by
  unfold State.plainAccess
  cases hc : s.cfg.hasDcache
  · exact .inl ⟨rfl, by simp⟩
  · cases hh : s.dcacheHit a
    · by_cases hal : Config.dcacheAllocates s.draws = true
      · exact .inr (.inr (.inr ⟨rfl, rfl, by simp [hal]⟩))
      · exact .inr (.inr (.inl ⟨rfl, rfl, by simp [hal]⟩))
    · exact .inr (.inl ⟨rfl, rfl, by simp⟩)

/-- Whether a plain access allocates or not, the processor sees every byte as before (R86). -/
theorem byteAt_plainAccess (hw : s.cfg.WellFormed) (h : DcacheSound s) (direct : Transfer) :
    (s.plainAccess a direct).byteAt x = s.byteAt x := by
  rcases plainAccess_cases s a direct with ⟨-, he⟩ | ⟨-, -, he⟩ | ⟨-, -, he⟩ | ⟨hc, -, he⟩ <;> rw [he]
  · exact (onBus_sameMemory s direct x).2.1
  · exact ((onBus_sameMemory s.drawn direct x).2.1).trans rfl
  · have hcfg : (s.drawn.writeBack (dlineOf s.cfg a.toNat)).cfg = s.cfg := by rw [writeBack_eq]; rfl
    have hd : DcacheSound s.drawn := h
    have hres (y : Word) (hy : dlineOf (s.drawn.writeBack (dlineOf s.cfg a.toNat)).cfg y.toNat =
        dlineOf (s.drawn.writeBack (dlineOf s.cfg a.toNat)).cfg a.toNat) :=
      resident_after_writeBack (s := s.drawn) (line := dlineOf s.cfg a.toNat) hw hd hc (dlineOf_lt _ _)
        (by rw [hcfg] at hy; exact hy)
    rw [(onBus_sameMemory _ _ x).2.1, byteAt_fillDline (by rw [hcfg]; exact hc) hres]
    exact byteAt_writeBack (s := s.drawn) hw hd.1 hc (dlineOf_lt _ _)

theorem DcacheSound.of_eq (h : DcacheSound s) (h₁ : t.cfg = s.cfg) (h₂ : t.mem = s.mem) (h₃ : t.dcache = s.dcache)
    (h₄ : t.dcacheData = s.dcacheData) : DcacheSound t := by
  unfold DcacheSound TagsInRange CleanLinesCoherent State.byteAt State.memByte State.dcacheHit State.dline at *
  simpa only [h₁, h₂, h₃, h₄] using h

/-- A plain access keeps the cache sound. -/
theorem sound_plainAccess (hw : s.cfg.WellFormed) (h : DcacheSound s) (direct : Transfer) :
    DcacheSound (s.plainAccess a direct) := by
  rcases plainAccess_cases s a direct with ⟨-, he⟩ | ⟨-, -, he⟩ | ⟨-, -, he⟩ | ⟨hc, -, he⟩ <;> rw [he]
  · exact h.of_eq (by simp) (by simp) (by simp) (by simp)
  · exact h
  · exact h.of_eq (by simp) (by simp) (by simp) (by simp)
  · have hcfg : (s.drawn.writeBack (dlineOf s.cfg a.toNat)).cfg = s.cfg := by rw [writeBack_eq]; rfl
    have hd : DcacheSound s.drawn := h
    have hwb : DcacheSound (s.drawn.writeBack (dlineOf s.cfg a.toNat)) :=
      ⟨tagsInRange_writeBack hd.1, sound_writeBack_byteAt (s := s.drawn) hw hd hc (dlineOf_lt _ _)⟩
    have hres (y : Word) (hy : dlineOf (s.drawn.writeBack (dlineOf s.cfg a.toNat)).cfg y.toNat =
        dlineOf (s.drawn.writeBack (dlineOf s.cfg a.toNat)).cfg a.toNat) :=
      resident_after_writeBack (s := s.drawn) (line := dlineOf s.cfg a.toNat) hw hd hc (dlineOf_lt _ _)
        (by rw [hcfg] at hy; exact hy)
    exact (sound_fillDline (a := a) hwb (by rw [hcfg]; exact hc) hres).of_eq (by simp) (by simp) (by simp) (by simp)

end Sys2Proof.Machine
end

