-- ==== Sys2Proof/Laws/Decode.lean ====
section
/-! SUPPORT. The fields of the words the encoder writes, and a word put together again from its fields (30_encoding.md
R111 to R114). -/

namespace Sys2Proof

@[simp] theorem fieldA_iType (a b : Reg) (imm : Imm16) (op : BitVec 6) : fieldA (iType a b imm op) = a := by
  ext i hi
  simp only [fieldA, iType, BitVec.getElem_extractLsb', BitVec.getLsbD_append]
  split_ifs <;> try omega
  rw [← BitVec.getLsbD_eq_getElem]
  congr 1
  omega

@[simp] theorem fieldB_iType (a b : Reg) (imm : Imm16) (op : BitVec 6) : fieldB (iType a b imm op) = b := by
  ext i hi
  simp only [fieldB, iType, BitVec.getElem_extractLsb', BitVec.getLsbD_append]
  split_ifs <;> try omega
  rw [← BitVec.getLsbD_eq_getElem]
  congr 1
  omega

@[simp] theorem fieldImm16_iType (a b : Reg) (imm : Imm16) (op : BitVec 6) : fieldImm16 (iType a b imm op) = imm := by
  ext i hi
  simp only [fieldImm16, iType, BitVec.getElem_extractLsb', BitVec.getLsbD_append]
  split_ifs <;> try omega
  rw [← BitVec.getLsbD_eq_getElem]
  congr 1
  omega

@[simp] theorem fieldOp_iType (a b : Reg) (imm : Imm16) (op : BitVec 6) : fieldOp (iType a b imm op) = op := by
  ext i hi
  simp only [fieldOp, iType, BitVec.getElem_extractLsb', BitVec.getLsbD_append]
  split_ifs <;> try omega
  rw [← BitVec.getLsbD_eq_getElem]
  congr 1
  omega

@[simp] theorem fieldA_rType (a b c : Reg) (x6 : BitVec 6) (x5 : Imm5) : fieldA (rType a b c x6 x5) = a := by
  ext i hi
  simp only [fieldA, rType, BitVec.getElem_extractLsb', BitVec.getLsbD_append]
  split_ifs <;> try omega
  rw [← BitVec.getLsbD_eq_getElem]
  congr 1
  omega

@[simp] theorem fieldB_rType (a b c : Reg) (x6 : BitVec 6) (x5 : Imm5) : fieldB (rType a b c x6 x5) = b := by
  ext i hi
  simp only [fieldB, rType, BitVec.getElem_extractLsb', BitVec.getLsbD_append]
  split_ifs <;> try omega
  rw [← BitVec.getLsbD_eq_getElem]
  congr 1
  omega

@[simp] theorem fieldC_rType (a b c : Reg) (x6 : BitVec 6) (x5 : Imm5) : fieldC (rType a b c x6 x5) = c := by
  ext i hi
  simp only [fieldC, rType, BitVec.getElem_extractLsb', BitVec.getLsbD_append]
  split_ifs <;> try omega
  rw [← BitVec.getLsbD_eq_getElem]
  congr 1
  omega

@[simp] theorem fieldOpx6_rType (a b c : Reg) (x6 : BitVec 6) (x5 : Imm5) : fieldOpx6 (rType a b c x6 x5) = x6 := by
  ext i hi
  simp only [fieldOpx6, rType, BitVec.getElem_extractLsb', BitVec.getLsbD_append]
  split_ifs <;> try omega
  rw [← BitVec.getLsbD_eq_getElem]
  congr 1
  omega

@[simp] theorem fieldOpx5_rType (a b c : Reg) (x6 : BitVec 6) (x5 : Imm5) : fieldOpx5 (rType a b c x6 x5) = x5 := by
  ext i hi
  simp only [fieldOpx5, rType, BitVec.getElem_extractLsb', BitVec.getLsbD_append]
  split_ifs <;> try omega
  rw [← BitVec.getLsbD_eq_getElem]
  congr 1
  omega

@[simp] theorem fieldOp_rType (a b c : Reg) (x6 : BitVec 6) (x5 : Imm5) : fieldOp (rType a b c x6 x5) = 0x3A#6 := by
  ext i hi
  simp only [fieldOp, rType, BitVec.getElem_extractLsb', BitVec.getLsbD_append]
  split_ifs <;> try omega
  rw [← BitVec.getLsbD_eq_getElem]
  congr 1
  omega

@[simp] theorem fieldImm26_jType (imm : Imm26) (op : BitVec 6) : fieldImm26 (jType imm op) = imm := by
  ext i hi
  simp only [fieldImm26, jType, BitVec.getElem_extractLsb', BitVec.getLsbD_append]
  split_ifs <;> try omega
  rw [← BitVec.getLsbD_eq_getElem]
  congr 1
  omega

@[simp] theorem fieldOp_jType (imm : Imm26) (op : BitVec 6) : fieldOp (jType imm op) = op := by
  ext i hi
  simp only [fieldOp, jType, BitVec.getElem_extractLsb', BitVec.getLsbD_append]
  split_ifs <;> try omega
  rw [← BitVec.getLsbD_eq_getElem]
  congr 1
  omega

@[simp] theorem fieldA_customType (a b c : Reg) (ra rb wc : Bool) (n : BitVec 8) : fieldA (customType a b c ra rb wc n) = a := by
  ext i hi
  simp only [fieldA, customType, BitVec.getElem_extractLsb', BitVec.getLsbD_append]
  split_ifs <;> try omega
  rw [← BitVec.getLsbD_eq_getElem]
  congr 1
  omega

@[simp] theorem fieldB_customType (a b c : Reg) (ra rb wc : Bool) (n : BitVec 8) : fieldB (customType a b c ra rb wc n) = b := by
  ext i hi
  simp only [fieldB, customType, BitVec.getElem_extractLsb', BitVec.getLsbD_append]
  split_ifs <;> try omega
  rw [← BitVec.getLsbD_eq_getElem]
  congr 1
  omega

@[simp] theorem fieldC_customType (a b c : Reg) (ra rb wc : Bool) (n : BitVec 8) : fieldC (customType a b c ra rb wc n) = c := by
  ext i hi
  simp only [fieldC, customType, BitVec.getElem_extractLsb', BitVec.getLsbD_append]
  split_ifs <;> try omega
  rw [← BitVec.getLsbD_eq_getElem]
  congr 1
  omega

@[simp] theorem fieldN_customType (a b c : Reg) (ra rb wc : Bool) (n : BitVec 8) : fieldN (customType a b c ra rb wc n) = n := by
  ext i hi
  simp only [fieldN, customType, BitVec.getElem_extractLsb', BitVec.getLsbD_append]
  split_ifs <;> try omega
  rw [← BitVec.getLsbD_eq_getElem]
  congr 1
  omega

@[simp] theorem fieldOp_customType (a b c : Reg) (ra rb wc : Bool) (n : BitVec 8) : fieldOp (customType a b c ra rb wc n) = 0x32#6 := by
  ext i hi
  simp only [fieldOp, customType, BitVec.getElem_extractLsb', BitVec.getLsbD_append]
  split_ifs <;> try omega
  rw [← BitVec.getLsbD_eq_getElem]
  congr 1
  omega

@[simp] theorem fieldReadra_customType (a b c : Reg) (ra rb wc : Bool) (n : BitVec 8) : fieldReadra (customType a b c ra rb wc n) = ra := by
  simp only [fieldReadra, customType, BitVec.getLsbD_append]
  simp

@[simp] theorem fieldReadrb_customType (a b c : Reg) (ra rb wc : Bool) (n : BitVec 8) : fieldReadrb (customType a b c ra rb wc n) = rb := by
  simp only [fieldReadrb, customType, BitVec.getLsbD_append]
  simp

@[simp] theorem fieldWriterc_customType (a b c : Reg) (ra rb wc : Bool) (n : BitVec 8) : fieldWriterc (customType a b c ra rb wc n) = wc := by
  simp only [fieldWriterc, customType, BitVec.getLsbD_append]
  simp

theorem iType_fields (w : Word) : iType (fieldA w) (fieldB w) (fieldImm16 w) (fieldOp w) = w := by
  ext i hi
  simp only [← BitVec.getLsbD_eq_getElem, iType, fieldA, fieldB, fieldImm16, fieldOp, BitVec.getLsbD_append, BitVec.getLsbD_extractLsb']
  split_ifs <;> simp (disch := omega) only [decide_eq_true, Bool.true_and] <;> congr 1 <;> omega

theorem jType_fields (w : Word) : jType (fieldImm26 w) (fieldOp w) = w := by
  ext i hi
  simp only [← BitVec.getLsbD_eq_getElem, jType, fieldImm26, fieldOp, BitVec.getLsbD_append, BitVec.getLsbD_extractLsb']
  split_ifs <;> simp (disch := omega) only [decide_eq_true, Bool.true_and] <;> congr 1 <;> omega

theorem rType_fields (w : Word) (h : fieldOp w = 0x3A#6) :
    rType (fieldA w) (fieldB w) (fieldC w) (fieldOpx6 w) (fieldOpx5 w) = w := by
  unfold rType
  rw [← h]
  ext i hi
  simp only [← BitVec.getLsbD_eq_getElem, fieldA, fieldB, fieldC, fieldOpx6, fieldOpx5, fieldOp, BitVec.getLsbD_append,
    BitVec.getLsbD_extractLsb']
  split_ifs <;> simp (disch := omega) only [decide_eq_true, Bool.true_and] <;> congr 1 <;> omega

theorem customType_fields (w : Word) (h : fieldOp w = 0x32#6) :
    customType (fieldA w) (fieldB w) (fieldC w) (fieldReadra w) (fieldReadrb w) (fieldWriterc w) (fieldN w) = w := by
  unfold customType
  rw [← h]
  ext i hi
  simp only [← BitVec.getLsbD_eq_getElem, fieldA, fieldB, fieldC, fieldReadra, fieldReadrb, fieldWriterc, fieldN, fieldOp,
    BitVec.getLsbD_append, BitVec.getLsbD_extractLsb', BitVec.getLsbD_ofBool]
  split_ifs <;> simp (disch := omega) only [decide_eq_true, Bool.true_and] <;> congr 1 <;> omega

/-- The bytes of a word put together again, the byte at the lowest address first (20_memory.md R72). -/
theorem wordOfBytes_bytes (w : Word) :
    wordOfBytes (byteOfWord w 0) (byteOfWord w 1) (byteOfWord w 2) (byteOfWord w 3) = w := by
  ext i hi
  simp only [← BitVec.getLsbD_eq_getElem, wordOfBytes, byteOfWord, BitVec.getLsbD_append, BitVec.getLsbD_extractLsb']
  split_ifs <;> simp (disch := omega) only [decide_eq_true, Bool.true_and] <;> congr 1 <;> omega

end Sys2Proof
end

