-- ==== Sys2Proof/Laws/Exceptions.lean ====
section
/-! SUPPORT. Taking an exception, a break, and the transfers of control: all each can do, said once. -/

namespace Sys2Proof.Machine

variable {s t arrive : State} {e : Exception} {target : Word}

theorem getLsbD_bitMask (b : Fin 32) (j : Nat) : (bitMask b.val).getLsbD j = decide (j = b.val) := by
  have hb := b.isLt
  unfold bitMask
  simp only [BitVec.getLsbD_shiftLeft]
  by_cases hj : j = b.val
  · simp [hj, hb]
  · by_cases hlt : j < b.val
    · simp [hj, hlt]
    · have : j - b.val ≠ 0 := by omega
      simp [hj, this, BitVec.getLsbD_one]

theorem clearPieAndU_clears (c : Config) (w : Word) : ClearsPieAndU c w (clearPieAndU c w) := by
  intro j
  unfold clearPieAndU
  simp only [BitVec.getLsbD_and, BitVec.getLsbD_not, BitVec.getLsbD_or, getLsbD_bitMask, j.isLt, decide_true, Bool.true_and]
  rw [show (j != c.statusPieBit) = !decide (j.val = c.statusPieBit.val) by simp [bne, BEq.beq, Fin.ext_iff],
    show (j != c.statusUBit) = !decide (j.val = c.statusUBit.val) by simp [bne, BEq.beq, Fin.ext_iff]]
  cases decide (j.val = c.statusPieBit.val) <;> cases decide (j.val = c.statusUBit.val) <;> simp

/-- The set the open policy names: the current one without shadow sets, else one that exists. -/
theorem nextCrs_cases (s : State) (event : CrsEvent) :
    s.nextCrs event = s.crs ∨ 0 < s.cfg.numShadow ∧ s.nextCrs event ≤ s.cfg.numShadow := by
  unfold State.nextCrs
  split
  · exact .inl rfl
  · exact .inr ⟨Nat.pos_of_ne_zero ‹_›, Nat.lt_succ_iff.mp (Nat.mod_lt _ (Nat.succ_pos _))⟩

theorem entryCrs_cases (s : State) (e : Exception) :
    s.entryCrs e = s.crs ∨ e ≠ .trap ∧ 0 < s.cfg.numShadow ∧ s.entryCrs e ≤ s.cfg.numShadow := by
  cases e
  case trap => exact .inl rfl
  all_goals exact (nextCrs_cases s _).imp id (fun h => ⟨by decide, h⟩)

theorem eaSet_cases (s : State) (e : Exception) :
    s.eaSet e = s.crs ∨ e ≠ .trap ∧ 0 < s.cfg.numShadow ∧ s.eaSet e ≤ s.cfg.numShadow := by
  cases e
  case trap => exact .inl rfl
  all_goals exact (nextCrs_cases s _).imp id (fun h => ⟨by decide, h⟩)

/-- The handler address of an exception: the shared one, or, of a TLB miss with an MMU, some word-aligned one. -/
theorem handlerAddr_cases (c : Config) (e : Exception) :
    if IsTlbMiss e ∧ c.hasMmu = true then Word.Aligned4 (handlerAddr c e) else handlerAddr c e = c.exceptionAddr := by
  have aligned (miss : TlbMiss) : Word.Aligned4 (Config.tlbMissHandler c miss ++ 0#2) := by
    unfold Word.Aligned4
    apply BitVec.eq_of_getLsbD_eq
    intro j hj
    rw [BitVec.getLsbD_extractLsb', Nat.zero_add, BitVec.getLsbD_append]
    simp [hj]
  cases hm : c.hasMmu <;> cases e <;> simp [handlerAddr, tlbMissOf, hm, IsTlbMiss] <;> exact aligned _

theorem entryDraws_of (s : State) (e : Exception) (h : e = .trap ∨ s.cfg.numShadow = 0) : s.entryDraws e = s.draws := by
  rcases h with rfl | h
  · rfl
  · cases e <;> simp [State.entryDraws, State.drawsAfterPolicy, h]

/-- Exception entry does what R350 says, and nothing else. -/
theorem takeException_enters (e : Exception) (s : State) : EntersException e s (takeException e s) := by
  refine ⟨?_, ?_, fun h => ?_, fun j => ?_, ?_, ⟨s.eaSet e, eaSet_cases s e, ?_⟩, SameMemory.of_eq ?_ ?_ ?_ ?_ ?_ ?_⟩
  · unfold takeException
    rw [setRegOf_eq]
    rfl
  · simpa [takeException] using handlerAddr_cases s.cfg e
  · simpa [takeException] using entryDraws_of s e h
  · simpa [takeException] using clearPieAndU_clears s.cfg s.status j
  · simpa [takeException] using entryCrs_cases s e
  · have h := (setRegOf_becomes
      { s with crs := s.entryCrs e, estatus := s.status, status := clearPieAndU s.cfg s.status, draws := s.entryDraws e
               label := some e }
      (s.eaSet e) 29#5 (s.pc + 4#32)).of_base (u := s) (SameRegisters.of_regs_eq rfl)
    exact h.of_regs_eq rfl
  all_goals simp [takeException]

/-- Break entry does what R352 says, and nothing else. -/
theorem takeBreak_enters (s : State) : EntersBreak s (takeBreak s) := by
  refine ⟨?_, fun j => ?_, ?_, SameMemory.of_eq ?_ ?_ ?_ ?_ ?_ ?_⟩
  · unfold takeBreak State.setReg
    rw [setRegOf_eq]
    rfl
  · simpa [takeBreak] using clearPieAndU_clears s.cfg s.status j
  · have h := (setRegOf_becomes
      { s with bstatus := s.status, status := clearPieAndU s.cfg s.status, label := some .breakpoint }
      s.crs 30#5 (s.pc + 4#32)).of_base (u := s) (SameRegisters.of_regs_eq rfl)
    exact h.of_regs_eq rfl
  all_goals simp [takeBreak]

theorem raise_next (h : raise e s = .next t) : EntersException e s t := by
  cases h
  exact takeException_enters e s

theorem isAligned4_iff : isAligned4 target = true ↔ Word.Aligned4 target := by
  simp [isAligned4]

theorem aligned4_iff_dvd : Word.Aligned4 target ↔ 4 ∣ target.toNat := by
  unfold Word.Aligned4
  rw [← BitVec.toNat_inj, BitVec.extractLsb'_toNat]
  simp [Nat.dvd_iff_mod_eq_zero]

theorem transferTo_aligned (h : Word.Aligned4 target) : transferTo target arrive s = .next (arrive.goto target) := by
  unfold transferTo
  rw [if_pos (isAligned4_iff.mpr h)]

theorem transferTo_misaligned (h : ¬ Word.Aligned4 target) :
    transferTo target arrive s = raise .misalignedDestinationAddress s := by
  unfold transferTo
  rw [if_neg (fun hc => h (isAligned4_iff.mp hc))]

/-- All that a transfer of control can answer. -/
theorem transferTo_next (h : transferTo target arrive s = .next t) :
    Word.Aligned4 target ∧ t = arrive.goto target ∨
    ¬ Word.Aligned4 target ∧ t = takeException .misalignedDestinationAddress s := by
  by_cases ha : Word.Aligned4 target
  · rw [transferTo_aligned ha] at h
    exact .inl ⟨ha, by cases h; rfl⟩
  · rw [transferTo_misaligned ha] at h
    exact .inr ⟨ha, by cases h; rfl⟩

theorem supervisorOnly_supervisor {effect : Result} (h : s.userMode = false) : supervisorOnly s effect = effect := by
  unfold supervisorOnly
  rw [h]
  rfl

theorem supervisorOnly_user {effect : Result} (h : s.userMode = true) :
    supervisorOnly s effect = raise .supervisorOnlyInstruction s := by
  unfold supervisorOnly
  rw [h]
  rfl

/-- All that a supervisor-only instruction can answer. -/
theorem supervisorOnly_next {effect : Result} (h : supervisorOnly s effect = .next t) :
    s.userMode = true ∧ t = takeException .supervisorOnlyInstruction s ∨ s.userMode = false ∧ effect = .next t := by
  cases hu : s.userMode
  · exact .inr ⟨rfl, by rwa [supervisorOnly_supervisor hu] at h⟩
  · rw [supervisorOnly_user hu] at h
    exact .inl ⟨rfl, by cases h; rfl⟩

/-- All that an optional instruction can answer. -/
theorem optionalInstr_next {implemented : Bool} {effect : Result} (h : optionalInstr implemented s effect = .next t) :
    implemented = false ∧ t = takeException .unimplementedInstruction s ∨ implemented = true ∧ effect = .next t := by
  cases implemented
  · exact .inl ⟨rfl, by cases h; rfl⟩
  · exact .inr ⟨rfl, h⟩

/-- All that a reserved encoding can answer. -/
theorem reservedEncoding_next (h : reservedEncoding s = .next t) : t = takeException .illegalInstruction s := by
  unfold reservedEncoding at h
  split at h
  · cases h; rfl
  · cases h

/-- All that a branch can answer. -/
theorem branchIf_next {condition : Bool} {imm : Imm16} (h : branchIf condition imm s = .next t) :
    condition = true ∧ Word.Aligned4 (branchTarget s.pc imm) ∧ t = s.goto (branchTarget s.pc imm) ∨
    condition = true ∧ ¬ Word.Aligned4 (branchTarget s.pc imm) ∧ t = takeException .misalignedDestinationAddress s ∨
    condition = false ∧ t = s.advance := by
  unfold branchIf at h
  cases condition
  · exact .inr (.inr ⟨rfl, by cases h; rfl⟩)
  · rcases transferTo_next h with ⟨h1, h2⟩ | ⟨h1, h2⟩
    · exact .inl ⟨rfl, h1, h2⟩
    · exact .inr (.inl ⟨rfl, h1, h2⟩)

end Sys2Proof.Machine
end

