-- ==== Sys2Proof/Laws/LoadStore.lean ====
section
/-! SUPPORT. Loads, stores and the cache instructions: all that an access can answer, said once. -/

namespace Sys2Proof.Machine

variable {s t : State} {ea pa x : Word} {kind : AccessKind} {path : Path} {w : Width} {r : Region} {v : Word}

/-! ## Addresses -/

theorem misaligned_iff : misaligned w ea = true ↔ ¬ widthBytes w ∣ ea.toNat := by
  cases w
  · simp [misaligned, widthBytes]
  · have h : (ea.extractLsb' 0 1 = 0#1) ↔ 2 ∣ ea.toNat := by
      rw [← BitVec.toNat_inj, BitVec.extractLsb'_toNat]
      simp [Nat.dvd_iff_mod_eq_zero]
    simp [misaligned, h]
  · have h := aligned4_iff_dvd (target := ea)
    have h2 := isAligned4_iff (target := ea)
    simp only [misaligned, widthBytes_word, Bool.not_eq_true', ← h, ← h2, Bool.not_eq_true]

/-- Where an access's address comes from: aligned, and what `protect` answers. -/
theorem dataAddress_ok : s.dataAddress kind w ea = .ok pa ↔ widthBytes w ∣ ea.toNat ∧ s.protectData kind ea = .ok pa := by
  unfold State.dataAddress
  cases hp : s.protectData kind ea with
  | ok a =>
    by_cases hm : misaligned w ea = true
    · simp [hm, misaligned_iff.mp hm]
    · have hd : widthBytes w ∣ ea.toNat := by rwa [misaligned_iff, not_not] at hm
      simp [hm, hd]
  | error e =>
    by_cases hm : misaligned w ea = true <;> cases e <;> simp [hm]

theorem dataAddress_misaligned (hm : ¬ widthBytes w ∣ ea.toNat)
    (hp : s.protectData kind ea ≠ .error .supervisorOnlyDataAddress) : s.dataAddress kind w ea =
      .error (if s.cfg.misalignedDataExc then .exception .misalignedDataAddress else .fault .misalignedDataAddress) := by
  have hm' := misaligned_iff.mpr hm
  unfold State.dataAddress
  cases hq : s.protectData kind ea with
  | ok a => simp [hm']
  | error e => cases e <;> simp_all

theorem dataAddress_violation {e : DataViolation} (hp : s.protectData kind ea = .error e)
    (hm : e = .supervisorOnlyDataAddress ∨ widthBytes w ∣ ea.toNat) :
    s.dataAddress kind w ea = .error (.exception (dataException kind e)) := by
  have hm' : widthBytes w ∣ ea.toNat → misaligned w ea = false := fun h => by
    rw [← Bool.not_eq_true, misaligned_iff, not_not]
    exact h
  unfold State.dataAddress
  rw [hp]
  rcases hm with rfl | hd
  · simp [dataException]
  · cases e <;> simp [hm' hd, dataException]

theorem protectData_flat (h1 : s.cfg.hasMmu = false) (h2 : s.cfg.hasMpu = false) : s.protectData kind ea = .ok ea := by
  simp [State.protectData, h1, h2]

/-- Which accesses the platform and the cache rules admit (R73, R80, R81). -/
theorem admitted_ok : s.admitted kind path pa = .ok r ↔ regionOf s.cfg pa = some r ∧
    (match kind with | .read => r.load | .write => r.store) = true ∧
    ¬ (r.peripheral = true ∧ s.cfg.hasDcache = true ∧ path = .plain) ∧ ¬ (s.dcacheHit pa = true ∧ path = .io) := by
  unfold State.admitted
  cases hr : regionOf s.cfg pa with
  | none => simp
  | some q =>
    cases kind <;> simp only [Option.some.injEq]
    all_goals
      split_ifs with h1 h2 h3
      · simp only [Bool.not_eq_true'] at h1
        simp only [false_iff, not_and]
        rintro rfl h
        rw [h1] at h
        cases h
      · simp only [false_iff]
        rintro ⟨rfl, -, h, -⟩
        exact h (by simpa [and_assoc] using h2)
      · simp only [false_iff]
        rintro ⟨rfl, -, -, h⟩
        exact h (by simpa using h3)
      · simp only [Except.ok.injEq]
        constructor
        · rintro rfl
          exact ⟨rfl, by simpa using h1, fun h => h2 (by simpa [and_assoc] using h), fun h => h3 (by simpa using h)⟩
        · exact fun h => h.1

theorem admitted_outside (h : ∀ r, regionOf s.cfg pa = some r → (match kind with | .read => r.load | .write => r.store) = false) :
    s.admitted kind path pa = .error (.fault .outsideMemoryMap) := by
  unfold State.admitted
  cases hr : regionOf s.cfg pa with
  | none => rfl
  | some q =>
    have hq := h q hr
    cases kind <;> simp_all

theorem effectiveAddress_eq (a : Reg) (imm : Imm16) :
    s.effectiveAddress a imm = BitVec.ofInt 32 ((s.reg a).toInt + imm.toInt) := by
  unfold State.effectiveAddress sextImm
  apply BitVec.eq_of_toInt_eq
  rw [BitVec.toInt_add, BitVec.toInt_signExtend_of_le (by decide), BitVec.toInt_ofInt]

/-! ## The hazard record -/

theorem hazardAt_of_eq (h : t.hazard = s.hazard) : t.hazardAt x = s.hazardAt x := by
  simp [State.hazardAt, h]

theorem get_map_value {V : Type} (d : V) (f : Nat → V → V) (hf : ∀ k, f k d = d) (table : List (Nat × V)) (key : Nat) :
    Sparse.get d (table.map (fun e => (e.1, f e.1 e.2))) key = f key (Sparse.get d table key) := by
  induction table with
  | nil => exact (hf key).symm
  | cons e rest ih =>
    by_cases h : e.1 = key
    · subst h
      simp [Sparse.get]
    · simp [Sparse.get, h, ih]

/-- Moving words from one stage of the sequence of R89 to the next. -/
theorem hazardAt_moveHazard {here : Nat → Bool} {before after : HazardStage} (hb : before ≠ .fetchable) :
    (s.moveHazard here before after).hazardAt x =
      if s.hazardAt x = before ∧ here (4 * (x.toNat / 4)) = true then after else s.hazardAt x := by
  have h := get_map_value HazardStage.fetchable (fun k st => if st = before ∧ here (4 * k) = true then after else st)
    (fun k => if_neg (fun hh => hb hh.1.symm)) s.hazard (x.toNat / 4)
  unfold State.hazardAt
  rw [State.moveHazard_hazard, ← h]
  congr 1
  apply List.map_congr_left
  intro e _
  by_cases he : e.2 = before ∧ here (4 * e.1) = true
  · simp [he]
  · simp [he]

theorem hazardAt_flushHazard (hc : Sparse.Canonical HazardStage.fetchable s.hazard) : s.flushHazard.hazardAt x =
    if s.hazardAt x = .needsFlushPipeline then .fetchable else s.hazardAt x := by
  unfold State.hazardAt
  rw [State.flushHazard_hazard]
  have hp := hc.1
  generalize s.hazard = table at hp
  induction table with
  | nil => rfl
  | cons e rest ih =>
    obtain ⟨hlt, hr⟩ := List.pairwise_cons.mp hp
    by_cases hk : e.1 = x.toNat / 4
    · have hrest : ∀ f ∈ rest, f.1 ≠ x.toNat / 4 := fun f hf => by have := hlt f hf; omega
      have hnone : ∀ l : List (Nat × HazardStage), (∀ f ∈ l, f.1 ≠ x.toNat / 4) →
          Sparse.get HazardStage.fetchable l (x.toNat / 4) = .fetchable := by
        intro l hl
        induction l with
        | nil => rfl
        | cons g l ihl =>
          simp only [Sparse.get, hl g List.mem_cons_self, if_false]
          exact ihl (fun f hf => hl f (List.mem_cons_of_mem _ hf))
      by_cases he : e.2 = .needsFlushPipeline
      · simp only [List.filter_cons, he, bne_self_eq_false, Bool.false_eq_true, if_false, Sparse.get, hk, if_true]
        exact hnone _ (fun f hf => hrest f (List.mem_filter.mp hf).1)
      · simp [he, Sparse.get, hk]
    · by_cases he : e.2 = .needsFlushPipeline
      · simp [he, Sparse.get, hk, ih hr]
      · simp [he, Sparse.get, hk, ih hr]

theorem hazardAt_setHazard {stage : HazardStage} : (s.setHazard pa stage).hazardAt x =
    if x.toNat / 4 = pa.toNat / 4 then stage else s.hazardAt x :=
  Sparse.get_set ..

theorem markModified_eq (s : State) (path : Path) (w : Width) (a : Word) :
    s.markModified path w a = { s with hazard := (s.markModified path w a).hazard } := rfl

/-- The words a store touches are left at its stage, and no other word changes. -/
theorem hazardAt_markModified (s : State) (path : Path) (w : Width) (a : Word) :
    (s.markModified path w a).hazardAt x = if SharesWord w a x then stageAfterStore s.cfg path else s.hazardAt x := by
  unfold State.markModified lastByte
  rw [hazardAt_setHazard, hazardAt_setHazard]
  by_cases h1 : x.toNat / 4 = a.toNat / 4 <;>
    by_cases h2 : x.toNat / 4 = (a + BitVec.ofNat 32 (widthBytes w - 1)).toNat / 4 <;> simp [SharesWord, h1, h2]

/-- A word stands in one line of either cache. -/
theorem dlineOf_word (c : Config) (n : Nat) : dlineOf c (4 * (n / 4)) = dlineOf c n ∧ dtagOf c (4 * (n / 4)) = dtagOf c n := by
  unfold dlineOf dtagOf dcacheLineBytes
  constructor
  · rw [← Nat.div_div_eq_div_mul, ← Nat.div_div_eq_div_mul, Nat.mul_div_cancel_left _ (by decide)]
  · simp only [Nat.mul_assoc, ← Nat.div_div_eq_div_mul, Nat.mul_div_cancel_left _ (show 0 < 4 by decide)]

theorem ilineOf_word (c : Config) (n : Nat) : ilineOf c (4 * (n / 4)) = ilineOf c n := by
  unfold ilineOf icacheLineBytes
  rw [← Nat.div_div_eq_div_mul, ← Nat.div_div_eq_div_mul, Nat.mul_div_cancel_left _ (by decide)]

/-! ## Flushes and discards -/

theorem hazardAt_flushDline {line : Nat} : (s.flushDline line).hazardAt x = s.hazardAt x := by
  rw [flushDline_eq]
  rfl

/-- The word of an address stands in a dirty line where the address hits it. -/
theorem wordInDirtyLine_iff (hc : s.cfg.hasDcache = true) {line : Nat} :
    s.wordInDirtyLine line (4 * (x.toNat / 4)) = true ↔
      s.dcacheHit x = true ∧ dlineOf s.cfg x.toNat = line ∧ (s.dline line).dirty = true := by
  unfold State.wordInDirtyLine
  rw [(dlineOf_word s.cfg x.toNat).1, (dlineOf_word s.cfg x.toNat).2, hit_iff]
  simp only [Bool.and_eq_true, beq_iff_eq]
  constructor
  · rintro ⟨⟨⟨h2, h3⟩, rfl⟩, h5⟩
    exact ⟨⟨hc, h2, h5.symm⟩, rfl, h3⟩
  · rintro ⟨⟨-, h2, h5⟩, rfl, h3⟩
    exact ⟨⟨⟨h2, h3⟩, rfl⟩, h5.symm⟩

theorem sameDline_iff {c : Config} {n : Nat} : sameDline c n (4 * (x.toNat / 4)) = true ↔
    dlineOf c x.toNat = dlineOf c n ∧ dtagOf c x.toNat = dtagOf c n := by
  unfold sameDline
  rw [(dlineOf_word c x.toNat).1, (dlineOf_word c x.toNat).2]
  simp

/-- `flushd` is event (a) of R89 for the words of a dirty line it writes back and for those of the address's own line. -/
theorem hazardAt_flushIndex (hc : s.cfg.hasDcache = true) : (s.flushIndex pa).hazardAt x =
    if ((s.dcacheHit x = true ∧ dlineOf s.cfg x.toNat = dlineOf s.cfg pa.toNat ∧
          (s.dline (dlineOf s.cfg pa.toNat)).dirty = true) ∨
        (dlineOf s.cfg x.toNat = dlineOf s.cfg pa.toNat ∧ dtagOf s.cfg x.toNat = dtagOf s.cfg pa.toNat)) ∧
        s.hazardAt x = .needsWriteBack then stageAfterWriteBack s.cfg
    else s.hazardAt x := by
  unfold State.flushIndex
  rw [if_pos hc, hazardAt_moveHazard (by decide), hazardAt_flushDline]
  refine if_congr ?_ rfl rfl
  rw [Bool.or_eq_true, wordInDirtyLine_iff hc, sameDline_iff, and_comm]

/-- `flushda` is event (a) of R89 for the words of the address's own line. -/
theorem hazardAt_flushAddress (hc : s.cfg.hasDcache = true) : (s.flushAddress pa).hazardAt x =
    if (dlineOf s.cfg x.toNat = dlineOf s.cfg pa.toNat ∧ dtagOf s.cfg x.toNat = dtagOf s.cfg pa.toNat) ∧
        s.hazardAt x = .needsWriteBack then stageAfterWriteBack s.cfg
    else s.hazardAt x := by
  have hz : (if s.dcacheHit pa = true then s.flushDline (dlineOf s.cfg pa.toNat) else s).hazardAt x = s.hazardAt x := by
    split
    · exact hazardAt_flushDline
    · rfl
  unfold State.flushAddress
  rw [if_pos hc, hazardAt_moveHazard (by decide), hz]
  refine if_congr ?_ rfl rfl
  rw [sameDline_iff, and_comm]

/-! ## What a load or a store can answer -/

/-- All that a load's access can answer when it is made. -/
theorem memRead_ok {answer : Word × State} (h : s.memRead path w ea = .ok answer) :
    ∃ pa r, widthBytes w ∣ ea.toNat ∧ s.protectData .read ea = .ok pa ∧ s.admitted .read path pa = .ok r ∧
      ((r.peripheral = true ∧ answer =
        (truncateTo w (Config.deviceAnswer s.bus s.pending pa (widthBytes w)), s.onBus (.load pa (widthBytes w)))) ∨
      (r.peripheral = false ∧ path = .plain ∧ answer =
        (readValue (s.plainAccess pa (.load pa (widthBytes w))).byteAt w pa, s.plainAccess pa (.load pa (widthBytes w)))) ∨
      (r.peripheral = false ∧ path = .io ∧ answer =
        (readValue s.memByte w pa, s.onBus (.load pa (widthBytes w))))) := by
  unfold State.memRead at h
  cases hd : s.dataAddress .read w ea with
  | error e => rw [hd] at h; cases h
  | ok pa =>
    rw [hd] at h
    cases ha : s.admitted .read path pa with
    | error e => simp only [ha] at h; cases h
    | ok r =>
      simp only [ha] at h
      refine ⟨pa, r, (dataAddress_ok.mp hd).1, (dataAddress_ok.mp hd).2, ha, ?_⟩
      cases hp : r.peripheral
      · cases path <;> simp only [hp, Bool.false_eq_true, if_false, Except.ok.injEq] at h
        · exact .inr (.inl ⟨rfl, rfl, h.symm⟩)
        · exact .inr (.inr ⟨rfl, rfl, h.symm⟩)
      · simp only [hp, if_true, Except.ok.injEq] at h
        exact .inl ⟨rfl, h.symm⟩

theorem memRead_of (hd : widthBytes w ∣ ea.toNat) (hp : s.protectData .read ea = .ok pa)
    (ha : s.admitted .read path pa = .ok r) : s.memRead path w ea =
      if r.peripheral then
        .ok (truncateTo w (Config.deviceAnswer s.bus s.pending pa (widthBytes w)), s.onBus (.load pa (widthBytes w)))
      else match path with
        | .plain => .ok (readValue (s.plainAccess pa (.load pa (widthBytes w))).byteAt w pa,
            s.plainAccess pa (.load pa (widthBytes w)))
        | .io => .ok (readValue s.memByte w pa, s.onBus (.load pa (widthBytes w))) := by
  unfold State.memRead
  rw [dataAddress_ok.mpr ⟨hd, hp⟩]
  simp only [ha]
  cases path <;> rfl

/-- The state a store leaves, before `pc` moves on. -/
def storedState (s : State) (path : Path) (w : Width) (pa v : Word) (peripheral : Bool) : State :=
  if peripheral then (s.onBus (.store pa (widthBytes w) (truncateTo w v))).markModified path w pa
  else match path with
    | .plain => (writeValue State.storeByte w pa v
        (s.plainAccess pa (.store pa (widthBytes w) (truncateTo w v)))).markModified path w pa
    | .io => (writeValue State.setMemByte w pa v
        (s.onBus (.store pa (widthBytes w) (truncateTo w v)))).markModified path w pa

/-- All that a store's access can answer when it is made. -/
theorem memWrite_ok (h : s.memWrite path w ea v = .ok t) :
    ∃ pa r, widthBytes w ∣ ea.toNat ∧ s.protectData .write ea = .ok pa ∧ s.admitted .write path pa = .ok r ∧
      t = storedState s path w pa v r.peripheral := by
  unfold State.memWrite at h
  cases hd : s.dataAddress .write w ea with
  | error e => rw [hd] at h; cases h
  | ok pa =>
    rw [hd] at h
    cases ha : s.admitted .write path pa with
    | error e => simp only [ha] at h; cases h
    | ok r =>
      simp only [ha] at h
      refine ⟨pa, r, (dataAddress_ok.mp hd).1, (dataAddress_ok.mp hd).2, ha, ?_⟩
      unfold storedState
      cases hp : r.peripheral
      · cases path <;> simp only [hp, Bool.false_eq_true, if_false, Except.ok.injEq] at h ⊢ <;> exact h.symm
      · simp only [hp, if_true, Except.ok.injEq] at h ⊢
        exact h.symm

theorem memWrite_of (hd : widthBytes w ∣ ea.toNat) (hp : s.protectData .write ea = .ok pa)
    (ha : s.admitted .write path pa = .ok r) : s.memWrite path w ea v = .ok (storedState s path w pa v r.peripheral) := by
  unfold State.memWrite storedState
  rw [dataAddress_ok.mpr ⟨hd, hp⟩]
  simp only [ha]
  cases r.peripheral
  · cases path <;> rfl
  · rfl

/-- All that an instruction whose access may be stopped can answer with a next state. -/
theorem settle_next {α : Type} {access : Except Stop α} {done : α → Result} (h : settle s access done = .next t) :
    (∃ y, access = .ok y ∧ done y = .next t) ∨ (∃ e, access = .error (.exception e) ∧ t = takeException e s) := by
  cases access with
  | ok y => exact .inl ⟨y, rfl, h⟩
  | error stop =>
    cases stop with
    | exception e => exact .inr ⟨e, rfl, by cases h; rfl⟩
    | fault f => cases h

/-- All that a load can answer with a next state. -/
theorem loadInto_next {b a : Reg} {imm : Imm16} {extend : Word → Word} (h : loadInto b path w extend a imm s = .next t) :
    (∃ answer, s.memRead path w (s.effectiveAddress a imm) = .ok answer ∧
      writeReg b (extend answer.1) answer.2 = .next t) ∨ ∃ e, t = takeException e s := by
  rcases settle_next h with ⟨y, hy, hd⟩ | ⟨e, -, he⟩
  · exact .inl ⟨y, hy, hd⟩
  · exact .inr ⟨e, he⟩

/-- All that a store can answer with a next state. -/
theorem storeFrom_next {b a : Reg} {imm : Imm16} (h : storeFrom b path w a imm s = .next t) :
    (∃ u, s.memWrite path w (s.effectiveAddress a imm) (s.reg b) = .ok u ∧ t = u.advance) ∨
      ∃ e, t = takeException e s := by
  rcases settle_next h with ⟨y, hy, hd⟩ | ⟨e, -, he⟩
  · exact .inl ⟨y, hy, by cases hd; rfl⟩
  · exact .inr ⟨e, he⟩

/-! ## Bytes written one by one -/

theorem storeByte_eq (s : State) (a : Word) (b : Byte) : s.storeByte a b =
    { s with mem := (s.storeByte a b).mem, dcache := (s.storeByte a b).dcache
             dcacheData := (s.storeByte a b).dcacheData } := by
  unfold State.storeByte
  split <;> rfl

theorem writeValue_storeByte_eq (w : Width) (a v : Word) (s : State) : writeValue State.storeByte w a v s =
    { s with mem := (writeValue State.storeByte w a v s).mem, dcache := (writeValue State.storeByte w a v s).dcache
             dcacheData := (writeValue State.storeByte w a v s).dcacheData } := by
  cases w <;> simp only [writeValue]
  · exact storeByte_eq ..
  · rw [storeByte_eq, storeByte_eq s]
  · rw [storeByte_eq, storeByte_eq (State.storeByte _ _ _), storeByte_eq (State.storeByte s _ _), storeByte_eq s]

theorem writeValue_setMemByte_eq (w : Width) (a v : Word) (s : State) : writeValue State.setMemByte w a v s =
    { s with mem := (writeValue State.setMemByte w a v s).mem } := by
  cases w <;> rfl

theorem truncateTo_eq (w : Width) (v : Word) : truncateTo w v = lowBytes w v := by
  apply BitVec.eq_of_toNat_eq
  have := v.isLt
  cases w <;> simp [truncateTo, lowBytes, widthBytes]
  omega

/-- The bytes of an aligned access stand in one line of the data cache. -/
theorem dlineOf_of_aligned {c : Config} (hd : widthBytes w ∣ pa.toNat) (hx : (x - pa).toNat < widthBytes w) :
    dlineOf c x.toNat = dlineOf c pa.toNat ∧ dtagOf c x.toNat = dtagOf c pa.toNat := by
  have hx4 : x.toNat / 4 = pa.toNat / 4 := by
    have h1 := x.isLt
    have h2 := pa.isLt
    rw [BitVec.toNat_sub] at hx
    cases w <;> simp only [widthBytes_byte, widthBytes_half, widthBytes_word] at hd hx <;> omega
  unfold dlineOf dtagOf dcacheLineBytes
  constructor
  · rw [← Nat.div_div_eq_div_mul, ← Nat.div_div_eq_div_mul, hx4]
  · simp only [Nat.mul_assoc, ← Nat.div_div_eq_div_mul, hx4]

theorem dcacheHit_of_aligned (hd : widthBytes w ∣ pa.toNat) (hx : (x - pa).toNat < widthBytes w) :
    s.dcacheHit x = s.dcacheHit pa := by
  obtain ⟨h1, h2⟩ := dlineOf_of_aligned (c := s.cfg) hd hx
  simp [State.dcacheHit, h1, h2]

end Sys2Proof.Machine
end

