-- ==== Sys2Proof/Laws/Exec.lean ====
section
/-! SUPPORT. All that an instruction can answer with a next state, said once: `exec_next`. The rules of the whole machine
follow from it by cases, with no meaning unfolded. -/

namespace Sys2Proof.Machine

/-- What an instruction did in a step from `s` to `t`. -/
inductive Did (i : Instr) (s t : State) : Prop where
  /-- raised an exception -/
  | raised (e : Exception) (entry : t = takeException e s) (other : e ≠ .breakpoint ∧ e ≠ .interrupt)
  /-- `break` -/
  | broke (n : Imm5) (instr : i = .brk n) (entry : t = takeBreak s)
  /-- wrote its destination and nothing else -/
  | wrote (r : Reg) (v : Word) (names : destination i = some r) (allowed : Writable r s)
      (after : t = (s.setReg r v).advance)
  /-- a division whose quotient is undefined -/
  | drew (r : Reg) (names : destination i = some r) (allowed : Writable r s)
      (after : t = (s.drawn.setReg r (Config.draw32 s.draws)).advance)
  /-- went somewhere and nothing else -/
  | went (target : Word) (aligned : Word.Aligned4 target) (after : t = s.goto target)
  /-- went on at `pc + 4` and nothing else -/
  | advanced (after : t = s.advance)
  /-- `call`, `callr` -/
  | called (target : Word) (aligned : Word.Aligned4 target) (instr : (∃ imm, i = .call imm) ∨ ∃ a, i = .callr a)
      (after : t = (s.setReg raReg (s.pc + 4#32)).goto target)
  /-- loaded -/
  | loaded (con : Reg → Imm16 → Reg → Instr) (path : Path) (w : Width) (signed : Bool) (r : Reg) (imm : Imm16) (a : Reg)
      (v : Word) (answer : Word × State) (form : (con, path, w, signed) ∈ loadForms) (instr : i = con r imm a)
      (names : destination i = some r) (access : s.memRead path w (s.effectiveAddress a imm) = .ok answer)
      (allowed : Writable r answer.2) (after : t = (answer.2.setReg r v).advance)
  /-- stored -/
  | stored (con : Reg → Imm16 → Reg → Instr) (path : Path) (w : Width) (b : Reg) (imm : Imm16) (a : Reg) (u : State)
      (form : (con, path, w) ∈ storeForms) (instr : i = con b imm a)
      (access : s.memWrite path w (s.effectiveAddress a imm) (s.reg b) = .ok u) (after : t = u.advance)
  /-- `flushd` -/
  | flushedIndex (imm : Imm16) (a : Reg) (instr : i = .flushd imm a)
      (after : t = (s.flushIndex (s.effectiveAddress a imm)).advance)
  /-- `flushda` -/
  | flushedAddress (imm : Imm16) (a : Reg) (pa : Word) (instr : i = .flushda imm a)
      (access : s.cacheOpAddress (s.effectiveAddress a imm) = .ok pa) (after : t = (s.flushAddress pa).advance)
  /-- `initd` -/
  | initIndex (ea : Word) (after : t = (s.initIndex ea).advance)
  /-- `initda` -/
  | initAddress (pa : Word) (after : t = (s.initAddress pa).advance)
  /-- `flushi`, `initi` -/
  | invalidated (address : Word) (after : t = (s.invalidateInstruction address).advance)
  /-- `flushp` -/
  | flushedPipeline (after : t = s.flushHazard.advance)
  /-- `sync` without in-order memory -/
  | synced (pending : s.cfg.inOrderMemory = false) (after : t = s.completePending.advance)
  /-- `eret` -/
  | returned (supervisor : s.userMode = false) (aligned : Word.Aligned4 (s.reg eaReg))
      (after : t = { s with
        status := s.estatus, crs := s.nextCrs .exceptionReturn, draws := s.drawsAfterPolicy, pc := s.reg eaReg })
  /-- `bret` -/
  | returnedFromBreak (supervisor : s.userMode = false) (aligned : Word.Aligned4 (s.reg baReg))
      (after : t = { s with status := s.bstatus, pc := s.reg baReg })
  /-- `wrctl` -/
  | wroteControl (n : Imm5) (v : Word) (u : State) (supervisor : s.userMode = false) (access : s.writeCtl n v = some u)
      (after : t = u.advance)
  /-- `wrprs` -/
  | wrotePrevious (c a : Reg) (instr : i = .wrprs c a) (supervisor : s.userMode = false) (set : s.prs ≤ s.cfg.numShadow)
      (after : t = (s.setRegOf s.prs c (s.reg a)).advance)
  /-- `custom` with a destination in the register file -/
  | customWrote (n : BitVec 8) (state : List Word) (r : Reg) (v : Word) (names : destination i = some r)
      (allowed : Writable r s) (after : t = ((s.setCustomState n state).setReg r v).advance)
  /-- `custom` without one -/
  | customRan (n : BitVec 8) (state : List Word) (after : t = (s.setCustomState n state).advance)

variable {i : Instr} {s t : State} {r : Reg} {v : Word}

theorem Did.of_writeReg (hd : destination i = some r) (h : writeReg r v s = .next t) : Did i s t := by
  rcases writeReg_cases r v s with ⟨hw, he⟩ | ⟨-, he⟩ <;> rw [he] at h <;> cases h
  exact .wrote r v hd hw rfl

theorem Did.of_raise {e : Exception} (he : e ≠ .breakpoint ∧ e ≠ .interrupt) (h : raise e s = .next t) : Did i s t := by
  cases h
  exact .raised e rfl he

theorem Did.of_optional {implemented : Bool} {effect : Result} (h : optionalInstr implemented s effect = .next t)
    (k : effect = .next t → Did i s t) : Did i s t := by
  rcases optionalInstr_next h with ⟨-, rfl⟩ | ⟨-, he⟩
  · exact .raised _ rfl (by decide)
  · exact k he

theorem Did.of_supervisor {effect : Result} (h : supervisorOnly s effect = .next t)
    (k : s.userMode = false → effect = .next t → Did i s t) : Did i s t := by
  rcases supervisorOnly_next h with ⟨-, rfl⟩ | ⟨hu, he⟩
  · exact .raised _ rfl (by decide)
  · exact k hu he

theorem Did.of_branch {condition : Bool} {imm : Imm16} (h : branchIf condition imm s = .next t) : Did i s t := by
  rcases branchIf_next h with ⟨-, ha, rfl⟩ | ⟨-, -, rfl⟩ | ⟨-, rfl⟩
  · exact .went _ ha rfl
  · exact .raised _ rfl (by decide)
  · exact .advanced rfl

theorem Did.of_undefinedQuotient (hd : destination i = some r) (h : undefinedQuotient r s = .next t) : Did i s t := by
  unfold undefinedQuotient at h
  split at h
  · exact .of_raise (by decide) h
  · rcases writeReg_cases r (Config.draw32 s.draws) s.drawn with ⟨hw, he⟩ | ⟨-, he⟩ <;> rw [he] at h <;> cases h
    exact .drew r hd hw rfl

theorem settle_exception_ne {α : Type} {access : Except Stop α} {done : α → Result}
    (hne : ∀ e, access = .error (.exception e) → e ≠ .breakpoint ∧ e ≠ .interrupt) (h : settle s access done = .next t) :
    (∃ y, access = .ok y ∧ done y = .next t) ∨ Did i s t := by
  rcases settle_next h with ⟨y, hy, hd⟩ | ⟨e, he, ht⟩
  · exact .inl ⟨y, hy, hd⟩
  · exact .inr (.raised e ht (hne e he))

theorem dataException_ne (kind : AccessKind) (v : DataViolation) :
    dataException kind v ≠ .breakpoint ∧ dataException kind v ≠ .interrupt := by
  cases kind <;> cases v <;> decide

theorem dataAddress_exception {kind : AccessKind} {w : Width} {ea : Word} {e : Exception}
    (h : s.dataAddress kind w ea = .error (.exception e)) : e ≠ .breakpoint ∧ e ≠ .interrupt := by
  unfold State.dataAddress at h
  cases hp : s.protectData kind ea with
  | ok pa =>
    simp only [hp] at h
    cases hm : misaligned w ea <;> cases hc : s.cfg.misalignedDataExc <;> simp [hc, hm] at h
    subst h
    decide
  | error v =>
    simp only [hp] at h
    have hv := dataException_ne kind v
    cases v <;> cases hm : misaligned w ea <;> cases hc : s.cfg.misalignedDataExc <;> simp [hc, hm] at h <;> subst h <;>
      first | exact hv | decide

theorem admitted_exception {kind : AccessKind} {path : Path} {pa : Word} {e : Exception} :
    s.admitted kind path pa ≠ .error (.exception e) := by
  unfold State.admitted
  split
  · simp
  · repeat' split
    all_goals simp

theorem memRead_exception {path : Path} {w : Width} {ea : Word} {e : Exception}
    (h : s.memRead path w ea = .error (.exception e)) : e ≠ .breakpoint ∧ e ≠ .interrupt := by
  unfold State.memRead at h
  split at h
  · next stop hs =>
    cases h
    exact dataAddress_exception hs
  · split at h
    · next hs =>
      cases h
      exact absurd hs admitted_exception
    · split at h
      · cases h
      · cases path <;> cases h

theorem memWrite_exception {path : Path} {w : Width} {ea : Word} {e : Exception}
    (h : s.memWrite path w ea v = .error (.exception e)) : e ≠ .breakpoint ∧ e ≠ .interrupt := by
  unfold State.memWrite at h
  split at h
  · next stop hs =>
    cases h
    exact dataAddress_exception hs
  · split at h
    · next hs =>
      cases h
      exact absurd hs admitted_exception
    · split at h
      · cases h
      · cases path <;> cases h

theorem cacheOpAddress_exception {ea : Word} {e : Exception} (h : s.cacheOpAddress ea = .error (.exception e)) :
    e ≠ .breakpoint ∧ e ≠ .interrupt := by
  unfold State.cacheOpAddress at h
  split at h
  · split at h
    · cases h
    · next w _ =>
      cases h
      cases w <;> decide
  · cases h

theorem Did.of_load {con : Reg → Imm16 → Reg → Instr} {signed : Bool} {b a : Reg} {path : Path} {w : Width}
    {extend : Word → Word} {imm : Imm16} (hf : (con, path, w, signed) ∈ loadForms) (hi : i = con b imm a)
    (hd : destination i = some b) (h : loadInto b path w extend a imm s = .next t) : Did i s t := by
  rcases settle_exception_ne (i := i) (fun _ => memRead_exception) h with ⟨y, hy, hw⟩ | h
  · rcases writeReg_cases b (extend y.1) y.2 with ⟨ha, he⟩ | ⟨-, he⟩ <;> rw [he] at hw <;> cases hw
    exact .loaded con path w signed b imm a _ y hf hi hd hy ha rfl
  · exact h

theorem Did.of_store {con : Reg → Imm16 → Reg → Instr} {b a : Reg} {path : Path} {w : Width} {imm : Imm16}
    (hf : (con, path, w) ∈ storeForms) (hi : i = con b imm a) (h : storeFrom b path w a imm s = .next t) : Did i s t := by
  rcases settle_exception_ne (i := i) (fun _ => memWrite_exception) h with ⟨y, hy, hw⟩ | h
  · cases hw
    exact .stored con path w b imm a y hf hi hy rfl
  · exact h

theorem Did.of_return {saved target : Word} {crs draws : Nat}
    (h : returnTo saved target crs draws s = .next t)
    (k : Word.Aligned4 target → t = { s with status := saved, crs := crs, draws := draws, pc := target } → Did i s t) :
    Did i s t := by
  rcases transferTo_next h with ⟨ha, rfl⟩ | ⟨-, rfl⟩
  · exact k ha rfl
  · exact .raised _ rfl (by decide)

theorem Did.of_previousSet {effect : Result} (h : withPreviousSet s effect = .next t)
    (k : s.userMode = false → s.prs ≤ s.cfg.numShadow → effect = .next t → Did i s t) : Did i s t := by
  refine Did.of_supervisor h fun hu he => ?_
  split at he
  · exact .of_raise (by decide) he
  · split at he
    · cases he
    · exact k hu (by omega) he

theorem aligned_segmentTarget (pc : Word) (imm : Imm26) : Word.Aligned4 (segmentTarget pc imm) := by
  rw [aligned4_iff_dvd]
  unfold segmentTarget
  rw [BitVec.toNat_append, Nat.shiftLeft_eq]
  exact ⟨_, by simp only [BitVec.toNat_ofNat, Nat.zero_mod, Nat.or_zero]; exact Nat.mul_comm _ _⟩

/-- Every next state an instruction answers. -/
theorem exec_next (h : exec i s = .next t) : Did i s t := by
  cases i with
  | add c a b | sub c a b | and c a b | or c a b | xor c a b | nor c a b | cmpeq c a b | cmpne c a b | cmpge c a b
  | cmpgeu c a b | cmplt c a b | cmpltu c a b | rol c a b | ror c a b | sll c a b | sra c a b | srl c a b =>
    exact .of_writeReg rfl h
  | addi b a imm | andi b a imm | andhi b a imm | ori b a imm | orhi b a imm | xori b a imm | xorhi b a imm
  | cmpeqi b a imm | cmpnei b a imm | cmpgei b a imm | cmpgeui b a imm | cmplti b a imm | cmpltui b a imm =>
    exact .of_writeReg rfl h
  | roli c a n | slli c a n | srai c a n | srli c a n | nextpc c => exact .of_writeReg rfl h
  | mul c a b | mulxss c a b | mulxsu c a b | mulxuu c a b | muli b a imm =>
    exact .of_optional h fun he => .of_writeReg rfl he
  | div c a b | divu c a b =>
    refine .of_optional h fun he => ?_
    split at he
    · exact .of_undefinedQuotient rfl he
    · exact .of_writeReg rfl he
  | br imm => exact .of_branch (condition := true) (imm := imm) h
  | beq a b imm | bne a b imm | bge a b imm | bgeu a b imm | blt a b imm | bltu a b imm => exact .of_branch h
  | call imm =>
    cases h
    exact .called _ (aligned_segmentTarget s.pc imm) (.inl ⟨imm, rfl⟩) rfl
  | callr a =>
    rcases transferTo_next h with ⟨ha, rfl⟩ | ⟨-, rfl⟩
    · exact .called _ ha (.inr ⟨a, rfl⟩) rfl
    · exact .raised _ rfl (by decide)
  | jmp a =>
    change (if a = 31#5 then _ else _) = _ at h
    split at h
    · cases h
    · rcases transferTo_next h with ⟨ha, rfl⟩ | ⟨-, rfl⟩
      · exact .went _ ha rfl
      · exact .raised _ rfl (by decide)
  | jmpi imm =>
    cases h
    exact .went _ (aligned_segmentTarget s.pc imm) rfl
  | ret =>
    rcases transferTo_next h with ⟨ha, rfl⟩ | ⟨-, rfl⟩
    · exact .went _ ha rfl
    · exact .raised _ rfl (by decide)
  | ldb b imm a | ldbio b imm a | ldh b imm a | ldhio b imm a =>
    exact .of_load (signed := true) (by simp [loadForms]) rfl rfl h
  | ldbu b imm a | ldbuio b imm a | ldhu b imm a | ldhuio b imm a | ldw b imm a | ldwio b imm a =>
    exact .of_load (signed := false) (by simp [loadForms]) rfl rfl h
  | stb b imm a | stbio b imm a | sth b imm a | sthio b imm a | stw b imm a | stwio b imm a =>
    exact .of_store (by simp [storeForms]) rfl h
  | flushd imm a => cases h; exact .flushedIndex imm a rfl rfl
  | flushda imm a =>
    rcases settle_exception_ne (i := .flushda imm a) (fun _ => cacheOpAddress_exception) h with ⟨y, hy, hd⟩ | h
    · cases hd; exact .flushedAddress imm a y rfl hy rfl
    · exact h
  | initd imm a => exact .of_supervisor h fun _ he => by cases he; exact .initIndex _ rfl
  | initda imm a =>
    refine .of_optional h fun he => ?_
    rcases settle_exception_ne (i := .initda imm a) (fun _ => cacheOpAddress_exception) he with ⟨y, -, hd⟩ | h
    · cases hd; exact .initAddress y rfl
    · exact h
  | flushi a => cases h; exact .invalidated _ rfl
  | initi a => exact .of_supervisor h fun _ he => by cases he; exact .invalidated _ rfl
  | flushp => cases h; exact .flushedPipeline rfl
  | sync =>
    cases h
    cases hm : s.cfg.inOrderMemory
    · exact .synced hm rfl
    · exact .advanced rfl
  | trap n => exact .of_raise (by decide) h
  | eret =>
    exact .of_supervisor h fun hu he => .of_return he fun ha ht => .returned hu ha ht
  | brk n => cases h; exact .broke n rfl rfl
  | bret => exact .of_supervisor h fun hu he => .of_return he fun ha ht => .returnedFromBreak hu ha ht
  | rdctl c n =>
    refine .of_supervisor h fun _ he => ?_
    split at he
    · exact .of_writeReg rfl he
    · cases he
  | wrctl n a =>
    refine .of_supervisor h fun hu he => ?_
    split at he
    · next u hc =>
      cases he
      exact .wroteControl n _ u hu hc rfl
    · cases he
  | rdprs b a imm => exact .of_previousSet h fun _ _ he => .of_writeReg rfl he
  | wrprs c a => exact .of_previousSet h fun hu hp he => by cases he; exact .wrotePrevious c a rfl hu hp rfl
  | custom n c a b ra rb wc =>
    change (match s.cfg.custom.lookup n with | none => _ | some f => _) = _ at h
    split at h
    · rw [reservedEncoding_next h]
      exact .raised _ rfl (by decide)
    · cases wc
      · cases h
        exact .customRan n _ rfl
      · rcases writeReg_cases c (customAnswer _ n (s.customCall n c a b ra rb true)).1
          (s.setCustomState n (customAnswer _ n (s.customCall n c a b ra rb true)).2) with ⟨hw, he⟩ | ⟨-, he⟩ <;>
          rw [if_pos rfl, he] at h <;> cases h
        exact .customWrote n _ c _ rfl hw rfl

end Sys2Proof.Machine
end

