-- ==== Sys2Proof/Laws/PerInstr.lean ====
section
/-! SUPPORT. The family `Encoding`: the word of every instruction matches its row of spec/opcode_table.json, one lemma
per constructor. The masks and patterns are the table's, not the encoder's. -/

namespace Sys2Proof.Laws

/-- The strict `mask` and `match` of the instruction's row of spec/opcode_table.json (30_encoding.md R120). -/
def tableRow (i : Instr) : Word × Word :=
  match i with
  | .add _ _ _ => (0x0001FFFF#32, 0x0001883A#32)
  | .addi _ _ _ => (0x0000003F#32, 0x00000004#32)
  | .sub _ _ _ => (0x0001FFFF#32, 0x0001C83A#32)
  | .mul _ _ _ => (0x0001FFFF#32, 0x0001383A#32)
  | .muli _ _ _ => (0x0000003F#32, 0x00000024#32)
  | .mulxss _ _ _ => (0x0001FFFF#32, 0x0000F83A#32)
  | .mulxsu _ _ _ => (0x0001FFFF#32, 0x0000B83A#32)
  | .mulxuu _ _ _ => (0x0001FFFF#32, 0x0000383A#32)
  | .div _ _ _ => (0x0001FFFF#32, 0x0001283A#32)
  | .divu _ _ _ => (0x0001FFFF#32, 0x0001203A#32)
  | .and _ _ _ => (0x0001FFFF#32, 0x0000703A#32)
  | .andi _ _ _ => (0x0000003F#32, 0x0000000C#32)
  | .andhi _ _ _ => (0x0000003F#32, 0x0000002C#32)
  | .or _ _ _ => (0x0001FFFF#32, 0x0000B03A#32)
  | .ori _ _ _ => (0x0000003F#32, 0x00000014#32)
  | .orhi _ _ _ => (0x0000003F#32, 0x00000034#32)
  | .xor _ _ _ => (0x0001FFFF#32, 0x0000F03A#32)
  | .xori _ _ _ => (0x0000003F#32, 0x0000001C#32)
  | .xorhi _ _ _ => (0x0000003F#32, 0x0000003C#32)
  | .nor _ _ _ => (0x0001FFFF#32, 0x0000303A#32)
  | .cmpeq _ _ _ => (0x0001FFFF#32, 0x0001003A#32)
  | .cmpeqi _ _ _ => (0x0000003F#32, 0x00000020#32)
  | .cmpne _ _ _ => (0x0001FFFF#32, 0x0000C03A#32)
  | .cmpnei _ _ _ => (0x0000003F#32, 0x00000018#32)
  | .cmpge _ _ _ => (0x0001FFFF#32, 0x0000403A#32)
  | .cmpgei _ _ _ => (0x0000003F#32, 0x00000008#32)
  | .cmpgeu _ _ _ => (0x0001FFFF#32, 0x0001403A#32)
  | .cmpgeui _ _ _ => (0x0000003F#32, 0x00000028#32)
  | .cmplt _ _ _ => (0x0001FFFF#32, 0x0000803A#32)
  | .cmplti _ _ _ => (0x0000003F#32, 0x00000010#32)
  | .cmpltu _ _ _ => (0x0001FFFF#32, 0x0001803A#32)
  | .cmpltui _ _ _ => (0x0000003F#32, 0x00000030#32)
  | .rol _ _ _ => (0x0001FFFF#32, 0x0000183A#32)
  | .roli _ _ _ => (0x07C1F83F#32, 0x0000103A#32)
  | .ror _ _ _ => (0x0001FFFF#32, 0x0000583A#32)
  | .sll _ _ _ => (0x0001FFFF#32, 0x0000983A#32)
  | .slli _ _ _ => (0x07C1F83F#32, 0x0000903A#32)
  | .sra _ _ _ => (0x0001FFFF#32, 0x0001D83A#32)
  | .srai _ _ _ => (0x07C1F83F#32, 0x0001D03A#32)
  | .srl _ _ _ => (0x0001FFFF#32, 0x0000D83A#32)
  | .srli _ _ _ => (0x07C1F83F#32, 0x0000D03A#32)
  | .br _ => (0xFFC0003F#32, 0x00000006#32)
  | .beq _ _ _ => (0x0000003F#32, 0x00000026#32)
  | .bne _ _ _ => (0x0000003F#32, 0x0000001E#32)
  | .bge _ _ _ => (0x0000003F#32, 0x0000000E#32)
  | .bgeu _ _ _ => (0x0000003F#32, 0x0000002E#32)
  | .blt _ _ _ => (0x0000003F#32, 0x00000016#32)
  | .bltu _ _ _ => (0x0000003F#32, 0x00000036#32)
  | .call _ => (0x0000003F#32, 0x00000000#32)
  | .callr _ => (0x07FFFFFF#32, 0x003EE83A#32)
  | .jmp _ => (0x07FFFFFF#32, 0x0000683A#32)
  | .jmpi _ => (0x0000003F#32, 0x00000001#32)
  | .ret => (0xFFFFFFFF#32, 0xF800283A#32)
  | .nextpc _ => (0xFFC1FFFF#32, 0x0000E03A#32)
  | .ldb _ _ _ => (0x0000003F#32, 0x00000007#32)
  | .ldbio _ _ _ => (0x0000003F#32, 0x00000027#32)
  | .ldbu _ _ _ => (0x0000003F#32, 0x00000003#32)
  | .ldbuio _ _ _ => (0x0000003F#32, 0x00000023#32)
  | .ldh _ _ _ => (0x0000003F#32, 0x0000000F#32)
  | .ldhio _ _ _ => (0x0000003F#32, 0x0000002F#32)
  | .ldhu _ _ _ => (0x0000003F#32, 0x0000000B#32)
  | .ldhuio _ _ _ => (0x0000003F#32, 0x0000002B#32)
  | .ldw _ _ _ => (0x0000003F#32, 0x00000017#32)
  | .ldwio _ _ _ => (0x0000003F#32, 0x00000037#32)
  | .stb _ _ _ => (0x0000003F#32, 0x00000005#32)
  | .stbio _ _ _ => (0x0000003F#32, 0x00000025#32)
  | .sth _ _ _ => (0x0000003F#32, 0x0000000D#32)
  | .sthio _ _ _ => (0x0000003F#32, 0x0000002D#32)
  | .stw _ _ _ => (0x0000003F#32, 0x00000015#32)
  | .stwio _ _ _ => (0x0000003F#32, 0x00000035#32)
  | .flushd _ _ => (0x07C0003F#32, 0x0000003B#32)
  | .flushda _ _ => (0x07C0003F#32, 0x0000001B#32)
  | .initd _ _ => (0x07C0003F#32, 0x00000033#32)
  | .initda _ _ => (0x07C0003F#32, 0x00000013#32)
  | .flushi _ => (0x07FFFFFF#32, 0x0000603A#32)
  | .initi _ => (0x07FFFFFF#32, 0x0001483A#32)
  | .flushp => (0x07FFFFFF#32, 0x0000203A#32)
  | .sync => (0xFFFFFFFF#32, 0x0001B03A#32)
  | .trap _ => (0xFFFFF83F#32, 0x003B683A#32)
  | .eret => (0xFFC1FFFF#32, 0xEF80083A#32)
  | .brk _ => (0xFFFFF83F#32, 0x003DA03A#32)
  | .bret => (0xFFFFFFFF#32, 0xF03C483A#32)
  | .rdctl _ _ => (0xFFC1F83F#32, 0x0001303A#32)
  | .wrctl _ _ => (0x07FFF83F#32, 0x0001703A#32)
  | .rdprs _ _ _ => (0x0000003F#32, 0x00000038#32)
  | .wrprs _ _ => (0x07C1FFFF#32, 0x0000A03A#32)
  | .custom _ _ _ _ _ _ _ => (0x0000003F#32, 0x00000032#32)

/-- The fields of a masked word are its masked fields. -/
theorem iType_and (a b ma mb : Reg) (imm mi : Imm16) (op mo : BitVec 6) :
    iType a b imm op &&& iType ma mb mi mo = iType (a &&& ma) (b &&& mb) (imm &&& mi) (op &&& mo) := by
  ext i hi
  simp only [← BitVec.getLsbD_eq_getElem, iType, BitVec.getLsbD_and, BitVec.getLsbD_append]
  split_ifs <;> rfl

theorem rType_and (a b c ma mb mc : Reg) (x6 m6 : BitVec 6) (x5 m5 : Imm5) :
    rType a b c x6 x5 &&& (ma ++ mb ++ mc ++ m6 ++ m5 ++ 63#6) =
      rType (a &&& ma) (b &&& mb) (c &&& mc) (x6 &&& m6) (x5 &&& m5) := by
  ext i hi
  simp only [← BitVec.getLsbD_eq_getElem, rType, BitVec.getLsbD_and, BitVec.getLsbD_append]
  split_ifs
  · exact (BitVec.getLsbD_and (x := 0x3A#6) (y := 0x3F#6)).symm
  all_goals rfl

theorem jType_and (imm mi : Imm26) (op mo : BitVec 6) :
    jType imm op &&& jType mi mo = jType (imm &&& mi) (op &&& mo) := by
  ext i hi
  simp only [← BitVec.getLsbD_eq_getElem, jType, BitVec.getLsbD_and, BitVec.getLsbD_append]
  split_ifs <;> rfl

namespace Encoding

/-- The word of the instruction under its row's mask is its row's pattern. -/
def Statement (i : Instr) : Prop := encode i &&& (tableRow i).1 = (tableRow i).2

theorem add (c a b : Reg) : Statement (.add c a b) := by
  exact (rType_and _ _ _ 0#5 0#5 0#5 _ 63#6 _ 31#5).trans (by simp [rType, tableRow])

theorem addi (b a : Reg) (imm : Imm16) : Statement (.addi b a imm) := by
  exact (iType_and _ _ 0#5 0#5 _ 0#16 _ 63#6).trans (by simp [iType, tableRow])

theorem sub (c a b : Reg) : Statement (.sub c a b) := by
  exact (rType_and _ _ _ 0#5 0#5 0#5 _ 63#6 _ 31#5).trans (by simp [rType, tableRow])

theorem mul (c a b : Reg) : Statement (.mul c a b) := by
  exact (rType_and _ _ _ 0#5 0#5 0#5 _ 63#6 _ 31#5).trans (by simp [rType, tableRow])

theorem muli (b a : Reg) (imm : Imm16) : Statement (.muli b a imm) := by
  exact (iType_and _ _ 0#5 0#5 _ 0#16 _ 63#6).trans (by simp [iType, tableRow])

theorem mulxss (c a b : Reg) : Statement (.mulxss c a b) := by
  exact (rType_and _ _ _ 0#5 0#5 0#5 _ 63#6 _ 31#5).trans (by simp [rType, tableRow])

theorem mulxsu (c a b : Reg) : Statement (.mulxsu c a b) := by
  exact (rType_and _ _ _ 0#5 0#5 0#5 _ 63#6 _ 31#5).trans (by simp [rType, tableRow])

theorem mulxuu (c a b : Reg) : Statement (.mulxuu c a b) := by
  exact (rType_and _ _ _ 0#5 0#5 0#5 _ 63#6 _ 31#5).trans (by simp [rType, tableRow])

theorem div (c a b : Reg) : Statement (.div c a b) := by
  exact (rType_and _ _ _ 0#5 0#5 0#5 _ 63#6 _ 31#5).trans (by simp [rType, tableRow])

theorem divu (c a b : Reg) : Statement (.divu c a b) := by
  exact (rType_and _ _ _ 0#5 0#5 0#5 _ 63#6 _ 31#5).trans (by simp [rType, tableRow])

theorem and (c a b : Reg) : Statement (.and c a b) := by
  exact (rType_and _ _ _ 0#5 0#5 0#5 _ 63#6 _ 31#5).trans (by simp [rType, tableRow])

theorem andi (b a : Reg) (imm : Imm16) : Statement (.andi b a imm) := by
  exact (iType_and _ _ 0#5 0#5 _ 0#16 _ 63#6).trans (by simp [iType, tableRow])

theorem andhi (b a : Reg) (imm : Imm16) : Statement (.andhi b a imm) := by
  exact (iType_and _ _ 0#5 0#5 _ 0#16 _ 63#6).trans (by simp [iType, tableRow])

theorem or (c a b : Reg) : Statement (.or c a b) := by
  exact (rType_and _ _ _ 0#5 0#5 0#5 _ 63#6 _ 31#5).trans (by simp [rType, tableRow])

theorem ori (b a : Reg) (imm : Imm16) : Statement (.ori b a imm) := by
  exact (iType_and _ _ 0#5 0#5 _ 0#16 _ 63#6).trans (by simp [iType, tableRow])

theorem orhi (b a : Reg) (imm : Imm16) : Statement (.orhi b a imm) := by
  exact (iType_and _ _ 0#5 0#5 _ 0#16 _ 63#6).trans (by simp [iType, tableRow])

theorem xor (c a b : Reg) : Statement (.xor c a b) := by
  exact (rType_and _ _ _ 0#5 0#5 0#5 _ 63#6 _ 31#5).trans (by simp [rType, tableRow])

theorem xori (b a : Reg) (imm : Imm16) : Statement (.xori b a imm) := by
  exact (iType_and _ _ 0#5 0#5 _ 0#16 _ 63#6).trans (by simp [iType, tableRow])

theorem xorhi (b a : Reg) (imm : Imm16) : Statement (.xorhi b a imm) := by
  exact (iType_and _ _ 0#5 0#5 _ 0#16 _ 63#6).trans (by simp [iType, tableRow])

theorem nor (c a b : Reg) : Statement (.nor c a b) := by
  exact (rType_and _ _ _ 0#5 0#5 0#5 _ 63#6 _ 31#5).trans (by simp [rType, tableRow])

theorem cmpeq (c a b : Reg) : Statement (.cmpeq c a b) := by
  exact (rType_and _ _ _ 0#5 0#5 0#5 _ 63#6 _ 31#5).trans (by simp [rType, tableRow])

theorem cmpeqi (b a : Reg) (imm : Imm16) : Statement (.cmpeqi b a imm) := by
  exact (iType_and _ _ 0#5 0#5 _ 0#16 _ 63#6).trans (by simp [iType, tableRow])

theorem cmpne (c a b : Reg) : Statement (.cmpne c a b) := by
  exact (rType_and _ _ _ 0#5 0#5 0#5 _ 63#6 _ 31#5).trans (by simp [rType, tableRow])

theorem cmpnei (b a : Reg) (imm : Imm16) : Statement (.cmpnei b a imm) := by
  exact (iType_and _ _ 0#5 0#5 _ 0#16 _ 63#6).trans (by simp [iType, tableRow])

theorem cmpge (c a b : Reg) : Statement (.cmpge c a b) := by
  exact (rType_and _ _ _ 0#5 0#5 0#5 _ 63#6 _ 31#5).trans (by simp [rType, tableRow])

theorem cmpgei (b a : Reg) (imm : Imm16) : Statement (.cmpgei b a imm) := by
  exact (iType_and _ _ 0#5 0#5 _ 0#16 _ 63#6).trans (by simp [iType, tableRow])

theorem cmpgeu (c a b : Reg) : Statement (.cmpgeu c a b) := by
  exact (rType_and _ _ _ 0#5 0#5 0#5 _ 63#6 _ 31#5).trans (by simp [rType, tableRow])

theorem cmpgeui (b a : Reg) (imm : Imm16) : Statement (.cmpgeui b a imm) := by
  exact (iType_and _ _ 0#5 0#5 _ 0#16 _ 63#6).trans (by simp [iType, tableRow])

theorem cmplt (c a b : Reg) : Statement (.cmplt c a b) := by
  exact (rType_and _ _ _ 0#5 0#5 0#5 _ 63#6 _ 31#5).trans (by simp [rType, tableRow])

theorem cmplti (b a : Reg) (imm : Imm16) : Statement (.cmplti b a imm) := by
  exact (iType_and _ _ 0#5 0#5 _ 0#16 _ 63#6).trans (by simp [iType, tableRow])

theorem cmpltu (c a b : Reg) : Statement (.cmpltu c a b) := by
  exact (rType_and _ _ _ 0#5 0#5 0#5 _ 63#6 _ 31#5).trans (by simp [rType, tableRow])

theorem cmpltui (b a : Reg) (imm : Imm16) : Statement (.cmpltui b a imm) := by
  exact (iType_and _ _ 0#5 0#5 _ 0#16 _ 63#6).trans (by simp [iType, tableRow])

theorem rol (c a b : Reg) : Statement (.rol c a b) := by
  exact (rType_and _ _ _ 0#5 0#5 0#5 _ 63#6 _ 31#5).trans (by simp [rType, tableRow])

theorem roli (c a : Reg) (n : Imm5) : Statement (.roli c a n) := by
  exact (rType_and _ _ _ 0#5 31#5 0#5 _ 63#6 _ 0#5).trans (by simp [rType, tableRow])

theorem ror (c a b : Reg) : Statement (.ror c a b) := by
  exact (rType_and _ _ _ 0#5 0#5 0#5 _ 63#6 _ 31#5).trans (by simp [rType, tableRow])

theorem sll (c a b : Reg) : Statement (.sll c a b) := by
  exact (rType_and _ _ _ 0#5 0#5 0#5 _ 63#6 _ 31#5).trans (by simp [rType, tableRow])

theorem slli (c a : Reg) (n : Imm5) : Statement (.slli c a n) := by
  exact (rType_and _ _ _ 0#5 31#5 0#5 _ 63#6 _ 0#5).trans (by simp [rType, tableRow])

theorem sra (c a b : Reg) : Statement (.sra c a b) := by
  exact (rType_and _ _ _ 0#5 0#5 0#5 _ 63#6 _ 31#5).trans (by simp [rType, tableRow])

theorem srai (c a : Reg) (n : Imm5) : Statement (.srai c a n) := by
  exact (rType_and _ _ _ 0#5 31#5 0#5 _ 63#6 _ 0#5).trans (by simp [rType, tableRow])

theorem srl (c a b : Reg) : Statement (.srl c a b) := by
  exact (rType_and _ _ _ 0#5 0#5 0#5 _ 63#6 _ 31#5).trans (by simp [rType, tableRow])

theorem srli (c a : Reg) (n : Imm5) : Statement (.srli c a n) := by
  exact (rType_and _ _ _ 0#5 31#5 0#5 _ 63#6 _ 0#5).trans (by simp [rType, tableRow])

theorem br (imm : Imm16) : Statement (.br imm) := by
  exact (iType_and _ _ 31#5 31#5 _ 0#16 _ 63#6).trans (by simp [iType, tableRow])

theorem beq (a b : Reg) (imm : Imm16) : Statement (.beq a b imm) := by
  exact (iType_and _ _ 0#5 0#5 _ 0#16 _ 63#6).trans (by simp [iType, tableRow])

theorem bne (a b : Reg) (imm : Imm16) : Statement (.bne a b imm) := by
  exact (iType_and _ _ 0#5 0#5 _ 0#16 _ 63#6).trans (by simp [iType, tableRow])

theorem bge (a b : Reg) (imm : Imm16) : Statement (.bge a b imm) := by
  exact (iType_and _ _ 0#5 0#5 _ 0#16 _ 63#6).trans (by simp [iType, tableRow])

theorem bgeu (a b : Reg) (imm : Imm16) : Statement (.bgeu a b imm) := by
  exact (iType_and _ _ 0#5 0#5 _ 0#16 _ 63#6).trans (by simp [iType, tableRow])

theorem blt (a b : Reg) (imm : Imm16) : Statement (.blt a b imm) := by
  exact (iType_and _ _ 0#5 0#5 _ 0#16 _ 63#6).trans (by simp [iType, tableRow])

theorem bltu (a b : Reg) (imm : Imm16) : Statement (.bltu a b imm) := by
  exact (iType_and _ _ 0#5 0#5 _ 0#16 _ 63#6).trans (by simp [iType, tableRow])

theorem call (imm : Imm26) : Statement (.call imm) := by
  exact (jType_and _ 0#26 _ 63#6).trans (by simp [jType, tableRow])

theorem callr (a : Reg) : Statement (.callr a) := by
  exact (rType_and _ _ _ 0#5 31#5 31#5 _ 63#6 _ 31#5).trans (by simp [rType, tableRow])

theorem jmp (a : Reg) : Statement (.jmp a) := by
  exact (rType_and _ _ _ 0#5 31#5 31#5 _ 63#6 _ 31#5).trans (by simp [rType, tableRow])

theorem jmpi (imm : Imm26) : Statement (.jmpi imm) := by
  exact (jType_and _ 0#26 _ 63#6).trans (by simp [jType, tableRow])

theorem ret : Statement (.ret) := by
  exact (rType_and _ _ _ 31#5 31#5 31#5 _ 63#6 _ 31#5).trans (by simp [rType, tableRow])

theorem nextpc (c : Reg) : Statement (.nextpc c) := by
  exact (rType_and _ _ _ 31#5 31#5 0#5 _ 63#6 _ 31#5).trans (by simp [rType, tableRow])

theorem ldb (b : Reg) (imm : Imm16) (a : Reg) : Statement (.ldb b imm a) := by
  exact (iType_and _ _ 0#5 0#5 _ 0#16 _ 63#6).trans (by simp [iType, tableRow])

theorem ldbio (b : Reg) (imm : Imm16) (a : Reg) : Statement (.ldbio b imm a) := by
  exact (iType_and _ _ 0#5 0#5 _ 0#16 _ 63#6).trans (by simp [iType, tableRow])

theorem ldbu (b : Reg) (imm : Imm16) (a : Reg) : Statement (.ldbu b imm a) := by
  exact (iType_and _ _ 0#5 0#5 _ 0#16 _ 63#6).trans (by simp [iType, tableRow])

theorem ldbuio (b : Reg) (imm : Imm16) (a : Reg) : Statement (.ldbuio b imm a) := by
  exact (iType_and _ _ 0#5 0#5 _ 0#16 _ 63#6).trans (by simp [iType, tableRow])

theorem ldh (b : Reg) (imm : Imm16) (a : Reg) : Statement (.ldh b imm a) := by
  exact (iType_and _ _ 0#5 0#5 _ 0#16 _ 63#6).trans (by simp [iType, tableRow])

theorem ldhio (b : Reg) (imm : Imm16) (a : Reg) : Statement (.ldhio b imm a) := by
  exact (iType_and _ _ 0#5 0#5 _ 0#16 _ 63#6).trans (by simp [iType, tableRow])

theorem ldhu (b : Reg) (imm : Imm16) (a : Reg) : Statement (.ldhu b imm a) := by
  exact (iType_and _ _ 0#5 0#5 _ 0#16 _ 63#6).trans (by simp [iType, tableRow])

theorem ldhuio (b : Reg) (imm : Imm16) (a : Reg) : Statement (.ldhuio b imm a) := by
  exact (iType_and _ _ 0#5 0#5 _ 0#16 _ 63#6).trans (by simp [iType, tableRow])

theorem ldw (b : Reg) (imm : Imm16) (a : Reg) : Statement (.ldw b imm a) := by
  exact (iType_and _ _ 0#5 0#5 _ 0#16 _ 63#6).trans (by simp [iType, tableRow])

theorem ldwio (b : Reg) (imm : Imm16) (a : Reg) : Statement (.ldwio b imm a) := by
  exact (iType_and _ _ 0#5 0#5 _ 0#16 _ 63#6).trans (by simp [iType, tableRow])

theorem stb (b : Reg) (imm : Imm16) (a : Reg) : Statement (.stb b imm a) := by
  exact (iType_and _ _ 0#5 0#5 _ 0#16 _ 63#6).trans (by simp [iType, tableRow])

theorem stbio (b : Reg) (imm : Imm16) (a : Reg) : Statement (.stbio b imm a) := by
  exact (iType_and _ _ 0#5 0#5 _ 0#16 _ 63#6).trans (by simp [iType, tableRow])

theorem sth (b : Reg) (imm : Imm16) (a : Reg) : Statement (.sth b imm a) := by
  exact (iType_and _ _ 0#5 0#5 _ 0#16 _ 63#6).trans (by simp [iType, tableRow])

theorem sthio (b : Reg) (imm : Imm16) (a : Reg) : Statement (.sthio b imm a) := by
  exact (iType_and _ _ 0#5 0#5 _ 0#16 _ 63#6).trans (by simp [iType, tableRow])

theorem stw (b : Reg) (imm : Imm16) (a : Reg) : Statement (.stw b imm a) := by
  exact (iType_and _ _ 0#5 0#5 _ 0#16 _ 63#6).trans (by simp [iType, tableRow])

theorem stwio (b : Reg) (imm : Imm16) (a : Reg) : Statement (.stwio b imm a) := by
  exact (iType_and _ _ 0#5 0#5 _ 0#16 _ 63#6).trans (by simp [iType, tableRow])

theorem flushd (imm : Imm16) (a : Reg) : Statement (.flushd imm a) := by
  exact (iType_and _ _ 0#5 31#5 _ 0#16 _ 63#6).trans (by simp [iType, tableRow])

theorem flushda (imm : Imm16) (a : Reg) : Statement (.flushda imm a) := by
  exact (iType_and _ _ 0#5 31#5 _ 0#16 _ 63#6).trans (by simp [iType, tableRow])

theorem initd (imm : Imm16) (a : Reg) : Statement (.initd imm a) := by
  exact (iType_and _ _ 0#5 31#5 _ 0#16 _ 63#6).trans (by simp [iType, tableRow])

theorem initda (imm : Imm16) (a : Reg) : Statement (.initda imm a) := by
  exact (iType_and _ _ 0#5 31#5 _ 0#16 _ 63#6).trans (by simp [iType, tableRow])

theorem flushi (a : Reg) : Statement (.flushi a) := by
  exact (rType_and _ _ _ 0#5 31#5 31#5 _ 63#6 _ 31#5).trans (by simp [rType, tableRow])

theorem initi (a : Reg) : Statement (.initi a) := by
  exact (rType_and _ _ _ 0#5 31#5 31#5 _ 63#6 _ 31#5).trans (by simp [rType, tableRow])

theorem flushp : Statement (.flushp) := by
  exact (rType_and _ _ _ 0#5 31#5 31#5 _ 63#6 _ 31#5).trans (by simp [rType, tableRow])

theorem sync : Statement (.sync) := by
  exact (rType_and _ _ _ 31#5 31#5 31#5 _ 63#6 _ 31#5).trans (by simp [rType, tableRow])

theorem trap (n : Imm5) : Statement (.trap n) := by
  exact (rType_and _ _ _ 31#5 31#5 31#5 _ 63#6 _ 0#5).trans (by simp [rType, tableRow])

theorem eret : Statement (.eret) := by
  exact (rType_and _ _ _ 31#5 31#5 0#5 _ 63#6 _ 31#5).trans (by simp [rType, tableRow])

theorem brk (n : Imm5) : Statement (.brk n) := by
  exact (rType_and _ _ _ 31#5 31#5 31#5 _ 63#6 _ 0#5).trans (by simp [rType, tableRow])

theorem bret : Statement (.bret) := by
  exact (rType_and _ _ _ 31#5 31#5 31#5 _ 63#6 _ 31#5).trans (by simp [rType, tableRow])

theorem rdctl (c : Reg) (n : Imm5) : Statement (.rdctl c n) := by
  exact (rType_and _ _ _ 31#5 31#5 0#5 _ 63#6 _ 0#5).trans (by simp [rType, tableRow])

theorem wrctl (n : Imm5) (a : Reg) : Statement (.wrctl n a) := by
  exact (rType_and _ _ _ 0#5 31#5 31#5 _ 63#6 _ 0#5).trans (by simp [rType, tableRow])

theorem rdprs (b a : Reg) (imm : Imm16) : Statement (.rdprs b a imm) := by
  exact (iType_and _ _ 0#5 0#5 _ 0#16 _ 63#6).trans (by simp [iType, tableRow])

theorem wrprs (c a : Reg) : Statement (.wrprs c a) := by
  exact (rType_and _ _ _ 0#5 31#5 0#5 _ 63#6 _ 31#5).trans (by simp [rType, tableRow])

theorem custom (n : BitVec 8) (c a b : Reg) (readra readrb writerc : Bool) : Statement (.custom n c a b readra readrb writerc) := by
  show encode _ &&& (0x0000003F#32) = 0x00000032#32
  have h := fieldOp_customType a b c readra readrb writerc n
  have hm : encode (.custom n c a b readra readrb writerc) &&& 0x0000003F#32 =
      (fieldOp (encode (.custom n c a b readra readrb writerc))).setWidth 32 := by
    apply BitVec.eq_of_toNat_eq
    simp only [fieldOp, BitVec.toNat_and, BitVec.toNat_setWidth, BitVec.extractLsb'_toNat, BitVec.toNat_ofNat]
    rw [show (0x3F % 2 ^ 32 : Nat) = 2 ^ 6 - 1 from rfl, Nat.and_two_pow_sub_one_eq_mod]
    simp only [Nat.shiftRight_zero]
    omega
  rw [hm]
  exact congrArg (BitVec.setWidth 32) h

end Encoding

end Sys2Proof.Laws
end

