-- ==== Sys2Proof/Laws/Step.lean ====
section
/-! SUPPORT. The instruction cache and the step: what a fill leaves to read, and all that a fetch and a step can answer,
said once. -/

namespace Sys2Proof.Machine

variable {s t : State} {a x pa : Word} {line : Nat}

/-! ## The instruction cache -/

theorem iline_setIline {other : Nat} {l : ILine} :
    (s.setIline line l).iline other = if other = line then l else s.iline other := by
  unfold State.iline
  rw [State.setIline_icache, Sparse.get_set]

theorem iline_fillIline (other : Nat) : (s.fillIline a).iline other =
    if other = ilineOf s.cfg a.toNat then { valid := true, tag := itagOf s.cfg a.toNat } else s.iline other :=
  iline_setIline

theorem icacheLineBytes_pos (c : Config) : 0 < icacheLineBytes c := by unfold icacheLineBytes; positivity

/-- A byte's place in the instruction cache, by line and offset. -/
theorem islotOf_eq (c : Config) (m : Nat) :
    islotOf c m = ilineOf c m * icacheLineBytes c + m % icacheLineBytes c := by
  unfold islotOf ilineOf
  rw [Nat.mod_mul, Nat.mul_comm, Nat.add_comm]

/-- An address is its line's first address and its offset. -/
theorem iaddress_eq (c : Config) (m : Nat) : m = ilineBase c (itagOf c m) (ilineOf c m) + m % icacheLineBytes c := by
  unfold ilineBase itagOf ilineOf
  conv_lhs => rw [← Nat.div_add_mod m (icacheLineBytes c * icacheLines c), Nat.mod_mul]
  ring

/-- A byte of the line filled is memory's. -/
theorem icacheData_fillIline_same (hl : ilineOf s.cfg x.toNat = ilineOf s.cfg a.toNat)
    (ht : itagOf s.cfg x.toNat = itagOf s.cfg a.toNat) :
    Sparse.get 0#8 (s.fillIline a).icacheData (islotOf s.cfg x.toNat) = s.memByte x := by
  have hk : x.toNat % icacheLineBytes s.cfg < icacheLineBytes s.cfg := Nat.mod_lt _ (icacheLineBytes_pos _)
  have hsame := copyBytes_same (table := s.mem) (into := s.icacheData)
    (source := fun k => (ilineBase s.cfg (itagOf s.cfg a.toNat) (ilineOf s.cfg a.toNat) + k) % 2 ^ 32)
    (target := fun k => ilineOf s.cfg a.toNat * icacheLineBytes s.cfg + k) hk (fun i _ j _ h => by omega)
  have haddr := iaddress_eq s.cfg x.toNat
  rw [hl, ht] at haddr
  have hslot := islotOf_eq s.cfg x.toNat
  rw [hl] at hslot
  rw [← hslot] at hsame
  refine hsame.trans ?_
  rw [← haddr, Nat.mod_eq_of_lt x.isLt]
  rfl

theorem icacheData_fillIline_other (h : ilineOf s.cfg x.toNat ≠ ilineOf s.cfg a.toNat) :
    Sparse.get 0#8 (s.fillIline a).icacheData (islotOf s.cfg x.toNat) =
      Sparse.get 0#8 s.icacheData (islotOf s.cfg x.toNat) := by
  refine copyBytes_other (fun k hk he => h ?_)
  have hdiv : (ilineOf s.cfg a.toNat * icacheLineBytes s.cfg + k) / icacheLineBytes s.cfg = ilineOf s.cfg a.toNat := by
    rw [Nat.mul_comm, Nat.mul_add_div (icacheLineBytes_pos _), Nat.div_eq_of_lt hk, Nat.add_zero]
  have hslot : islotOf s.cfg x.toNat / icacheLineBytes s.cfg = ilineOf s.cfg x.toNat := Nat.mod_mul_right_div_self ..
  rw [← hslot, ← he, hdiv]

/-- After a fill, a fetch sees memory's bytes at every address of the line's index, and every other byte as before. -/
theorem codeByte_fillIline (hc : s.cfg.hasIcache = true) : (s.fillIline a).codeByte x =
    if ilineOf s.cfg x.toNat = ilineOf s.cfg a.toNat then s.memByte x else s.codeByte x := by
  have hcfg : (s.fillIline a).cfg = s.cfg := rfl
  have hmem : (s.fillIline a).memByte x = s.memByte x := rfl
  unfold State.codeByte State.icacheHit
  rw [hcfg, hmem, iline_fillIline, hc]
  by_cases hl : ilineOf s.cfg x.toNat = ilineOf s.cfg a.toNat
  · rw [if_pos hl, if_pos hl]
    by_cases ht : itagOf s.cfg x.toNat = itagOf s.cfg a.toNat
    · rw [icacheData_fillIline_same hl ht, ite_self]
    · rw [if_neg (by simpa using fun h => ht h.symm)]
  · rw [if_neg hl, if_neg hl, icacheData_fillIline_other hl]

/-! ## The fetch -/

/-- All that a fetch can leave: the cache unchanged, or, only on a miss, the line filled. -/
theorem fetchAccess_cases (s : State) (a : Word) :
    s.fetchAccess a = s ∨ s.cfg.hasIcache = true ∧ s.icacheHit a = false ∧
      (s.fetchAccess a = s.drawn ∨ s.fetchAccess a = s.drawn.fillIline a) := by
  unfold State.fetchAccess
  cases hc : s.cfg.hasIcache <;> cases hh : s.icacheHit a <;> simp
  cases Config.icacheAllocates s.draws <;> simp

theorem fetchAccess_hit (h : s.cfg.hasIcache = false ∨ s.icacheHit a = true) : s.fetchAccess a = s := by
  unfold State.fetchAccess
  rcases h with h | h <;> simp [h]

/-- A fetch changes nothing but the instruction cache and the counter of free values. -/
theorem fetchAccess_eq (s : State) (a : Word) : s.fetchAccess a =
    { s with icache := (s.fetchAccess a).icache, icacheData := (s.fetchAccess a).icacheData
             draws := (s.fetchAccess a).draws } := by
  rcases fetchAccess_cases s a with h | ⟨-, -, h | h⟩ <;> rw [h] <;> rfl

/-- All that an admitted fetch answers. -/
theorem fetch_ok {fetched : Word × State} (h : s.fetch = .ok fetched) :
    ∃ pa r, s.fetchAddress = .ok pa ∧ regionOf s.cfg pa = some r ∧ r.fetch = true ∧ s.fetchable pa = true ∧
      fetched = (readValue s.codeByte .word pa, s.fetchAccess pa) := by
  unfold State.fetch at h
  split at h
  · cases h
  · next pa hpa =>
    split at h
    · cases h
    · next r hr =>
      split_ifs at h with h1 h2
      cases h
      exact ⟨pa, r, hpa, hr, by simpa using h1, by simpa using h2, rfl⟩

theorem fetch_of {r : Region} (hp : s.fetchAddress = .ok pa) (hr : regionOf s.cfg pa = some r) (hf : r.fetch = true)
    (hz : s.fetchable pa = true) : s.fetch = .ok (readValue s.codeByte .word pa, s.fetchAccess pa) := by
  unfold State.fetch
  rw [hp]
  simp only [hr, hf, hz, Bool.not_true, Bool.false_eq_true, if_false]

/-! ## Precision in the instruction cache -/

theorem unfilledIfRaised_of_none (h : t.label = none) : s.unfilledIfRaised t = t := by
  unfold State.unfilledIfRaised
  rw [if_neg (by simp [h])]

theorem unfilledIfRaised_of_raised (h : t.label ≠ none) :
    s.unfilledIfRaised t = { t with icache := s.icache, icacheData := s.icacheData } := by
  unfold State.unfilledIfRaised
  rw [if_pos (by simpa [Option.isSome_iff_ne_none] using h)]

theorem preciseFetch_next {answer : Result} (h : preciseFetch s answer = .next t) :
    ∃ u, answer = .next u ∧ t = s.unfilledIfRaised u := by
  cases answer with
  | next u => exact ⟨u, rfl, by cases h; rfl⟩
  | fault f => cases h
  | refused r => cases h

/-- The entry of an exception passes the instruction cache by. -/
theorem takeException_icache (s : State) (e : Exception) (lines : List (Nat × ILine)) (bytes : List Host.Cell) :
    takeException e { s with icache := lines, icacheData := bytes } =
      { takeException e s with icache := lines, icacheData := bytes } := by
  have hr : ¬ eaReg = 0#5 := by decide
  unfold takeException State.setRegOf
  simp only [hr, and_false, if_false]
  cases e <;> rfl

/-- Taking an exception after a fetch, and taking its fill back, is taking it without the fill. -/
theorem unfilledIfRaised_takeException (s : State) (e : Exception) (a : Word) :
    s.unfilledIfRaised (takeException e (s.fetchAccess a)) =
      takeException e { s with draws := (s.fetchAccess a).draws } := by
  rw [unfilledIfRaised_of_raised (by simp [takeException]), ← takeException_icache, fetchAccess_eq]

/-! ## The step -/

/-- All that a step can answer with a next state: the interrupt's entry, the entry of a fetch exception, the meaning of the
instruction fetched, or the entry of Illegal instruction. -/
theorem step_next (h : step s = .next t) :
    (s.interrupted = true ∧ t = takeException .interrupt s.begin) ∨
    (∃ e, s.begin.fetch = .error (.exception e) ∧ t = takeException e s.begin) ∨
    (∃ pa i u, s.begin.fetchAddress = .ok pa ∧ Did i (s.begin.fetchAccess pa) u ∧ t = s.begin.unfilledIfRaised u) ∨
    (∃ pa, s.begin.fetchAddress = .ok pa ∧
      t = takeException .illegalInstruction { s.begin with draws := (s.begin.fetchAccess pa).draws }) := by
  unfold step at h
  split at h
  · next hi => exact .inl ⟨hi, by cases h; rfl⟩
  · rcases settle_next h with ⟨fetched, hf, hd⟩ | ⟨e, he, ht⟩
    · obtain ⟨pa, -, hp, -, -, -, rfl⟩ := fetch_ok hf
      obtain ⟨u, hu, rfl⟩ := preciseFetch_next hd
      split at hu
      · next i _ => exact .inr (.inr (.inl ⟨pa, i, u, hp, exec_next hu, rfl⟩))
      · rw [reservedEncoding_next hu]
        exact .inr (.inr (.inr ⟨pa, hp, unfilledIfRaised_takeException ..⟩))
    · exact .inr (.inl ⟨e, he, ht⟩)

end Sys2Proof.Machine
end

