-- ==== Sys2Proof/Laws/Quiet.lean ====
section
/-! SUPPORT. What memory accesses, cache operations and fetches leave alone, said once for all of them: `Quiet`. -/

namespace Sys2Proof.Machine

/-- From `s` to `u` nothing changed but memory, the caches, the fetch hazard, the bus and the counter of free values. -/
structure Quiet (s u : State) : Prop where
  cfg : u.cfg = s.cfg
  regs : u.regs = s.regs
  crs : u.crs = s.crs
  pc : u.pc = s.pc
  status : u.status = s.status
  estatus : u.estatus = s.estatus
  bstatus : u.bstatus = s.bstatus
  irq : u.irq = s.irq
  custom : u.custom = s.custom
  label : u.label = s.label
  pending : s.cfg.inOrderMemory = true → u.pending = s.pending

variable {s u v : State}

theorem Quiet.refl (s : State) : Quiet s s := ⟨rfl, rfl, rfl, rfl, rfl, rfl, rfl, rfl, rfl, rfl, fun _ => rfl⟩

theorem Quiet.trans (h : Quiet s u) (k : Quiet u v) : Quiet s v :=
  ⟨k.cfg.trans h.cfg, k.regs.trans h.regs, k.crs.trans h.crs, k.pc.trans h.pc, k.status.trans h.status,
    k.estatus.trans h.estatus, k.bstatus.trans h.bstatus, k.irq.trans h.irq, k.custom.trans h.custom,
    k.label.trans h.label, fun hio => (k.pending (h.cfg ▸ hio)).trans (h.pending hio)⟩

theorem Quiet.regOf (h : Quiet s u) (set : Nat) (r : Reg) : u.regOf set r = s.regOf set r := by
  unfold State.regOf
  rw [h.regs]

theorem Quiet.reg (h : Quiet s u) (r : Reg) : u.reg r = s.reg r := by
  unfold State.reg
  rw [h.regOf, h.crs]

theorem quiet_onBus (s : State) (x : Transfer) : Quiet s (s.onBus x) :=
  ⟨by simp, by simp, by simp, by simp, by simp, by simp, by simp, by simp, by simp, by simp,
    fun h => by simp [State.onBus, h]⟩

theorem quiet_drawn (s : State) : Quiet s s.drawn := ⟨rfl, rfl, rfl, rfl, rfl, rfl, rfl, rfl, rfl, rfl, fun _ => rfl⟩

theorem quiet_fillDline (s : State) (a : Word) : Quiet s (s.fillDline a) :=
  ⟨rfl, rfl, rfl, rfl, rfl, rfl, rfl, rfl, rfl, rfl, fun _ => rfl⟩

theorem quiet_writeBack (s : State) (line : Nat) : Quiet s (s.writeBack line) := by
  refine ⟨by rw [writeBack_eq], by rw [writeBack_eq], by rw [writeBack_eq], by rw [writeBack_eq], by rw [writeBack_eq],
    by rw [writeBack_eq], by rw [writeBack_eq], by rw [writeBack_eq], by rw [writeBack_eq], by rw [writeBack_eq],
    fun h => ?_⟩
  unfold State.writeBack
  split
  · simp [State.onBus, h]
  · rfl

theorem quiet_plainAccess (s : State) (a : Word) (direct : Transfer) : Quiet s (s.plainAccess a direct) := by
  unfold State.plainAccess
  split_ifs
  · exact quiet_onBus _ _
  · exact .refl s
  · exact (quiet_drawn s).trans ((quiet_writeBack _ _).trans ((quiet_fillDline _ _).trans (quiet_onBus _ _)))
  · exact (quiet_drawn s).trans (quiet_onBus _ _)

theorem quiet_setHazard (s : State) (a : Word) (stage : HazardStage) : Quiet s (s.setHazard a stage) :=
  ⟨rfl, rfl, rfl, rfl, rfl, rfl, rfl, rfl, rfl, rfl, fun _ => rfl⟩

theorem quiet_markModified (s : State) (path : Path) (w : Width) (a : Word) : Quiet s (s.markModified path w a) :=
  (quiet_setHazard s _ _).trans (quiet_setHazard _ _ _)

theorem quiet_storedState (s : State) (path : Path) (w : Width) (pa v : Word) (peripheral : Bool) :
    Quiet s (storedState s path w pa v peripheral) := by
  unfold storedState
  split
  · exact (quiet_onBus _ _).trans (quiet_markModified _ _ _ _)
  · cases path
    · refine (quiet_plainAccess s pa (.store pa (widthBytes w) (truncateTo w v))).trans
        (Quiet.trans ?_ (quiet_markModified _ _ _ _))
      rw [writeValue_storeByte_eq]
      exact ⟨rfl, rfl, rfl, rfl, rfl, rfl, rfl, rfl, rfl, rfl, fun _ => rfl⟩
    · refine (quiet_onBus s (.store pa (widthBytes w) (truncateTo w v))).trans
        (Quiet.trans ?_ (quiet_markModified _ _ _ _))
      rw [writeValue_setMemByte_eq]
      exact ⟨rfl, rfl, rfl, rfl, rfl, rfl, rfl, rfl, rfl, rfl, fun _ => rfl⟩

theorem quiet_memRead {path : Path} {w : Width} {ea : Word} {answer : Word × State}
    (h : s.memRead path w ea = .ok answer) : Quiet s answer.2 := by
  obtain ⟨pa, r, -, -, -, ⟨-, rfl⟩ | ⟨-, -, rfl⟩ | ⟨-, -, rfl⟩⟩ := memRead_ok h
  · exact quiet_onBus _ _
  · exact quiet_plainAccess _ _ _
  · exact quiet_onBus _ _

theorem quiet_memWrite {path : Path} {w : Width} {ea value : Word} (h : s.memWrite path w ea value = .ok u) :
    Quiet s u := by
  obtain ⟨pa, r, -, -, -, rfl⟩ := memWrite_ok h
  exact quiet_storedState _ _ _ _ _ _

theorem quiet_invalidateDline (s : State) (line : Nat) : Quiet s (s.invalidateDline line) :=
  ⟨rfl, rfl, rfl, rfl, rfl, rfl, rfl, rfl, rfl, rfl, fun _ => rfl⟩

theorem quiet_moveHazard (s : State) (here : Nat → Bool) (before after : HazardStage) :
    Quiet s (s.moveHazard here before after) :=
  ⟨rfl, rfl, rfl, rfl, rfl, rfl, rfl, rfl, rfl, rfl, fun _ => rfl⟩

theorem quiet_flushDline (s : State) (line : Nat) : Quiet s (s.flushDline line) :=
  (quiet_writeBack s line).trans (quiet_invalidateDline _ _)

theorem quiet_flushIndex (s : State) (a : Word) : Quiet s (s.flushIndex a) := by
  unfold State.flushIndex
  split
  · exact (quiet_flushDline _ _).trans (quiet_moveHazard _ _ _ _)
  · exact .refl s

theorem quiet_flushAddress (s : State) (a : Word) : Quiet s (s.flushAddress a) := by
  unfold State.flushAddress
  split
  · refine Quiet.trans ?_ (quiet_moveHazard _ _ _ _)
    split
    · exact quiet_flushDline _ _
    · exact .refl s
  · exact .refl s

theorem quiet_initIndex (s : State) (a : Word) : Quiet s (s.initIndex a) := by
  unfold State.initIndex
  split
  · exact quiet_invalidateDline _ _
  · exact .refl s

theorem quiet_initAddress (s : State) (a : Word) : Quiet s (s.initAddress a) := by
  unfold State.initAddress
  split
  · exact quiet_invalidateDline _ _
  · exact .refl s

theorem quiet_invalidateInstruction (s : State) (a : Word) : Quiet s (s.invalidateInstruction a) := by
  unfold State.invalidateInstruction
  split
  · exact ⟨rfl, rfl, rfl, rfl, rfl, rfl, rfl, rfl, rfl, rfl, fun _ => rfl⟩
  · exact .refl s

theorem quiet_fetchAccess (s : State) (a : Word) : Quiet s (s.fetchAccess a) := by
  rw [fetchAccess_eq]
  exact ⟨rfl, rfl, rfl, rfl, rfl, rfl, rfl, rfl, rfl, rfl, fun _ => rfl⟩

/-- What an instruction raised, or that it raised nothing. -/
theorem Did.label_cases {i : Instr} {t : State} (h : Did i s t) (hs : s.label = none) :
    (∃ e, t = takeException e s ∧ e ≠ .breakpoint ∧ e ≠ .interrupt) ∨ t = takeBreak s ∨ t.label = none := by
  cases h with
  | raised e entry other => exact .inl ⟨e, entry, other⟩
  | broke n _ entry => exact .inr (.inl entry)
  | loaded _ _ _ _ _ _ _ _ answer _ _ _ access _ after =>
    subst after
    exact .inr (.inr (by simp [(quiet_memRead access).label, hs]))
  | stored _ _ _ _ _ _ u _ _ access after => subst after; exact .inr (.inr ((quiet_memWrite access).label.trans hs))
  | flushedIndex _ _ _ after => subst after; exact .inr (.inr ((quiet_flushIndex _ _).label.trans hs))
  | flushedAddress _ _ pa _ _ after => subst after; exact .inr (.inr ((quiet_flushAddress _ _).label.trans hs))
  | initIndex _ after => subst after; exact .inr (.inr ((quiet_initIndex _ _).label.trans hs))
  | initAddress _ after => subst after; exact .inr (.inr ((quiet_initAddress _ _).label.trans hs))
  | invalidated _ after => subst after; exact .inr (.inr ((quiet_invalidateInstruction _ _).label.trans hs))
  | wroteControl n v u _ access after =>
    subst after
    unfold State.writeCtl at access
    split_ifs at access <;> cases access <;> exact .inr (.inr hs)
  | _ => exact .inr (.inr (by subst_vars; simp [hs]))

end Sys2Proof.Machine
end

