-- ==== Sys2Proof/Machine/Assembly.lean ====
section
/-! DEFINITION. The assembler syntax of every instruction (30_encoding.md R127, R128): mnemonic, then the operands,
the destination first. A branch or call prints the address of its label, which depends on where it stands. -/

namespace Sys2Proof.Machine

/-- `r0`..`r31`. -/
def regText (r : Reg) : String := "r" ++ toString r.toNat

/-- An operand of `custom`: a general register where its flag bit is 1, else a custom register `c0`..`c31`
(46_system.md R293). -/
def customRegText (general : Bool) (r : Reg) : String := (if general then "r" else "c") ++ toString r.toNat

/-- `byte_offset(rA)`. -/
def baseText (imm : Imm16) (a : Reg) : String := toString imm.toInt ++ "(" ++ regText a ++ ")"

/-- `op rC, rA, rB`. -/
def textRRR (op : String) (c a b : Reg) : String :=
  op ++ " " ++ regText c ++ ", " ++ regText a ++ ", " ++ regText b

/-- `op r, r, last`. -/
def textRRI (op : String) (x y : Reg) (last : String) : String :=
  op ++ " " ++ regText x ++ ", " ++ regText y ++ ", " ++ last

/-- The text of the instruction at `pc`. -/
def instrText (pc : Word) (i : Instr) : String :=
  match i with
  | .add c a b => textRRR "add" c a b
  | .addi b a imm => textRRI "addi" b a (toString imm.toInt)
  | .sub c a b => textRRR "sub" c a b
  | .mul c a b => textRRR "mul" c a b
  | .muli b a imm => textRRI "muli" b a (toString imm.toInt)
  | .mulxss c a b => textRRR "mulxss" c a b
  | .mulxsu c a b => textRRR "mulxsu" c a b
  | .mulxuu c a b => textRRR "mulxuu" c a b
  | .div c a b => textRRR "div" c a b
  | .divu c a b => textRRR "divu" c a b
  | .and c a b => textRRR "and" c a b
  | .andi b a imm => textRRI "andi" b a (toString imm.toNat)
  | .andhi b a imm => textRRI "andhi" b a (toString imm.toNat)
  | .or c a b => textRRR "or" c a b
  | .ori b a imm => textRRI "ori" b a (toString imm.toNat)
  | .orhi b a imm => textRRI "orhi" b a (toString imm.toNat)
  | .xor c a b => textRRR "xor" c a b
  | .xori b a imm => textRRI "xori" b a (toString imm.toNat)
  | .xorhi b a imm => textRRI "xorhi" b a (toString imm.toNat)
  | .nor c a b => textRRR "nor" c a b
  | .cmpeq c a b => textRRR "cmpeq" c a b
  | .cmpeqi b a imm => textRRI "cmpeqi" b a (toString imm.toInt)
  | .cmpne c a b => textRRR "cmpne" c a b
  | .cmpnei b a imm => textRRI "cmpnei" b a (toString imm.toInt)
  | .cmpge c a b => textRRR "cmpge" c a b
  | .cmpgei b a imm => textRRI "cmpgei" b a (toString imm.toInt)
  | .cmpgeu c a b => textRRR "cmpgeu" c a b
  | .cmpgeui b a imm => textRRI "cmpgeui" b a (toString imm.toNat)
  | .cmplt c a b => textRRR "cmplt" c a b
  | .cmplti b a imm => textRRI "cmplti" b a (toString imm.toInt)
  | .cmpltu c a b => textRRR "cmpltu" c a b
  | .cmpltui b a imm => textRRI "cmpltui" b a (toString imm.toNat)
  | .rol c a b => textRRR "rol" c a b
  | .roli c a n => textRRI "roli" c a (toString n.toNat)
  | .ror c a b => textRRR "ror" c a b
  | .sll c a b => textRRR "sll" c a b
  | .slli c a n => textRRI "slli" c a (toString n.toNat)
  | .sra c a b => textRRR "sra" c a b
  | .srai c a n => textRRI "srai" c a (toString n.toNat)
  | .srl c a b => textRRR "srl" c a b
  | .srli c a n => textRRI "srli" c a (toString n.toNat)
  | .br imm => "br " ++ toString (branchTarget pc imm).toNat
  | .beq a b imm => textRRI "beq" a b (toString (branchTarget pc imm).toNat)
  | .bne a b imm => textRRI "bne" a b (toString (branchTarget pc imm).toNat)
  | .bge a b imm => textRRI "bge" a b (toString (branchTarget pc imm).toNat)
  | .bgeu a b imm => textRRI "bgeu" a b (toString (branchTarget pc imm).toNat)
  | .blt a b imm => textRRI "blt" a b (toString (branchTarget pc imm).toNat)
  | .bltu a b imm => textRRI "bltu" a b (toString (branchTarget pc imm).toNat)
  | .call imm => "call " ++ toString (segmentTarget pc imm).toNat
  | .callr a => "callr " ++ regText a
  | .jmp a => "jmp " ++ regText a
  | .jmpi imm => "jmpi " ++ toString (segmentTarget pc imm).toNat
  | .ret => "ret"
  | .nextpc c => "nextpc " ++ regText c
  | .ldb b imm a => "ldb " ++ regText b ++ ", " ++ baseText imm a
  | .ldbio b imm a => "ldbio " ++ regText b ++ ", " ++ baseText imm a
  | .ldbu b imm a => "ldbu " ++ regText b ++ ", " ++ baseText imm a
  | .ldbuio b imm a => "ldbuio " ++ regText b ++ ", " ++ baseText imm a
  | .ldh b imm a => "ldh " ++ regText b ++ ", " ++ baseText imm a
  | .ldhio b imm a => "ldhio " ++ regText b ++ ", " ++ baseText imm a
  | .ldhu b imm a => "ldhu " ++ regText b ++ ", " ++ baseText imm a
  | .ldhuio b imm a => "ldhuio " ++ regText b ++ ", " ++ baseText imm a
  | .ldw b imm a => "ldw " ++ regText b ++ ", " ++ baseText imm a
  | .ldwio b imm a => "ldwio " ++ regText b ++ ", " ++ baseText imm a
  | .stb b imm a => "stb " ++ regText b ++ ", " ++ baseText imm a
  | .stbio b imm a => "stbio " ++ regText b ++ ", " ++ baseText imm a
  | .sth b imm a => "sth " ++ regText b ++ ", " ++ baseText imm a
  | .sthio b imm a => "sthio " ++ regText b ++ ", " ++ baseText imm a
  | .stw b imm a => "stw " ++ regText b ++ ", " ++ baseText imm a
  | .stwio b imm a => "stwio " ++ regText b ++ ", " ++ baseText imm a
  | .flushd imm a => "flushd " ++ baseText imm a
  | .flushda imm a => "flushda " ++ baseText imm a
  | .initd imm a => "initd " ++ baseText imm a
  | .initda imm a => "initda " ++ baseText imm a
  | .flushi a => "flushi " ++ regText a
  | .initi a => "initi " ++ regText a
  | .flushp => "flushp"
  | .sync => "sync"
  | .trap n => "trap " ++ toString n.toNat
  | .eret => "eret"
  | .brk n => "break " ++ toString n.toNat
  | .bret => "bret"
  | .rdctl c n => "rdctl " ++ regText c ++ ", ctl" ++ toString n.toNat
  | .wrctl n a => "wrctl ctl" ++ toString n.toNat ++ ", " ++ regText a
  | .rdprs b a imm => textRRI "rdprs" b a (toString imm.toInt)
  | .wrprs c a => "wrprs " ++ regText c ++ ", " ++ regText a
  | .custom n c a b readra readrb writerc =>
    "custom " ++ toString n.toNat ++ ", " ++ customRegText writerc c ++ ", " ++ customRegText readra a ++ ", " ++
      customRegText readrb b

end Sys2Proof.Machine
end

