-- ==== Sys2Proof/Tests/Slice0.lean ====
section
/-! SUPPORT. Tests: what the well-formedness checks refuse, one decoded word for every constructor, one step of
every family, and for every statement with hypotheses a state and operands that meet them. Expected words and results are
those of spec/95_test_vectors.md, or computed by hand from the rule named. -/

namespace Sys2Proof.Tests

open Sys2Proof Sys2Proof.Machine

/-! ## Helpers -/

/-- The machine after reset with some registers of set 0 written. -/
def withRegs (regs : List (Reg × Word)) : State := regs.foldl (fun s r => s.setReg r.1 r.2) State.reset

/-- The memory M0 of 95_test_vectors.md 2.5. -/
def withM0 (regs : List (Reg × Word)) : State :=
  { withRegs regs with mem := [(0x1FFE, 0xAA#8), (0x1FFF, 0xBB#8), (0x2000, 0x80#8), (0x2001, 0xFF#8), (0x2002, 0x7F#8)] }

/-- One field of the state an instruction answers. -/
def seen {α : Type} (r : Result) (look : State → α) : Option α :=
  match r with
  | .next t => some (look t)
  | _ => none

/-- The fault an instruction answers. -/
def stop (r : Result) : Option Fault :=
  match r with
  | .fault f => some f
  | _ => none

/-- What the decoder reads. -/
def decoded (w : Word) : Option Instr := (decode w).toOption

/-! ## Well-formedness (30_encoding.md R129, 47_pseudo.md, 00_scope.md R6): each check refuses an ill-formed term -/

theorem test_wf_refuses_branch_offset :
    ¬ (Instr.br 2).WellFormed ∧ ¬ (Instr.beq 1 2 1).WellFormed ∧ ¬ (Instr.bne 1 2 2).WellFormed ∧
    ¬ (Instr.bge 1 2 3).WellFormed ∧ ¬ (Instr.bgeu 1 2 0xFFFF).WellFormed ∧ ¬ (Instr.blt 1 2 2).WellFormed ∧
    ¬ (Instr.bltu 1 2 6).WellFormed := by decide

theorem test_wf_refuses_jmp_r31 : ¬ (Instr.jmp 31).WellFormed := by decide

theorem test_wf_accepts : (Instr.br 0xFFFC).WellFormed ∧ (Instr.jmp 30).WellFormed ∧ (Instr.bltu 1 2 4).WellFormed := by
  decide

theorem test_wf_refuses_pseudo_branch_offset :
    ¬ (Pseudo.bgt 1 2 2).WellFormed ∧ ¬ (Pseudo.bgtu 1 2 1).WellFormed ∧ ¬ (Pseudo.ble 1 2 3).WellFormed ∧
    ¬ (Pseudo.bleu 1 2 2).WellFormed := by decide

theorem test_wf_refuses_pseudo_signed :
    ¬ (Pseudo.cmpgti 1 2 (-32770)).WellFormed ∧ ¬ (Pseudo.cmpgti 1 2 32767).WellFormed ∧
    ¬ (Pseudo.cmplei 1 2 (-32770)).WellFormed ∧ ¬ (Pseudo.cmplei 1 2 32767).WellFormed ∧
    ¬ (Pseudo.movi 1 (-32769)).WellFormed ∧ ¬ (Pseudo.movi 1 32768).WellFormed ∧
    ¬ (Pseudo.subi 1 2 (-32768)).WellFormed ∧ ¬ (Pseudo.subi 1 2 32769).WellFormed := by decide

theorem test_wf_refuses_pseudo_unsigned :
    ¬ (Pseudo.cmpgtui 1 2 (-1)).WellFormed ∧ ¬ (Pseudo.cmpgtui 1 2 65535).WellFormed ∧
    ¬ (Pseudo.cmpleui 1 2 (-1)).WellFormed ∧ ¬ (Pseudo.cmpleui 1 2 65535).WellFormed ∧
    ¬ (Pseudo.movhi 1 (-1)).WellFormed ∧ ¬ (Pseudo.movhi 1 65536).WellFormed ∧
    ¬ (Pseudo.movui 1 (-1)).WellFormed ∧ ¬ (Pseudo.movui 1 65536).WellFormed := by decide

/-- `Config.WellFormed` as a Boolean. -/
def okConfig (c : Config) : Bool := decide c.WellFormed

theorem test_wf_config_default : Config.default.WellFormed := by decide

theorem test_wf_config_refuses_address :
    okConfig { Config.default with exceptionAddr := 0x2002#32 } = false ∧
    okConfig { Config.default with breakAddr := 0x4001#32 } = false ∧
    okConfig { Config.default with resetAddr := 0x1003#32 } = false := by decide

theorem test_wf_config_refuses_ctl_numbers :
    okConfig { Config.default with ctlStatus := 1#5 } = false ∧ okConfig { Config.default with ctlStatus := 2#5 } = false ∧
    okConfig { Config.default with ctlEstatus := 2#5 } = false := by decide

theorem test_wf_config_refuses_status_fields :
    okConfig { Config.default with statusUBit := 0 } = false ∧ okConfig { Config.default with statusPrsLo := 22 } = false ∧
    okConfig { Config.default with statusPieBit := 16 } = false ∧ okConfig { Config.default with statusUBit := 21 } = false := by
  decide

theorem test_wf_config_refuses_region :
    okConfig { Config.default with regions := [{ Region.everything with base := 1 }] } = false := by decide

theorem test_wf_config_refuses_cache_size :
    okConfig { Config.default with dcacheLineLog := 1, dcacheLinesLog := 30 } = false ∧
    okConfig { Config.default with icacheLineLog := 31 } = false := by decide

/-! ## Decoding (95_test_vectors.md 1.3, 1.4, 2.3 to 2.6; an `io` form has OP bit 5 set, 30_encoding.md R118): one word
for every constructor -/

theorem test_decode_arithmetic :
    decoded 0x3A0D883A#32 = some (.add 6 7 8) ∧
    decoded 0x3A0DC83A#32 = some (.sub 6 7 8) ∧
    decoded 0x3A0D383A#32 = some (.mul 6 7 8) ∧
    decoded 0x3A0CF83A#32 = some (.mulxss 6 7 8) ∧
    decoded 0x3A0CB83A#32 = some (.mulxsu 6 7 8) ∧
    decoded 0x3A0C383A#32 = some (.mulxuu 6 7 8) ∧
    decoded 0x3A0D283A#32 = some (.div 6 7 8) ∧
    decoded 0x3A0D203A#32 = some (.divu 6 7 8) ∧
    decoded 0x3A0C703A#32 = some (.and 6 7 8) ∧
    decoded 0x3A0CB03A#32 = some (.or 6 7 8) ∧
    decoded 0x3A0CF03A#32 = some (.xor 6 7 8) ∧
    decoded 0x3A0C303A#32 = some (.nor 6 7 8) ∧
    decoded 0x39BFE704#32 = some (.addi 6 7 0xFF9C) ∧
    decoded 0x39BFE724#32 = some (.muli 6 7 0xFF9C) ∧
    decoded 0x3980190C#32 = some (.andi 6 7 100) ∧
    decoded 0x3980192C#32 = some (.andhi 6 7 100) ∧
    decoded 0x39801914#32 = some (.ori 6 7 100) ∧
    decoded 0x39801934#32 = some (.orhi 6 7 100) ∧
    decoded 0x3980191C#32 = some (.xori 6 7 100) ∧
    decoded 0x3980193C#32 = some (.xorhi 6 7 100) := by decide

theorem test_decode_comparison :
    decoded 0x3A0D003A#32 = some (.cmpeq 6 7 8) ∧
    decoded 0x3A0CC03A#32 = some (.cmpne 6 7 8) ∧
    decoded 0x3A0C403A#32 = some (.cmpge 6 7 8) ∧
    decoded 0x3A0D403A#32 = some (.cmpgeu 6 7 8) ∧
    decoded 0x3A0C803A#32 = some (.cmplt 6 7 8) ∧
    decoded 0x3A0D803A#32 = some (.cmpltu 6 7 8) ∧
    decoded 0x39801920#32 = some (.cmpeqi 6 7 100) ∧
    decoded 0x39801918#32 = some (.cmpnei 6 7 100) ∧
    decoded 0x39801908#32 = some (.cmpgei 6 7 100) ∧
    decoded 0x39801928#32 = some (.cmpgeui 6 7 100) ∧
    decoded 0x39801910#32 = some (.cmplti 6 7 100) ∧
    decoded 0x39801930#32 = some (.cmpltui 6 7 100) := by decide

theorem test_decode_shift :
    decoded 0x3A0C183A#32 = some (.rol 6 7 8) ∧
    decoded 0x3A0C583A#32 = some (.ror 6 7 8) ∧
    decoded 0x3A0C983A#32 = some (.sll 6 7 8) ∧
    decoded 0x3A0DD83A#32 = some (.sra 6 7 8) ∧
    decoded 0x3A0CD83A#32 = some (.srl 6 7 8) ∧
    decoded 0x380C90FA#32 = some (.slli 6 7 3) ∧
    decoded 0x380DD0FA#32 = some (.srai 6 7 3) ∧
    decoded 0x380CD0FA#32 = some (.srli 6 7 3) ∧
    decoded 0x380C10FA#32 = some (.roli 6 7 3) := by decide

theorem test_decode_control :
    decoded 0x001FFF06#32 = some (.br 0x7FFC) ∧
    decoded 0x31FFFB26#32 = some (.beq 6 7 0xFFEC) ∧
    decoded 0x31FFFB0E#32 = some (.bge 6 7 0xFFEC) ∧
    decoded 0x31FFFB2E#32 = some (.bgeu 6 7 0xFFEC) ∧
    decoded 0x31FFFB16#32 = some (.blt 6 7 0xFFEC) ∧
    decoded 0x31FFFB36#32 = some (.bltu 6 7 0xFFEC) ∧
    decoded 0x31FFFB1E#32 = some (.bne 6 7 0xFFEC) ∧
    decoded 0xFFFFFFC0#32 = some (.call 0x3FFFFFF) ∧
    decoded 0x303EE83A#32 = some (.callr 6) ∧
    decoded 0x6000683A#32 = some (.jmp 12) ∧
    decoded 0x00090001#32 = some (.jmpi 0x2400) ∧
    decoded 0xF800283A#32 = some (.ret) ∧
    decoded 0x000CE03A#32 = some (.nextpc 6) := by decide

theorem test_decode_load_store :
    decoded 0x29801907#32 = some (.ldb 6 100 5) ∧
    decoded 0x29801927#32 = some (.ldbio 6 100 5) ∧
    decoded 0x29801903#32 = some (.ldbu 6 100 5) ∧
    decoded 0x29801923#32 = some (.ldbuio 6 100 5) ∧
    decoded 0x2980190F#32 = some (.ldh 6 100 5) ∧
    decoded 0x2980192F#32 = some (.ldhio 6 100 5) ∧
    decoded 0x2980190B#32 = some (.ldhu 6 100 5) ∧
    decoded 0x2980192B#32 = some (.ldhuio 6 100 5) ∧
    decoded 0x29801917#32 = some (.ldw 6 100 5) ∧
    decoded 0x29801937#32 = some (.ldwio 6 100 5) ∧
    decoded 0x29801905#32 = some (.stb 6 100 5) ∧
    decoded 0x29801925#32 = some (.stbio 6 100 5) ∧
    decoded 0x2980190D#32 = some (.sth 6 100 5) ∧
    decoded 0x2980192D#32 = some (.sthio 6 100 5) ∧
    decoded 0x29801915#32 = some (.stw 6 100 5) ∧
    decoded 0x29801935#32 = some (.stwio 6 100 5) := by decide

theorem test_decode_cache :
    decoded 0x303FE73B#32 = some (.flushd 0xFF9C 6) ∧
    decoded 0x303FE71B#32 = some (.flushda 0xFF9C 6) ∧
    decoded 0x30000033#32 = some (.initd 0 6) ∧
    decoded 0x303FE713#32 = some (.initda 0xFF9C 6) ∧
    decoded 0x3000603A#32 = some (.flushi 6) ∧
    decoded 0x3001483A#32 = some (.initi 6) ∧
    decoded 0x0000203A#32 = some (.flushp) ∧
    decoded 0x0001B03A#32 = some (.sync) := by decide

theorem test_decode_system :
    decoded 0x003B6FFA#32 = some (.trap 31) ∧
    decoded 0xEF80083A#32 = some (.eret) ∧
    decoded 0x003DA03A#32 = some (.brk 0) ∧
    decoded 0xF03C483A#32 = some (.bret) ∧
    decoded 0x000737FA#32 = some (.rdctl 3 31) ∧
    decoded 0x180171BA#32 = some (.wrctl 6 3) ∧
    decoded 0x39800038#32 = some (.rdprs 6 7 0) ∧
    decoded 0x380CA03A#32 = some (.wrprs 6 7) ∧
    decoded 0x3A0D8032#32 = some (.custom 0 6 7 8 true true false) ∧
    decoded 0x3A0DC172#32 = some (.custom 5 6 7 8 true true true) := by decide

/-- 95_test_vectors.md 2.8: reserved and non-canonical words. -/
theorem test_decode_refuses :
    decoded 0xFFFFFFFF#32 = none ∧ decoded 0x0000003A#32 = none ∧ decoded 0x0001887A#32 = none ∧
    decoded 0x2800283A#32 = none ∧ decoded 0x00000002#32 = none ∧ decoded 0x0040003B#32 = none ∧
    decoded 0x0001B07A#32 = none ∧ decoded 0x00400006#32 = none := by decide

/-- 30_encoding.md R122: the two ignored fields. -/
theorem test_decode_ignored_fields : decoded 0xEF8A083A#32 = some .eret ∧ decoded 0x3800203A#32 = some .flushp := by
  decide

/-- Bytes in memory order (20_memory.md R72), and too few of them. -/
theorem test_decode_bytes :
    decodeBytes [0x3A#8, 0x88#8, 0x0D#8, 0x3A#8] = .ok (.add 6 7 8) ∧ decodeBytes [0x3A#8, 0x88#8, 0x0D#8] = .error .truncated :=
  ⟨rfl, rfl⟩

theorem test_encode : encode (.bne 6 7 0xFFEC) = 0x31FFFB1E#32 ∧ encode (.custom 0 3 5 0 true true false) = 0x28078032#32 := by
  decide

theorem test_text : instrText 0x1000#32 (.addi 6 7 0xFF9C) = "addi r6, r7, -100" ∧
    instrText 0x1000#32 (.custom 0 6 7 8 true true false) = "custom 0, c6, r7, r8" := by decide

/-! ## One step: register results (95_test_vectors.md 2.1, 2.2, 2.3, hand-derived from the rules) -/

theorem test_add :
    seen (exec (.add 6 6 6) (withRegs [(6, 0x80000001#32)])) (·.reg 6) = some 0x00000002#32 := by decide

theorem test_addi :
    seen (exec (.addi 6 7 32767) (withRegs [(7, 0xFFFFFFFF#32)])) (·.reg 6) = some 0x00007FFE#32 := by decide

theorem test_sub :
    seen (exec (.sub 6 7 8) (withRegs [(7, 0x80000000#32), (8, 0x00000001#32)])) (·.reg 6) = some 0x7FFFFFFF#32 := by decide

theorem test_mul :
    seen (exec (.mul 6 7 8) (withRegs [(7, 0xFFFFFFFF#32), (8, 0xFFFFFFFF#32)])) (·.reg 6) = some 0x00000001#32 ∧
    seen (exec (.mul 6 7 8) (withRegs [(7, 0x00010000#32), (8, 0x00010000#32)])) (·.reg 6) = some 0x00000000#32 := by decide

theorem test_muli :
    seen (exec (.muli 6 7 (-1)) (withRegs [(7, 0x80000000#32)])) (·.reg 6) = some 0x80000000#32 := by decide

theorem test_mulxss :
    seen (exec (.mulxss 6 7 8) (withRegs [(7, 0xFFFFFFFF#32), (8, 0x00000001#32)])) (·.reg 6) = some 0xFFFFFFFF#32 ∧
    seen (exec (.mulxss 6 7 8) (withRegs [(7, 0xFFFFFFFF#32), (8, 0xFFFFFFFF#32)])) (·.reg 6) = some 0x00000000#32 := by decide

theorem test_mulxsu :
    seen (exec (.mulxsu 6 7 8) (withRegs [(7, 0x9ABCDEF0#32), (8, 0x12345678#32)])) (·.reg 6) = some 0xF8CC93D6#32 ∧
    seen (exec (.mulxsu 6 7 8) (withRegs [(7, 0x80000000#32), (8, 0xFFFFFFFF#32)])) (·.reg 6) = some 0x80000000#32 := by decide

theorem test_mulxuu :
    seen (exec (.mulxuu 6 7 8) (withRegs [(7, 0xFFFFFFFF#32), (8, 0xFFFFFFFF#32)])) (·.reg 6) = some 0xFFFFFFFE#32 := by decide

theorem test_div :
    seen (exec (.div 6 7 8) (withRegs [(7, 0x00000007#32), (8, 0xFFFFFFFE#32)])) (·.reg 6) = some 0xFFFFFFFD#32 ∧
    seen (exec (.div 6 7 8) (withRegs [(7, 0xFFFFFFF9#32), (8, 0xFFFFFFFE#32)])) (·.reg 6) = some 0x00000003#32 := by decide

theorem test_divu :
    seen (exec (.divu 6 7 8) (withRegs [(7, 0x80000000#32), (8, 0xFFFFFFFF#32)])) (·.reg 6) = some 0x00000000#32 ∧
    seen (exec (.divu 6 7 8) (withRegs [(7, 0xFFFFFFFF#32), (8, 0x00000010#32)])) (·.reg 6) = some 0x0FFFFFFF#32 := by decide

theorem test_and :
    seen (exec (.and 6 7 8) (withRegs [(7, 0xF0F0F0F0#32), (8, 0xFF00FF00#32)])) (·.reg 6) = some 0xF000F000#32 := by decide

theorem test_andi :
    seen (exec (.andi 6 7 65535) (withRegs [(7, 0xFFFFFFFF#32)])) (·.reg 6) = some 0x0000FFFF#32 := by decide

theorem test_andhi :
    seen (exec (.andhi 6 7 65535) (withRegs [(7, 0xFFFFFFFF#32)])) (·.reg 6) = some 0xFFFF0000#32 := by decide

theorem test_or :
    seen (exec (.or 6 7 8) (withRegs [(7, 0xF0F0F0F0#32), (8, 0xFF00FF00#32)])) (·.reg 6) = some 0xFFF0FFF0#32 := by decide

theorem test_ori :
    seen (exec (.ori 6 7 32768) (withRegs [(7, 0x00000000#32)])) (·.reg 6) = some 0x00008000#32 := by decide

theorem test_orhi :
    seen (exec (.orhi 6 7 32768) (withRegs [(7, 0x00001234#32)])) (·.reg 6) = some 0x80001234#32 := by decide

theorem test_xor :
    seen (exec (.xor 6 7 7) (withRegs [(7, 0xDEADBEEF#32)])) (·.reg 6) = some 0x00000000#32 := by decide

theorem test_xori :
    seen (exec (.xori 6 7 65535) (withRegs [(7, 0xFFFFFFFF#32)])) (·.reg 6) = some 0xFFFF0000#32 := by decide

theorem test_xorhi :
    seen (exec (.xorhi 6 7 32768) (withRegs [(7, 0x80000000#32)])) (·.reg 6) = some 0x00000000#32 := by decide

theorem test_nor :
    seen (exec (.nor 6 7 0) (withRegs [(7, 0x0000FFFF#32)])) (·.reg 6) = some 0xFFFF0000#32 := by decide

theorem test_cmpeq :
    seen (exec (.cmpeq 6 7 0) (withRegs [(7, 0x00000000#32)])) (·.reg 6) = some 0x00000001#32 ∧
    seen (exec (.cmpeq 6 7 0) (withRegs [(7, 0x00000009#32)])) (·.reg 6) = some 0x00000000#32 := by decide

theorem test_cmpeqi :
    seen (exec (.cmpeqi 6 7 (-1)) (withRegs [(7, 0xFFFFFFFF#32)])) (·.reg 6) = some 0x00000001#32 ∧
    seen (exec (.cmpeqi 6 7 (-1)) (withRegs [(7, 0x0000FFFF#32)])) (·.reg 6) = some 0x00000000#32 := by decide

theorem test_cmpne :
    seen (exec (.cmpne 6 7 8) (withRegs [(7, 0x00000009#32), (8, 0x00000008#32)])) (·.reg 6) = some 0x00000001#32 := by decide

theorem test_cmpnei :
    seen (exec (.cmpnei 6 7 (-1)) (withRegs [(7, 0x0000FFFF#32)])) (·.reg 6) = some 0x00000001#32 := by decide

theorem test_cmpge :
    seen (exec (.cmpge 6 7 8) (withRegs [(7, 0x80000000#32), (8, 0x7FFFFFFF#32)])) (·.reg 6) = some 0x00000000#32 ∧
    seen (exec (.cmpge 6 7 8) (withRegs [(7, 0x00000005#32), (8, 0x00000005#32)])) (·.reg 6) = some 0x00000001#32 := by decide

theorem test_cmpgei :
    seen (exec (.cmpgei 6 7 (-32768)) (withRegs [(7, 0x80000000#32)])) (·.reg 6) = some 0x00000000#32 ∧
    seen (exec (.cmpgei 6 7 (-32768)) (withRegs [(7, 0xFFFF8000#32)])) (·.reg 6) = some 0x00000001#32 := by decide

theorem test_cmpgeu :
    seen (exec (.cmpgeu 6 7 8) (withRegs [(7, 0x80000000#32), (8, 0x7FFFFFFF#32)])) (·.reg 6) = some 0x00000001#32 := by decide

theorem test_cmpgeui :
    seen (exec (.cmpgeui 6 7 65535) (withRegs [(7, 0x0000FFFE#32)])) (·.reg 6) = some 0x00000000#32 ∧
    seen (exec (.cmpgeui 6 7 65535) (withRegs [(7, 0x00010000#32)])) (·.reg 6) = some 0x00000001#32 := by decide

theorem test_cmplt :
    seen (exec (.cmplt 6 7 0) (withRegs [(7, 0x80000000#32)])) (·.reg 6) = some 0x00000001#32 := by decide

theorem test_cmplti :
    seen (exec (.cmplti 6 7 (-1)) (withRegs [(7, 0xFFFFFFFE#32)])) (·.reg 6) = some 0x00000001#32 := by decide

theorem test_cmpltu :
    seen (exec (.cmpltu 6 7 8) (withRegs [(7, 0x00000001#32), (8, 0xFFFFFFFF#32)])) (·.reg 6) = some 0x00000001#32 := by decide

theorem test_cmpltui :
    seen (exec (.cmpltui 6 7 0) (withRegs [(7, 0x00000000#32)])) (·.reg 6) = some 0x00000000#32 ∧
    seen (exec (.cmpltui 6 7 65535) (withRegs [(7, 0x0000FFFE#32)])) (·.reg 6) = some 0x00000001#32 := by decide

theorem test_rol :
    seen (exec (.rol 6 7 8) (withRegs [(7, 0x12345678#32), (8, 0x00000020#32)])) (·.reg 6) = some 0x12345678#32 ∧
    seen (exec (.rol 6 7 8) (withRegs [(7, 0x12345678#32), (8, 0xFFFFFFFF#32)])) (·.reg 6) = some 0x091A2B3C#32 := by decide

theorem test_roli :
    seen (exec (.roli 6 7 0) (withRegs [(7, 0x12345678#32)])) (·.reg 6) = some 0x12345678#32 ∧
    seen (exec (.roli 6 7 28) (withRegs [(7, 0x12345678#32)])) (·.reg 6) = some 0x81234567#32 := by decide

theorem test_ror :
    seen (exec (.ror 6 7 8) (withRegs [(7, 0x12345678#32), (8, 0x00000004#32)])) (·.reg 6) = some 0x81234567#32 := by decide

theorem test_sll :
    seen (exec (.sll 6 7 8) (withRegs [(7, 0xFFFFFFFF#32), (8, 0x0000001F#32)])) (·.reg 6) = some 0x80000000#32 ∧
    seen (exec (.sll 6 7 8) (withRegs [(7, 0xFFFFFFFF#32), (8, 0x00000020#32)])) (·.reg 6) = some 0xFFFFFFFF#32 := by decide

theorem test_slli :
    seen (exec (.slli 6 7 31) (withRegs [(7, 0x00000003#32)])) (·.reg 6) = some 0x80000000#32 := by decide

theorem test_sra :
    seen (exec (.sra 6 7 8) (withRegs [(7, 0xFFFFFFF9#32), (8, 0x00000001#32)])) (·.reg 6) = some 0xFFFFFFFC#32 := by decide

theorem test_srai :
    seen (exec (.srai 6 7 31) (withRegs [(7, 0x80000000#32)])) (·.reg 6) = some 0xFFFFFFFF#32 ∧
    seen (exec (.srai 6 7 31) (withRegs [(7, 0x7FFFFFFF#32)])) (·.reg 6) = some 0x00000000#32 := by decide

theorem test_srl :
    seen (exec (.srl 6 7 8) (withRegs [(7, 0xFFFFFFF9#32), (8, 0x00000021#32)])) (·.reg 6) = some 0x7FFFFFFC#32 := by decide

theorem test_srli :
    seen (exec (.srli 6 7 31) (withRegs [(7, 0x80000000#32)])) (·.reg 6) = some 0x00000001#32 ∧
    seen (exec (.srli 6 7 0) (withRegs [(7, 0x80000000#32)])) (·.reg 6) = some 0x80000000#32 := by decide

/-- 10_state.md R33: a write to r0 of set 0 is discarded and the instruction goes on. -/
theorem test_add_r0 : seen (exec (.add 0 7 8) (withRegs [(7, 5#32), (8, 6#32)])) (fun t => (t.reg 0, t.pc)) =
    some (0#32, 0x1004#32) := by decide

/-- R171: an optional instruction that is not there. -/
theorem test_mul_unimplemented :
    seen (exec (.mul 6 7 8) { withRegs [(7, 2#32), (8, 3#32)] with
      cfg := { Config.default with implMul := false }, status := 1#32 }) (fun t => (t.reg 29, t.pc, t.status, t.estatus)) =
    some (0x1004#32, 0x2000#32, 0#32, 1#32) := by decide

/-- R173: an undefined quotient goes on, with one free value drawn. -/
theorem test_div_undefined : seen (exec (.div 6 7 8) (withRegs [(7, 1#32)])) (fun t => (t.pc, t.draws)) =
    some (0x1004#32, 1) := by decide

theorem test_divu_error :
    seen (exec (.divu 6 7 8) { withRegs [(7, 1#32)] with cfg := { Config.default with divErrorExc := true } })
      (fun t => (t.label, t.pc)) = some (some .divisionError, 0x2000#32) := by decide

/-! ## One step: control transfer (95_test_vectors.md 2.4) -/

theorem test_br : seen (exec (.br 0x8000) { State.reset with pc := 0x10000#32 }) (·.pc) = some 0x8004#32 := by decide

theorem test_br_misaligned : seen (exec (.br 2) { State.reset with status := 1#32 }) (fun t => (t.reg 29, t.pc, t.estatus)) =
    some (0x1004#32, 0x2000#32, 1#32) := by decide

theorem test_beq : seen (exec (.beq 0 0 0x10) State.reset) (·.pc) = some 0x1014#32 := by decide

theorem test_beq_not_taken_misaligned : seen (exec (.beq 6 7 2) (withRegs [(6, 1#32), (7, 2#32)])) (·.pc) = some 0x1004#32 := by
  decide

theorem test_bne : seen (exec (.bne 6 7 0xFFEC) { withRegs [(6, 1#32)] with pc := 0x1010#32 }) (·.pc) = some 0x1000#32 := by
  decide

theorem test_bge :
    seen (exec (.bge 6 7 0x10) (withRegs [(6, 0x80000000#32), (7, 0x7FFFFFFF#32)])) (·.pc) = some 0x1004#32 := by decide

theorem test_bgeu :
    seen (exec (.bgeu 6 7 0x10) (withRegs [(6, 0x80000000#32), (7, 0x7FFFFFFF#32)])) (·.pc) = some 0x1014#32 := by decide

theorem test_blt : seen (exec (.blt 6 0 0x10) (withRegs [(6, 0x80000000#32)])) (·.pc) = some 0x1014#32 := by decide

theorem test_bltu : seen (exec (.bltu 6 0 0x10) (withRegs [(6, 0x80000000#32)])) (·.pc) = some 0x1004#32 := by decide

theorem test_call : seen (exec (.call 0x3FFFFFF) { State.reset with pc := 0x2FFFFFFC#32 }) (fun t => (t.reg 31, t.pc)) =
    some (0x30000000#32, 0x2FFFFFFC#32) := by decide

theorem test_callr_r31 : seen (exec (.callr 31) (withRegs [(31, 0x2000#32)])) (fun t => (t.reg 31, t.pc)) =
    some (0x1004#32, 0x2000#32) := by decide

theorem test_callr_misaligned :
    seen (exec (.callr 6) (withRegs [(6, 0x2002#32), (31, 0x1111#32)])) (fun t => (t.reg 31, t.reg 29, t.pc)) =
    some (0x1111#32, 0x1004#32, 0x2000#32) := by decide

theorem test_jmp : seen (exec (.jmp 6) (withRegs [(6, 0x2000#32)])) (·.pc) = some 0x2000#32 := by decide

theorem test_jmp_r31 : stop (exec (.jmp 31) (withRegs [(31, 0x2000#32)])) = some .jmpR31 := by decide

theorem test_jmpi : seen (exec (.jmpi 1) { State.reset with pc := 0xF0000000#32 }) (·.pc) = some 0xF0000004#32 := by decide

theorem test_ret : seen (exec .ret (withRegs [(31, 0x1003#32)])) (fun t => (t.reg 29, t.pc)) =
    some (0x1004#32, 0x2000#32) := by decide

theorem test_nextpc : seen (exec (.nextpc 6) { State.reset with pc := 0xFFFFFFFC#32 }) (fun t => (t.reg 6, t.pc)) =
    some (0#32, 0#32) := by decide

/-! ## One step: load and store (95_test_vectors.md 2.5; the `io` forms read the same without a data cache) -/

theorem test_ldb : seen (exec (.ldb 6 0xFFFF 5) (withM0 [(5, 0x2000#32)])) (·.reg 6) = some 0xFFFFFFBB#32 := by decide

theorem test_ldbio : seen (exec (.ldbio 6 1 5) (withM0 [(5, 0x2000#32)])) (·.reg 6) = some 0xFFFFFFFF#32 := by decide

theorem test_ldbu : seen (exec (.ldbu 6 0x8000 5) (withM0 [(5, 0xA000#32)])) (·.reg 6) = some 0x80#32 := by decide

theorem test_ldbuio : seen (exec (.ldbuio 6 1 5) (withM0 [(5, 0x2000#32)])) (·.reg 6) = some 0xFF#32 := by decide

theorem test_ldh : seen (exec (.ldh 6 0 5) (withM0 [(5, 0x2000#32)])) (·.reg 6) = some 0xFFFFFF80#32 := by decide

theorem test_ldhio : seen (exec (.ldhio 6 0xFFFE 5) (withM0 [(5, 0x2000#32)])) (·.reg 6) = some 0xFFFFBBAA#32 := by decide

theorem test_ldhu : seen (exec (.ldhu 6 2 5) (withM0 [(5, 0x2000#32)])) (·.reg 6) = some 0x7F#32 := by decide

theorem test_ldhuio : seen (exec (.ldhuio 6 0 5) (withM0 [(5, 0x2000#32)])) (·.reg 6) = some 0xFF80#32 := by decide

theorem test_ldw_base_is_data : seen (exec (.ldw 5 0 5) (withM0 [(5, 0x2000#32)])) (·.reg 5) = some 0x007FFF80#32 := by decide

theorem test_ldwio : seen (exec (.ldwio 6 0 5) (withM0 [(5, 0x2000#32)])) (·.reg 6) = some 0x007FFF80#32 := by decide

theorem test_ldw_misaligned : stop (exec (.ldw 6 2 5) (withM0 [(5, 0x2000#32)])) = some .misalignedDataAddress := by decide

theorem test_ldw_misaligned_raises :
    seen (exec (.ldw 6 2 5) { withM0 [(5, 0x2000#32), (6, 0x55#32)] with
      cfg := { Config.default with misalignedDataExc := true } }) (fun t => (t.reg 6, t.reg 29, t.label)) =
    some (0x55#32, 0x1004#32, some .misalignedDataAddress) := by decide

theorem test_stb :
    seen (exec (.stb 6 3 5) (withM0 [(5, 0x2000#32), (6, 0xFFFFFF11#32)])) (fun t => (t.memByte 0x2002#32, t.memByte 0x2003#32)) =
    some (0x7F#8, 0x11#8) := by decide

theorem test_stbio : seen (exec (.stbio 6 0 5) (withM0 [(5, 0x2000#32)])) (fun t => (t.memByte 0x2000#32, t.mem.length)) =
    some (0#8, 4) := by decide

theorem test_sth :
    seen (exec (.sth 6 2 5) (withM0 [(5, 0x2000#32), (6, 0xABCD1234#32)]))
      (fun t => (t.memByte 0x2001#32, t.memByte 0x2002#32, t.memByte 0x2003#32)) = some (0xFF#8, 0x34#8, 0x12#8) := by decide

theorem test_sthio :
    seen (exec (.sthio 6 0xFFFE 5) (withM0 [(5, 0x2000#32), (6, 0x1234#32)])) (fun t => (t.memByte 0x1FFE#32, t.memByte 0x1FFF#32)) =
    some (0x34#8, 0x12#8) := by decide

theorem test_stw :
    seen (exec (.stw 6 0xFFFC 5) (withM0 [(5, 0x2004#32), (6, 0xA1B2C3D4#32)]))
      (fun t => [t.memByte 0x2000#32, t.memByte 0x2001#32, t.memByte 0x2002#32, t.memByte 0x2003#32]) =
    some [0xD4#8, 0xC3#8, 0xB2#8, 0xA1#8] := by decide

theorem test_stwio :
    seen (exec (.stwio 6 0 5) (withM0 [(5, 0x2000#32), (6, 0xA1B2C3D4#32)])) (fun t => (t.memByte 0x2003#32, t.bus)) =
    some (0xA1#8, [.store 0x2000#32 4 0xA1B2C3D4#32]) := by decide

theorem test_stw_misaligned : stop (exec (.stw 6 0 5) (withM0 [(5, 0xFFFFFFFE#32)])) = some .misalignedDataAddress := by decide

/-! ## One step: caches, pipeline, sync (45_cache_sync.md; 95_test_vectors.md 2.6) -/

/-- Both caches, of four lines of 16 bytes. -/
def cached : Config :=
  { Config.default with
    hasDcache := true, hasIcache := true, dcacheLineLog := 2, dcacheLinesLog := 2, icacheLineLog := 2, icacheLinesLog := 2 }

/-- Data-cache line 1 holds the dirty bytes 0x2010 to 0x201F, of which 0x2010 is 0x55 (tag 0x2010 / 64 = 0x80), and
instruction-cache line 0 holds 0x1000 to 0x100F; memory has 0x11 at 0x2010; r6 = 0x2010. -/
def dirtyLine : State :=
  { State.resetOf cached with
    regs := [(6, 0x2010#32)], mem := [(0x2010, 0x11#8)], dcache := [(1, { valid := true, dirty := true, tag := 0x80 })]
    dcacheData := [(16, 0x55#8)], icache := [(0, { valid := true, tag := 0x40 })]
    icacheData := [(0, 0x3A#8), (1, 0x88#8), (2, 0x0D#8), (3, 0x3A#8)]
    hazard := [(0x804, .needsWriteBack)] }

theorem test_flushd : seen (exec (.flushd 0 6) dirtyLine)
    (fun t => (t.memByte 0x2010#32, t.byteAt 0x2010#32, (t.dline 1).valid, t.hazardAt 0x2010#32)) =
    some (0x55#8, 0x55#8, false, .needsInvalidate) := by decide

/-- By index: the address need not be the line's own. -/
theorem test_flushd_other_tag : seen (exec (.flushd 0x40 6) dirtyLine) (fun t => (t.memByte 0x2010#32, (t.dline 1).valid)) =
    some (0x55#8, false) := by decide

/-- An address of another line: the word at 0x2010 still waits for its own flush (20_memory.md R89). -/
theorem test_flushda_miss : seen (exec (.flushda 0x40 6) dirtyLine)
    (fun t => (t.memByte 0x2010#32, (t.dline 1).valid, t.hazardAt 0x2010#32)) =
    some (0x11#8, true, .needsWriteBack) := by decide

/-- A flush of the word itself counts where its line is not in the cache: its store missed, or the line was evicted
(70_reset_and_hazards.md R400). -/
theorem test_flush_after_missed_store :
    seen (exec (.flushd 0 6) { dirtyLine with dcache := [] }) (·.hazardAt 0x2010#32) = some .needsInvalidate ∧
    seen (exec (.flushda 0 6) { dirtyLine with dcache := [] }) (·.hazardAt 0x2010#32) = some .needsInvalidate := by decide

/-- R89 looks at the latest store that modified any byte of the word: after an `io` store no write-back is due. -/
theorem test_stbio_after_plain : seen (exec (.stbio 6 1 6) { dirtyLine with dcache := [] }) (·.hazardAt 0x2010#32) =
    some .needsInvalidate := by decide

theorem test_flushda_hit : seen (exec (.flushda 0xF 6) dirtyLine) (fun t => (t.memByte 0x2010#32, t.bus)) =
    some (0x55#8, [.writeBack 0x2010#32]) := by decide

theorem test_initd : seen (exec (.initd 0 6) dirtyLine) (fun t => (t.memByte 0x2010#32, t.byteAt 0x2010#32)) =
    some (0x11#8, 0x11#8) := by decide

theorem test_initd_user : seen (exec (.initd 0 6) { withRegs [(6, 0x1000#32)] with status := 2#32 })
    (fun t => (t.reg 29, t.status, t.estatus)) = some (0x1004#32, 0#32, 2#32) := by decide

theorem test_initda : seen (exec (.initda 0 6) dirtyLine) (fun t => (t.byteAt 0x2010#32, (t.dline 1).valid)) =
    some (0x11#8, false) := by decide

theorem test_initda_miss : seen (exec (.initda 0x40 6) dirtyLine) (fun t => (t.dline 1).dirty) = some true := by decide

theorem test_flushi : seen (exec (.flushi 0) dirtyLine) (fun t => ((t.iline 0).valid, t.codeByte 0x1000#32)) =
    some (false, 0#8) := by decide

theorem test_initi : seen (exec (.initi 0) { dirtyLine with hazard := [(0, .needsInvalidate)] })
    (fun t => ((t.iline 0).valid, t.hazardAt 3#32)) = some (false, .needsFlushPipeline) := by decide

theorem test_flushp : seen (exec .flushp { State.reset with hazard := [(0, .needsFlushPipeline), (1, .needsInvalidate)] })
    (·.hazard) = some [(1, .needsInvalidate)] := by decide

theorem test_sync : seen (exec .sync { State.reset with
    cfg := { Config.default with inOrderMemory := false }, pending := [.load 0#32 4] }) (fun t => (t.pending, t.bus)) =
    some ([], [.load 0#32 4]) := by decide

/-! ## One step: system (95_test_vectors.md 2.6) -/

theorem test_trap : seen (exec (.trap 31) { State.reset with status := 3#32 }) (fun t => (t.reg 29, t.pc, t.status, t.estatus)) =
    some (0x1004#32, 0x2000#32, 0#32, 3#32) := by decide

theorem test_break : seen (exec (.brk 0) { State.reset with status := 3#32, estatus := 1#32 })
    (fun t => (t.reg 30, t.pc, t.status, t.estatus, t.bstatus)) = some (0x1004#32, 0x4000#32, 0#32, 1#32, 3#32) := by decide

theorem test_eret : seen (exec .eret { withRegs [(29, 0x1800#32)] with estatus := 2#32 }) (fun t => (t.pc, t.status)) =
    some (0x1800#32, 2#32) := by decide

theorem test_eret_misaligned : seen (exec .eret { withRegs [(29, 0x1802#32)] with estatus := 3#32, pc := 0x2000#32 })
    (fun t => (t.reg 29, t.status, t.estatus)) = some (0x2004#32, 0#32, 0#32) := by decide

theorem test_bret : seen (exec .bret { withRegs [(30, 0x1800#32)] with bstatus := 3#32 }) (fun t => (t.pc, t.status)) =
    some (0x1800#32, 3#32) := by decide

theorem test_rdctl : seen (exec (.rdctl 3 1) { State.reset with estatus := 2#32 }) (·.reg 3) = some 2#32 := by decide

theorem test_rdctl_not_modelled : stop (exec (.rdctl 3 3) State.reset) = some .controlRegisterNotModelled := by decide

theorem test_wrctl : seen (exec (.wrctl 1 3) { withRegs [(3, 0xFFFFFFFF#32)] with status := 1#32 })
    (fun t => (t.status, t.estatus)) = some (1#32, 3#32) := by decide

theorem test_wrctl_user : seen (exec (.wrctl 0 3) { State.reset with status := 2#32 }) (fun t => (t.pc, t.status, t.estatus)) =
    some (0x2000#32, 0#32, 2#32) := by decide

/-- One shadow set; `status.PRS` = 1 (10_state.md R36). -/
def shadowed : State :=
  { State.resetOf { Config.default with numShadow := 1 } with
    regs := [(7, 3#32), (32, 9#32), (39, 5#32)], status := 0x10000#32 }

theorem test_rdprs : seen (exec (.rdprs 6 7 0xFFFF) shadowed) (·.reg 6) = some 4#32 := by decide

theorem test_rdprs_no_shadow : seen (exec (.rdprs 6 7 0) { State.reset with status := 1#32 }) (fun t => (t.label, t.reg 29)) =
    some (some .illegalInstruction, 0x1004#32) := by decide

theorem test_wrprs : seen (exec (.wrprs 0 7) shadowed) (fun t => (t.regOf 1 0, t.reg 0)) = some (3#32, 0#32) := by decide

theorem test_custom_add32 : seen (exec (.custom 5 6 7 8 true true true)
    { withRegs [(7, 2#32), (8, 3#32)] with cfg := { Config.default with custom := [(5, .add32)] } }) (·.reg 6) = some 5#32 := by
  decide

theorem test_custom_reserved : stop (exec (.custom 5 6 7 8 true true true) State.reset) = some .reservedEncoding := by decide

/-! ## Whole steps (60_exceptions.md R354, R361; 20_memory.md R89) -/

/-- 95_test_vectors.md 2.6: the interrupt is taken before the instruction. -/
theorem test_step_interrupt :
    seen (step { State.reset with pc := 0x1008#32, status := 1#32, irq := [true] })
      (fun t => (t.reg 29, t.pc, t.status, t.estatus)) = some (0x100C#32, 0x2000#32, 0#32, 1#32) := by decide

theorem test_step_interrupt_masked :
    seen (step ({ State.reset with irq := [true] }.withFetchWord 32 0x3A0D883A)) (fun t => (t.pc, t.label)) =
    some (0x1004#32, none) := by decide

theorem test_step_runs_first_word :
    seen (step (State.reset.withFetchWord 32 0x003DA03A)) (fun t => (t.pc, t.reg 30)) = some (0x4000#32, 0x1004#32) := by decide

/-- 95_test_vectors.md P7 without its `flushp`: the stored word is not fetchable. -/
theorem test_step_fetch_hazard :
    stop (step { State.reset with hazard := [(0x400, .needsFlushPipeline)] }) = some .fetchOfModifiedMemory := by decide

/-- The macros (95_test_vectors.md 1.2) and `movia` with the corner of 47_pseudo.md R336. -/
theorem test_macros :
    loMacro 0x12348ABC#32 = 0x8ABC#16 ∧ hiMacro 0x12348ABC#32 = 0x1234#16 ∧ hiadjMacro 0x12348ABC#32 = 0x1235#16 ∧
    hiadjMacro 0xFFFF8000#32 = 0#16 ∧ gprelMacro 0x12340000#32 0x12348ABC#32 = some 0x8ABC#16 ∧
    gprelMacro 0x10#32 0#32 = some 0xFFF0#16 ∧ gprelMacro 0#32 0x10000#32 = none ∧ macroValue true 0x8ABC#16 = -30020 ∧
    (expand (.movia 6 0x12348ABC#32)).map encode = [0x01848D74#32, 0x31A2AF04#32] := by decide

/-- Labels (95_test_vectors.md 1.4). -/
theorem test_labels :
    branchOffset 0x1010#32 0x1000#32 = some 0xFFEC#16 ∧ branchOffset 0x1000#32 0x1002#32 = none ∧
    segmentIndex 0x1000#32 0x9000#32 = some 0x2400#26 ∧ segmentIndex 0x1000#32 0x10000000#32 = none := by decide

/-! ## Witnesses: for each statement with hypotheses, a state and operands that meet them, each clause at an edge -/

/-- A set of registers that is a shadow set (10_state.md R35). -/
def inShadow : State := { shadowed with crs := 1 }

/-- User mode. -/
def user : State := { State.reset with status := 2#32 }

theorem test_witness_EncodeOfDecode :
    decode 0xFFFFFFC0#32 = .ok (.call 0x3FFFFFF) ∧ decode 0xEFBE083A#32 = .ok .eret ∧
    decode 0xF800203A#32 = .ok .flushp := ⟨rfl, rfl, rfl⟩

/-- `add r6, r7, r8` where the next step fetches. -/
def ready : State := State.reset.withFetchWord 32 0x3A0D883A

/-- The same word in the instruction cache only, with the data cache's dirty line beside it. -/
def readyInCache : State := { dirtyLine with pc := 0x1000#32 }

theorem test_witness_StepRunsDecoded :
    ready.interrupted = false ∧ ready.fetchAddress = .ok 0x1000#32 ∧
    regionOf ready.cfg 0x1000#32 = some Region.everything ∧ Region.everything.fetch = true ∧
    (∀ k : Fin 4, ready.hazardAt (0x1000#32 + BitVec.ofNat 32 k.val) = .fetchable) ∧
    0x3A0D883A#32 = BitVec.ofNat 32 (littleEndian ready.codeByte .word 0x1000#32) ∧
    decode 0x3A0D883A#32 = .ok (.add 6 7 8) ∧ ready.cfg.hasIcache = false ∧ ready.cfg.hasMmu = false := by
  refine ⟨by decide, rfl, by decide, rfl, by decide, by decide, rfl, rfl, rfl⟩

theorem test_witness_StepRunsDecoded_icache :
    readyInCache.interrupted = false ∧ readyInCache.fetchAddress = .ok 0x1000#32 ∧
    regionOf readyInCache.cfg 0x1000#32 = some Region.everything ∧
    (∀ k : Fin 4, readyInCache.hazardAt (0x1000#32 + BitVec.ofNat 32 k.val) = .fetchable) ∧
    0x3A0D883A#32 = BitVec.ofNat 32 (littleEndian readyInCache.codeByte .word 0x1000#32) ∧
    readyInCache.icacheHit 0x1000#32 = true := by
  refine ⟨by decide, rfl, by decide, by decide, by decide, by decide⟩

/-- The word in memory only: a miss of the instruction cache. -/
def readyOnMiss : State := (State.resetOf cached).withFetchWord 32 0x3A0D883A

theorem test_witness_StepRunsDecoded_miss :
    readyOnMiss.interrupted = false ∧ readyOnMiss.fetchAddress = .ok 0x1000#32 ∧
    (∀ k : Fin 4, readyOnMiss.hazardAt (0x1000#32 + BitVec.ofNat 32 k.val) = .fetchable) ∧
    0x3A0D883A#32 = BitVec.ofNat 32 (littleEndian readyOnMiss.codeByte .word 0x1000#32) ∧
    readyOnMiss.cfg.hasIcache = true ∧ readyOnMiss.icacheHit 0x1000#32 = false := by
  refine ⟨by decide, rfl, by decide, by decide, rfl, by decide⟩

/-- The word 0xFFFFFFFF at `pc`. -/
def reserved (illegal : Bool) : State := (State.resetOf { Config.default with illegalExc := illegal }).withFetchWord 32 0xFFFFFFFF

theorem test_witness_ReservedWordsTrapOrStop :
    (reserved true).interrupted = false ∧ (reserved true).fetchAddress = .ok 0x1000#32 ∧
    regionOf (reserved true).cfg 0x1000#32 = some Region.everything ∧
    (∀ k : Fin 4, (reserved true).hazardAt (0x1000#32 + BitVec.ofNat 32 k.val) = .fetchable) ∧
    0xFFFFFFFF#32 = BitVec.ofNat 32 (littleEndian (reserved true).codeByte .word 0x1000#32) ∧
    decode 0xFFFFFFFF#32 = .error .reservedOp ∧ (reserved true).cfg.illegalExc = true ∧
    0xFFFFFFFF#32 = BitVec.ofNat 32 (littleEndian (reserved false).codeByte .word 0x1000#32) ∧
    (reserved false).cfg.illegalExc = false := by
  refine ⟨by decide, rfl, by decide, by decide, by decide, rfl, rfl, by decide, rfl⟩

/-- An interrupt pending and enabled. -/
def interruptible : State := { State.reset with status := 3#32, irq := [true] }

theorem test_witness_InterruptEntry :
    interruptible.irq.head? = some true ∧ interruptible.status.getLsbD interruptible.cfg.statusPieBit.val = true := by decide

theorem test_witness_InterruptExactlyWhen :
    (∃ t, step interruptible = .next t ∧ t.label = some .interrupt) ∧ ∃ t, step ready = .next t ∧ t.label = none :=
  ⟨⟨_, rfl, rfl⟩, ⟨_, rfl, rfl⟩⟩

/-- A core whose instruction memory ends just below `pc`. -/
def noCodeHere : State :=
  State.resetOf { Config.default with regions := [{ Region.everything with size := 0x1000 },
    { Region.everything with base := 0x1001, fetch := false }] }

/-- A byte of the word at `pc` was modified. -/
def modifiedCode : State := { State.reset with hazard := [(0x400, .needsFlushPipeline)] }

theorem test_witness_FetchStops :
    State.reset.interrupted = false ∧
    (State.resetOf { Config.default with hasMmu := true }).cfg.hasMmu = true ∧
    (State.resetOf { Config.default with hasMpu := true }).cfg.hasMpu = true ∧
    noCodeHere.fetchAddress = .ok 0x1000#32 ∧ (∀ r, regionOf noCodeHere.cfg 0x1000#32 = some r → r.fetch = false) ∧
    (∀ r, regionOf noCodeHere.cfg 0x1001#32 = some r → r.fetch = false) ∧
    modifiedCode.fetchAddress = .ok 0x1000#32 ∧ regionOf modifiedCode.cfg 0x1000#32 = some Region.everything ∧
    ∃ k : Fin 4, modifiedCode.hazardAt (0x1000#32 + BitVec.ofNat 32 k.val) ≠ .fetchable := by
  have h0 : regionOf noCodeHere.cfg 0x1000#32 = none := by decide
  have h1 : (regionOf noCodeHere.cfg 0x1001#32).map Region.fetch = some false := by decide
  refine ⟨by decide, rfl, rfl, rfl, fun r h => ?_, fun r h => ?_, rfl, by decide, by decide⟩
  · rw [h0] at h
    cases h
  · rw [h] at h1
    simpa using h1

theorem test_witness_RegisterZero : (1 : Nat) ≠ 0 ∧ inShadow.crs ≠ 0 := by decide

theorem test_witness_ShadowR0NeverWritten :
    inShadow.crs ≠ 0 ∧ destination (.mul 0 1 2) = some 0#5 ∧
    ∃ t, exec (.mul 0 1 2) { inShadow with cfg := { Config.default with implMul := false } } = .next t :=
  ⟨by decide, rfl, _, rfl⟩

theorem test_witness_AddSubResults : Writable 0#5 State.reset ∧ Writable 1#5 inShadow := by
  constructor <;> unfold Writable <;> decide

theorem test_witness_MulLowResults :
    Writable 31#5 inShadow ∧ inShadow.cfg.implMul = true ∧ inShadow.cfg.implMuli = true := by
  unfold Writable; decide

theorem test_witness_MulHighResults :
    Writable 31#5 inShadow ∧ inShadow.cfg.implMulxss = true ∧ inShadow.cfg.implMulxsu = true ∧
    inShadow.cfg.implMulxuu = true := by
  unfold Writable; decide

/-- The dividend -2^31 with the divisors next to the undefined ones: 1 and -2. -/
theorem test_witness_DivisionResults :
    let s := withRegs [(6, 0x80000000#32), (7, 1#32), (8, 0xFFFFFFFE#32)]
    Writable 6#5 s ∧ s.reg 7 ≠ 0#32 ∧ s.reg 8 ≠ 0#32 ∧ s.cfg.implDiv = true ∧ s.cfg.implDivu = true ∧
    ¬ ((s.reg 6).toInt = -2 ^ 31 ∧ (s.reg 7).toInt = -1) ∧ ¬ ((s.reg 6).toInt = -2 ^ 31 ∧ (s.reg 8).toInt = -1) := by
  unfold Writable; decide

theorem test_witness_UndefinedDivision :
    let s := withRegs [(6, 0x80000000#32), (7, 0xFFFFFFFF#32)]
    s.cfg.implDiv = true ∧ s.cfg.implDivu = true ∧ s.reg 8 = 0#32 ∧ (s.reg 6).toInt = -2 ^ 31 ∧ (s.reg 7).toInt = -1 ∧
    s.cfg.divErrorExc = false ∧ Writable 6#5 s ∧ { Config.default with divErrorExc := true }.divErrorExc = true := by
  unfold Writable; decide

/-- A core with none of the optional instructions. -/
def minimal : Config :=
  { Config.default with
    implMul := false, implMuli := false, implMulxss := false, implMulxsu := false, implMulxuu := false
    implDiv := false, implDivu := false, implInitda := false }

theorem test_witness_UnimplementedRaises :
    ∀ b ∈ [minimal.implMul, minimal.implMuli, minimal.implMulxss, minimal.implMulxsu, minimal.implMulxuu,
      minimal.implDiv, minimal.implDivu, minimal.implInitda], b = false := by decide

theorem test_witness_LogicalResults : Writable 0#5 State.reset ∧ Writable 31#5 inShadow := by
  constructor <;> unfold Writable <;> decide

theorem test_witness_CarryIdiom :
    (6 : Reg) ≠ 0#5 ∧ (8 : Reg) ≠ 0#5 ∧ (6 : Reg) ≠ 7 ∧ (8 : Reg) ≠ 6 := by decide

theorem test_witness_MulCarryIdiom :
    State.reset.cfg.implMulxuu = true ∧ (6 : Reg) ≠ 0#5 ∧ State.reset.crs = 0 := by decide

theorem test_witness_RemainderIdiom :
    let s := withRegs [(7, 0x80000000#32), (8, 0xFFFFFFFE#32)]
    s.cfg.implDiv = true ∧ s.cfg.implMul = true ∧ (6 : Reg) ≠ 0#5 ∧ (9 : Reg) ≠ 0#5 ∧ (6 : Reg) ≠ 7 ∧ (6 : Reg) ≠ 8 ∧
    (9 : Reg) ≠ 7 ∧ s.reg 8 ≠ 0#32 ∧ ¬ ((s.reg 7).toInt = -2 ^ 31 ∧ (s.reg 8).toInt = -1) := by decide

theorem test_witness_ComparisonResults : Writable 0#5 State.reset ∧ Writable 1#5 inShadow := by
  constructor <;> unfold Writable <;> decide

theorem test_witness_ShiftResults : Writable 31#5 State.reset ∧ Writable 31#5 inShadow := by
  constructor <;> unfold Writable <;> decide

theorem test_witness_RotateResults : Writable 0#5 State.reset ∧ Writable 31#5 inShadow := by
  constructor <;> unfold Writable <;> decide

/-- Each branch taken to an aligned and to a misaligned target, and not taken. -/
theorem test_witness_BranchResults :
    let s := withRegs [(6, 5#32), (7, 5#32), (8, 6#32)]
    0x1000#32 = BitVec.ofInt 32 ((s.pc.toNat : Int) + 4 + (0xFFFC#16).toInt) ∧ Word.Aligned4 0x1000#32 ∧
    0x1003#32 = BitVec.ofInt 32 ((s.pc.toNat : Int) + 4 + (0xFFFF#16).toInt) ∧ ¬ Word.Aligned4 0x1003#32 ∧
    s.reg 6 = s.reg 7 ∧ s.reg 6 ≠ s.reg 8 ∧ (s.reg 7).toInt ≤ (s.reg 6).toInt ∧ ¬ (s.reg 8).toInt ≤ (s.reg 6).toInt ∧
    (s.reg 7).toNat ≤ (s.reg 6).toNat ∧ ¬ (s.reg 8).toNat ≤ (s.reg 6).toNat ∧ (s.reg 6).toInt < (s.reg 8).toInt ∧
    ¬ (s.reg 6).toInt < (s.reg 7).toInt ∧ (s.reg 6).toNat < (s.reg 8).toNat ∧ ¬ (s.reg 6).toNat < (s.reg 7).toNat := by
  decide

theorem test_witness_JumpResults :
    let s := withRegs [(30, 0xFFFFFFFC#32), (31, 0#32)]
    4 ∣ (s.reg 30).toNat ∧ (30 : Reg) ≠ 31#5 ∧ 4 ∣ (s.reg 31#5).toNat ∧ Writable 0#5 s := by
  unfold Writable; decide

theorem test_witness_MisalignedDestinationRaises :
    let s := withRegs [(6, 0x2002#32), (7, 0x2002#32), (8, 0x2003#32), (29, 1#32), (30, 2#32), (31, 0xFFFFFFFF#32)]
    s.pc.toNat % 4 = 0 ∧ (0xFFFF#16).toNat % 4 ≠ 0 ∧ s.reg 6 = s.reg 7 ∧ s.reg 6 ≠ s.reg 8 ∧
    (s.reg 7).toInt ≤ (s.reg 6).toInt ∧ (s.reg 7).toNat ≤ (s.reg 6).toNat ∧ (s.reg 6).toInt < (s.reg 8).toInt ∧
    (s.reg 6).toNat < (s.reg 8).toNat ∧ ¬ 4 ∣ (s.reg 6).toNat ∧ (6 : Reg) ≠ 31#5 ∧ ¬ 4 ∣ (s.reg 31#5).toNat ∧
    s.userMode = false ∧ ¬ 4 ∣ (s.reg 29#5).toNat ∧ ¬ 4 ∣ (s.reg 30#5).toNat := by decide

/-- The data cache of `dirtyLine` is sound: its one valid line is dirty. -/
theorem dirtyLine_sound : DcacheSound dirtyLine := by
  have lines : ∀ n, (dirtyLine.dline n).valid = true → (dirtyLine.dline n).dirty = true := by
    intro n
    by_cases h : 1 = n <;> simp [dirtyLine, State.dline, Sparse.get, DLine.empty, h]
  refine ⟨by unfold TagsInRange; decide, fun a hit clean => ?_⟩
  simp only [State.dcacheHit, Bool.and_eq_true] at hit
  rw [lines _ hit.1.2] at clean
  cases clean

/-- The last word of the space, little by little: a byte, a halfword and a word that end at 0xFFFFFFFF. -/
theorem test_witness_LoadsFromMemory :
    let s := withRegs [(5, 0xFFFFFFF8#32)]
    (Instr.ldb, Path.plain, Width.byte, true) ∈ loadForms ∧ (Instr.ldhuio, Path.io, Width.half, false) ∈ loadForms ∧
    (Instr.ldw, Path.plain, Width.word, false) ∈ loadForms ∧
    0xFFFFFFFF#32 = BitVec.ofInt 32 ((s.reg 5).toInt + (7#16).toInt) ∧ widthBytes .byte ∣ (0xFFFFFFFF#32).toNat ∧
    0xFFFFFFFE#32 = BitVec.ofInt 32 ((s.reg 5).toInt + (6#16).toInt) ∧ widthBytes .half ∣ (0xFFFFFFFE#32).toNat ∧
    0xFFFFFFFC#32 = BitVec.ofInt 32 ((s.reg 5).toInt + (4#16).toInt) ∧ widthBytes .word ∣ (0xFFFFFFFC#32).toNat ∧
    s.protectData .read 0xFFFFFFFC#32 = .ok 0xFFFFFFFC#32 ∧ LoadMemory s.cfg 0xFFFFFFFF#32 ∧
    LoadMemory s.cfg 0xFFFFFFFE#32 ∧ LoadMemory s.cfg 0xFFFFFFFC#32 ∧ s.cfg.hasDcache = false ∧ Writable 0#5 s := by
  refine ⟨by simp [loadForms], by simp [loadForms], by simp [loadForms], by decide, by decide, by decide, by decide,
    by decide, by decide, rfl, ⟨_, rfl, rfl, rfl⟩, ⟨_, rfl, rfl, rfl⟩, ⟨_, rfl, rfl, rfl⟩, rfl, .inr rfl⟩

/-- An `io` load beside a dirty line: the first address past the line. -/
theorem test_witness_LoadsFromMemory_io :
    (Instr.ldwio, Path.io, Width.word, false) ∈ loadForms ∧
    0x2020#32 = BitVec.ofInt 32 ((dirtyLine.reg 6).toInt + (0x10#16).toInt) ∧ widthBytes .word ∣ (0x2020#32).toNat ∧
    dirtyLine.protectData .read 0x2020#32 = .ok 0x2020#32 ∧ LoadMemory dirtyLine.cfg 0x2020#32 ∧
    dirtyLine.dcacheHit 0x2020#32 = false ∧ Writable 6#5 dirtyLine := by
  refine ⟨by simp [loadForms], by decide, by decide, rfl, ⟨_, rfl, rfl, rfl⟩, by decide, .inr rfl⟩

/-- The last word of the dirty line (a hit) and the same index with another tag (a miss). -/
theorem test_witness_LoadsThroughCache :
    (Instr.ldw, Path.plain, Width.word, false) ∈ loadForms ∧ dirtyLine.cfg.WellFormed ∧ DcacheSound dirtyLine ∧
    0x201C#32 = BitVec.ofInt 32 ((dirtyLine.reg 6).toInt + (0xC#16).toInt) ∧ widthBytes .word ∣ (0x201C#32).toNat ∧
    dirtyLine.protectData .read 0x201C#32 = .ok 0x201C#32 ∧ LoadMemory dirtyLine.cfg 0x201C#32 ∧
    dirtyLine.cfg.hasDcache = true ∧ Writable 6#5 dirtyLine ∧ dirtyLine.dcacheHit 0x201C#32 = true ∧
    0x2050#32 = BitVec.ofInt 32 ((dirtyLine.reg 6).toInt + (0x40#16).toInt) ∧ LoadMemory dirtyLine.cfg 0x2050#32 ∧
    dirtyLine.dcacheHit 0x2050#32 = false := by
  refine ⟨by simp [loadForms], by decide, dirtyLine_sound, by decide, by decide, rfl, ⟨_, rfl, rfl, rfl⟩, rfl, .inr rfl,
    by decide, by decide, ⟨_, rfl, rfl, rfl⟩, by decide⟩

theorem test_witness_StoresToMemory :
    let s := withRegs [(5, 0xFFFFFFF8#32), (6, 0x12345678#32)]
    (Instr.stb, Path.plain, Width.byte) ∈ storeForms ∧ (Instr.stwio, Path.io, Width.word) ∈ storeForms ∧
    0xFFFFFFFF#32 = BitVec.ofInt 32 ((s.reg 5).toInt + (7#16).toInt) ∧
    0xFFFFFFFC#32 = BitVec.ofInt 32 ((s.reg 5).toInt + (4#16).toInt) ∧ widthBytes .word ∣ (0xFFFFFFFC#32).toNat ∧
    s.protectData .write 0xFFFFFFFC#32 = .ok 0xFFFFFFFC#32 ∧ StoreMemory s.cfg 0xFFFFFFFF#32 ∧
    StoreMemory s.cfg 0xFFFFFFFC#32 ∧ s.cfg.hasDcache = false := by
  refine ⟨by simp [storeForms], by simp [storeForms], by decide, by decide, by decide, rfl, ⟨_, rfl, rfl, rfl⟩,
    ⟨_, rfl, rfl, rfl⟩, rfl⟩

theorem test_witness_StoresToMemory_io :
    (Instr.stwio, Path.io, Width.word) ∈ storeForms ∧
    0x200C#32 = BitVec.ofInt 32 ((dirtyLine.reg 6).toInt + (0xFFFC#16).toInt) ∧ widthBytes .word ∣ (0x200C#32).toNat ∧
    dirtyLine.protectData .write 0x200C#32 = .ok 0x200C#32 ∧ StoreMemory dirtyLine.cfg 0x200C#32 ∧
    dirtyLine.dcacheHit 0x200C#32 = false := by
  refine ⟨by simp [storeForms], by decide, by decide, rfl, ⟨_, rfl, rfl, rfl⟩, by decide⟩

theorem test_witness_StoresThroughCache :
    (Instr.sth, Path.plain, Width.half) ∈ storeForms ∧ dirtyLine.cfg.WellFormed ∧ DcacheSound dirtyLine ∧
    0x201E#32 = BitVec.ofInt 32 ((dirtyLine.reg 6).toInt + (0xE#16).toInt) ∧ widthBytes .half ∣ (0x201E#32).toNat ∧
    dirtyLine.protectData .write 0x201E#32 = .ok 0x201E#32 ∧ StoreMemory dirtyLine.cfg 0x201E#32 ∧
    dirtyLine.cfg.hasDcache = true ∧ dirtyLine.dcacheHit 0x201E#32 = true ∧
    0x2050#32 = BitVec.ofInt 32 ((dirtyLine.reg 6).toInt + (0x40#16).toInt) ∧ StoreMemory dirtyLine.cfg 0x2050#32 ∧
    dirtyLine.dcacheHit 0x2050#32 = false := by
  refine ⟨by simp [storeForms], by decide, dirtyLine_sound, by decide, by decide, rfl, ⟨_, rfl, rfl, rfl⟩, rfl, by decide,
    by decide, ⟨_, rfl, rfl, rfl⟩, by decide⟩

/-- A halfword at an odd address, a word one halfword off, with the exception and without it. -/
theorem test_witness_MisalignedDataRaisesOrStops :
    let s := withRegs [(5, 0x2000#32)]
    (∃ con path signed, (con, path, Width.half, signed) ∈ loadForms ∧ Instr.ldhio 6 1 5 = con 6 1 5) ∧
    (∃ con path, (con, path, Width.word) ∈ storeForms ∧ Instr.stw 6 2 5 = con 6 2 5) ∧
    0x2001#32 = BitVec.ofInt 32 ((s.reg 5).toInt + (1#16).toInt) ∧ ¬ widthBytes .half ∣ (0x2001#32).toNat ∧
    0x2002#32 = BitVec.ofInt 32 ((s.reg 5).toInt + (2#16).toInt) ∧ ¬ widthBytes .word ∣ (0x2002#32).toNat ∧
    s.protectData .read 0x2001#32 ≠ .error .supervisorOnlyDataAddress ∧
    s.protectData .write 0x2002#32 ≠ .error .supervisorOnlyDataAddress ∧ s.cfg.misalignedDataExc = false ∧
    { Config.default with misalignedDataExc := true }.misalignedDataExc = true := by
  refine ⟨⟨.ldhio, .io, true, by simp [loadForms], rfl⟩, ⟨.stw, .plain, by simp [storeForms], rfl⟩, by decide, by decide,
    by decide, by decide, fun h => (nomatch h), fun h => (nomatch h), rfl, rfl⟩

/-- Without and with an MMU, with an MPU alone; an aligned address. -/
theorem test_witness_ProtectedAccessRaises :
    let s := withRegs [(5, 0x2000#32)]
    0x2000#32 = BitVec.ofInt 32 ((s.reg 5).toInt + (0#16).toInt) ∧ s.cfg.hasMmu = false ∧ s.cfg.hasMpu = false ∧
    { Config.default with hasMmu := true }.hasMmu = true ∧ { Config.default with hasMpu := true }.hasMpu = true ∧
    (∃ con path signed, (con, path, Width.word, signed) ∈ loadForms ∧ Instr.ldw 6 0 5 = con 6 0 5) ∧
    (∃ con path, (con, path, Width.byte) ∈ storeForms ∧ Instr.stb 6 0 5 = con 6 0 5) ∧
    widthBytes .word ∣ (0x2000#32).toNat ∧ s.cfg.implInitda = true := by
  refine ⟨by decide, rfl, rfl, rfl, rfl, ⟨.ldw, .plain, false, by simp [loadForms], rfl⟩,
    ⟨.stb, .plain, by simp [storeForms], rfl⟩, by decide, rfl⟩

/-- A device at 0x8000 to 0x80FF, memory below, nothing above; with both caches. -/
def withDevice (c : Config) : State :=
  { State.resetOf { c with regions := [{ Region.everything with size := 0x8000 },
      { Region.everything with base := 0x8000, size := 0x100, fetch := false, peripheral := true },
      { Region.everything with base := 0x9000, size := 0x100, load := false, store := false }] } with
    regs := [(5, 0x8100#32)], dcache := dirtyLine.dcache, dcacheData := dirtyLine.dcacheData }

theorem test_witness_InadmissibleAccessStops :
    let s := withDevice cached
    (∃ con signed, (con, Path.plain, Width.word, signed) ∈ loadForms ∧ Instr.ldw 6 0 5 = con 6 0 5) ∧
    (∃ con, (con, Path.io, Width.byte) ∈ storeForms ∧ Instr.stbio 6 0 5 = con 6 0 5) ∧
    0x8100#32 = BitVec.ofInt 32 ((s.reg 5).toInt + (0#16).toInt) ∧ widthBytes .word ∣ (0x8100#32).toNat ∧
    s.protectData .read 0x8100#32 = .ok 0x8100#32 ∧ (∀ r, regionOf s.cfg 0x8100#32 = some r → r.load = false) ∧
    (∀ r, regionOf s.cfg 0x9000#32 = some r → r.store = false) ∧
    (∃ r, regionOf s.cfg 0x80FC#32 = some r ∧ r.load = true ∧ r.peripheral = true) ∧ s.cfg.hasDcache = true ∧
    (∃ r, regionOf s.cfg 0x201F#32 = some r ∧ r.store = true) ∧ s.dcacheHit 0x201F#32 = true := by
  have h0 : regionOf (withDevice cached).cfg 0x8100#32 = none := by decide
  have h1 : (regionOf (withDevice cached).cfg 0x9000#32).map Region.store = some false := by decide
  refine ⟨⟨.ldw, false, by simp [loadForms], rfl⟩, ⟨.stbio, by simp [storeForms], rfl⟩, by decide, by decide, rfl,
    fun r h => ?_, fun r h => ?_, ⟨_, rfl, rfl, rfl⟩, rfl, ⟨_, rfl, rfl⟩, by decide⟩
  · rw [h0] at h
    cases h
  · rw [h] at h1
    simpa using h1

/-- The last word of the device: a plain access without a data cache, an `io` one with it. -/
theorem test_witness_PeripheralAccess :
    0x80FC#32 = BitVec.ofInt 32 (((withDevice Config.default).reg 5).toInt + (0xFFFC#16).toInt) ∧
    widthBytes .word ∣ (0x80FC#32).toNat ∧
    (∃ r, regionOf (withDevice Config.default).cfg 0x80FC#32 = some r ∧ r.peripheral = true ∧ r.load = true ∧ r.store = true) ∧
    (withDevice Config.default).cfg.hasDcache = false ∧
    (∃ r, regionOf (withDevice cached).cfg 0x80FC#32 = some r ∧ r.peripheral = true ∧ r.load = true ∧ r.store = true) ∧
    (withDevice cached).dcacheHit 0x80FC#32 = false ∧ (Instr.ldw, Path.plain, Width.word, false) ∈ loadForms ∧
    (Instr.ldwio, Path.io, Width.word, false) ∈ loadForms ∧ (Instr.stw, Path.plain, Width.word) ∈ storeForms ∧
    (Instr.stwio, Path.io, Width.word) ∈ storeForms ∧
    (withDevice cached).protectData .read 0x80FC#32 = .ok 0x80FC#32 ∧
    (withDevice cached).protectData .write 0x80FC#32 = .ok 0x80FC#32 ∧ Writable 6#5 (withDevice cached) := by
  refine ⟨by decide, by decide, ⟨_, rfl, rfl, rfl, rfl⟩, rfl, ⟨_, rfl, rfl, rfl, rfl⟩, by decide, by simp [loadForms],
    by simp [loadForms], by simp [storeForms], by simp [storeForms], rfl, rfl, .inr rfl⟩

theorem test_witness_CacheInstructionsWithoutCache :
    0xFFFF8000#32 = BitVec.ofInt 32 ((State.reset.reg 0).toInt + (0x8000#16).toInt) ∧
    State.reset.cfg.hasDcache = false ∧ State.reset.cfg.hasIcache = false ∧ State.reset.userMode = false ∧
    State.reset.cacheOpAddress 0xFFFF8000#32 = .ok 0xFFFF8000#32 ∧ State.reset.cfg.implInitda = true := by
  refine ⟨by decide, rfl, rfl, by decide, rfl, rfl⟩

/-- The last byte of the dirty line (a hit) and the first of the next (a miss). -/
theorem test_witness_FlushWritesBack :
    dirtyLine.cfg.WellFormed ∧ DcacheSound dirtyLine ∧ dirtyLine.cfg.hasDcache = true ∧
    0x201F#32 = BitVec.ofInt 32 ((dirtyLine.reg 6).toInt + (0xF#16).toInt) ∧
    dirtyLine.cacheOpAddress 0x201F#32 = .ok 0x201F#32 ∧ dirtyLine.dcacheHit 0x201F#32 = true ∧
    (dirtyLine.dline (dlineOf dirtyLine.cfg 0x201F)).dirty = true ∧
    0x2020#32 = BitVec.ofInt 32 ((dirtyLine.reg 6).toInt + (0x10#16).toInt) ∧
    dirtyLine.cacheOpAddress 0x2020#32 = .ok 0x2020#32 ∧ dirtyLine.dcacheHit 0x2020#32 = false ∧
    (dirtyLine.dline (dlineOf dirtyLine.cfg 0x2020)).valid = false := by
  refine ⟨by decide, dirtyLine_sound, rfl, by decide, rfl, by decide, by decide, by decide, rfl, by decide, by decide⟩

theorem test_witness_InitDiscards :
    dirtyLine.cfg.hasDcache = true ∧ 0x2010#32 = BitVec.ofInt 32 ((dirtyLine.reg 6).toInt + (0#16).toInt) ∧
    dirtyLine.userMode = false ∧ dirtyLine.cfg.implInitda = true ∧ dirtyLine.cacheOpAddress 0x2010#32 = .ok 0x2010#32 ∧
    dirtyLine.dcacheHit 0x2010#32 = true ∧ 0x200F#32 = BitVec.ofInt 32 ((dirtyLine.reg 6).toInt + (0xFFFF#16).toInt) ∧
    dirtyLine.cacheOpAddress 0x200F#32 = .ok 0x200F#32 ∧ dirtyLine.dcacheHit 0x200F#32 = false := by
  refine ⟨rfl, by decide, by decide, rfl, rfl, by decide, by decide, rfl, by decide⟩

theorem test_witness_InvalidateInstructionLine : dirtyLine.cfg.hasIcache = true ∧ dirtyLine.userMode = false := by decide

theorem test_witness_FlushpAndSync :
    Sparse.Canonical HazardStage.fetchable modifiedCode.hazard ∧ modifiedCode.cfg.inOrderMemory = true ∧
    { Config.default with inOrderMemory := false }.inOrderMemory = false := by decide

theorem test_witness_HazardSequence :
    Sparse.Canonical HazardStage.fetchable dirtyLine.hazard ∧ dirtyLine.cfg.hasMmu = false ∧
    dirtyLine.cfg.hasMpu = false ∧ 4 ∣ (dirtyLine.reg 6).toNat ∧ StoreMemory dirtyLine.cfg (dirtyLine.reg 6) ∧
    dirtyLine.dcacheHit (dirtyLine.reg 6) = true ∧ 4 ∣ (dirtyLine.reg 0).toNat ∧
    StoreMemory dirtyLine.cfg (dirtyLine.reg 0) ∧ dirtyLine.dcacheHit (dirtyLine.reg 0) = false := by
  refine ⟨by decide, rfl, rfl, by decide, ⟨_, rfl, rfl, rfl⟩, by decide, by decide, ⟨_, rfl, rfl, rfl⟩, by decide⟩

theorem test_witness_ReturnsRestore :
    let s := withRegs [(29, 0xFFFFFFFC#32), (30, 4#32)]
    s.userMode = false ∧ 4 ∣ (s.reg 29#5).toNat ∧ 4 ∣ (s.reg 30#5).toNat := by decide

theorem test_witness_SupervisorOnlyRaises : user.userMode = true := by decide

/-- With user mode the default write mask is 3; without it U falls out. -/
theorem test_witness_ControlRegisterAccess :
    let s := State.reset
    let t := State.resetOf { Config.default with hasUserMode := false }
    s.cfg.WellFormed ∧ s.userMode = false ∧ Writable 0#5 s ∧
    (∀ j : Fin 32, (3#32).getLsbD j.val = (s.cfg.statusWriteMask.getLsbD j.val && (s.cfg.hasUserMode || j != s.cfg.statusUBit))) ∧
    t.cfg.WellFormed ∧ t.userMode = false ∧
    (∀ j : Fin 32, (1#32).getLsbD j.val = (t.cfg.statusWriteMask.getLsbD j.val && (t.cfg.hasUserMode || j != t.cfg.statusUBit))) ∧
    (3 : Imm5) ≠ s.cfg.ctlStatus ∧ (3 : Imm5) ≠ s.cfg.ctlEstatus ∧ (3 : Imm5) ≠ s.cfg.ctlBstatus := by
  refine ⟨by decide, by decide, .inr rfl, by decide, by decide, by decide, by decide, by decide, by decide, by decide⟩

/-- No shadow sets; PRS one past the last set; PRS the last set. -/
theorem test_witness_PreviousSetAccess :
    State.reset.userMode = false ∧ State.reset.cfg.numShadow = 0 ∧
    0 < shadowed.cfg.numShadow ∧ shadowed.cfg.numShadow < { shadowed with status := 0x20000#32 }.prs ∧
    { shadowed with status := 0x20000#32 }.userMode = false ∧
    shadowed.userMode = false ∧ shadowed.prs = shadowed.cfg.numShadow ∧ Writable 6#5 inShadow := by
  unfold Writable; decide

theorem test_witness_CustomResults :
    Config.default.custom.lookup 5 = none ∧ Config.default.illegalExc = false ∧
    { Config.default with illegalExc := true }.illegalExc = true ∧
    { Config.default with custom := [(255, .userDefined), (5, .add32)] }.custom.lookup 5 = some .add32 ∧
    { Config.default with custom := [(255, .userDefined), (5, .add32)] }.custom.lookup 255 = some .userDefined ∧
    Writable 6#5 State.reset := by
  unfold Writable; decide

theorem test_witness_ExceptionsArePrecise :
    State.reset.label = none ∧ (∃ t, exec (.brk 31) State.reset = .next t ∧ t.label = some .breakpoint) ∧
    ∃ t, exec (.br 2) State.reset = .next t ∧ t.label = some .misalignedDestinationAddress :=
  ⟨rfl, ⟨_, rfl, rfl⟩, ⟨_, rfl, rfl⟩⟩

theorem test_witness_UserModeConfined :
    user.userMode = true ∧ user.label = none ∧ ∃ t, exec (.call 0) user = .next t ∧ t.label = none :=
  ⟨by decide, rfl, _, rfl, rfl⟩

/-- A register changed in each of the five ways. -/
theorem test_witness_RegisterFrame :
    (∃ t, exec (.addi 6 0 1) State.reset = .next t ∧ t.regOf 0 6 ≠ State.reset.regOf 0 6) ∧
    (∃ t, exec (.wrprs 0 7) shadowed = .next t ∧ t.regOf 1 0 ≠ shadowed.regOf 1 0) ∧
    (∃ t, exec (.call 0) State.reset = .next t ∧ t.regOf 0 31 ≠ State.reset.regOf 0 31) ∧
    (∃ t, exec (.brk 0) State.reset = .next t ∧ t.regOf 0 30 ≠ State.reset.regOf 0 30) ∧
    ∃ t, exec (.trap 0) State.reset = .next t ∧ t.regOf 0 29 ≠ State.reset.regOf 0 29 := by
  refine ⟨⟨_, rfl, by decide⟩, ⟨_, rfl, by decide⟩, ⟨_, rfl, by decide⟩, ⟨_, rfl, by decide⟩, ⟨_, rfl, by decide⟩⟩

/-- A byte stored, and a byte written back. -/
theorem test_witness_MemoryFrame :
    (withRegs [(6, 1#32)]).cfg.WellFormed ∧ (withRegs [(6, 1#32)]).cfg.hasDcache = false ∧
    (∃ t, exec (.stb 6 0 0) (withRegs [(6, 1#32)]) = .next t ∧ t.memByte 0#32 ≠ (withRegs [(6, 1#32)]).memByte 0#32) ∧
    dirtyLine.cfg.WellFormed ∧ TagsInRange dirtyLine ∧
    ∃ t, exec (.flushd 0 6) dirtyLine = .next t ∧ t.memByte 0x2010#32 ≠ dirtyLine.memByte 0x2010#32 :=
  ⟨by decide, rfl, ⟨_, rfl, by decide⟩, by decide, dirtyLine_sound.1, _, rfl, by decide⟩

theorem test_witness_ConfigurationConstant : ∃ t, step ready = .next t := ⟨_, rfl⟩

theorem test_witness_StepKeepsCanonical : ready.Canonical ∧ ∃ t, step ready = .next t := ⟨by decide, _, rfl⟩

theorem test_witness_StepKeepsInv : ready.Inv ∧ ∃ t, step ready = .next t := ⟨by decide, _, rfl⟩

theorem test_witness_StepKeepsDcacheSound :
    readyInCache.cfg.WellFormed ∧ readyInCache.cfg.hasMmu = false ∧ readyInCache.cfg.hasMpu = false ∧
    DcacheSound readyInCache ∧ ∃ t, step readyInCache = .next t :=
  ⟨by decide, rfl, rfl, dirtyLine_sound, _, rfl⟩

/-- Every immediate form at both ends of its range. -/
theorem test_witness_PseudoResults :
    Writable 6#5 State.reset ∧ State.reset.reg 0#5 = 0#32 ∧ (Pseudo.cmpgt 6 7 8).WellFormed ∧
    (Pseudo.cmpgti 6 7 (-32769)).WellFormed ∧ (Pseudo.cmpgti 6 7 32766).WellFormed ∧
    (Pseudo.cmpgtui 6 7 0).WellFormed ∧ (Pseudo.cmpgtui 6 7 65534).WellFormed ∧
    (Pseudo.cmplei 6 7 (-32769)).WellFormed ∧ (Pseudo.cmplei 6 7 32766).WellFormed ∧
    (Pseudo.cmpleui 6 7 0).WellFormed ∧ (Pseudo.cmpleui 6 7 65534).WellFormed ∧
    (Pseudo.movhi 6 0).WellFormed ∧ (Pseudo.movhi 6 65535).WellFormed ∧ (Pseudo.movi 6 (-32768)).WellFormed ∧
    (Pseudo.movi 6 32767).WellFormed ∧ (Pseudo.movui 6 0).WellFormed ∧ (Pseudo.movui 6 65535).WellFormed ∧
    (Pseudo.subi 6 7 (-32767)).WellFormed ∧ (Pseudo.subi 6 7 32768).WellFormed := by
  unfold Writable; decide

theorem test_witness_PseudoBranches :
    let s := withRegs [(6, 5#32), (7, 5#32), (8, 6#32)]
    0x1000#32 = BitVec.ofInt 32 ((s.pc.toNat : Int) + 4 + (0xFFFC#16).toInt) ∧ Instr.blt 7 6 0xFFFC ∈ expand (.bgt 6 7 0xFFFC) ∧
    (s.reg 6).toInt < (s.reg 8).toInt ∧ ¬ (s.reg 6).toInt < (s.reg 7).toInt ∧ (s.reg 6).toNat ≤ (s.reg 7).toNat ∧
    ¬ (s.reg 8).toNat ≤ (s.reg 6).toNat ∧ s.crs = 0 := by decide

theorem test_witness_MoviaLoadsLabel : Writable 31#5 State.reset ∧ State.reset.reg 0#5 = 0#32 := by
  unfold Writable; decide

end Sys2Proof.Tests
end

section
/-! The family 00_scope: the configuration record is constant (00_scope.md R6). What an instruction did and what a step
answered are taken from `exec_next` and `step_next`; here only the configuration is followed through their cases. -/

namespace Sys2Proof.Machine

variable {i : Instr} {s t u : State}

@[simp] theorem takeException_cfg (e : Exception) (s : State) : (takeException e s).cfg = s.cfg := by
  simp [takeException]

@[simp] theorem takeBreak_cfg (s : State) : (takeBreak s).cfg = s.cfg := by
  simp [takeBreak]

theorem writeCtl_cfg {n : Imm5} {value : Word} (h : s.writeCtl n value = some u) : u.cfg = s.cfg := by
  unfold State.writeCtl at h
  split_ifs at h <;> cases h <;> rfl

/-- Whatever an instruction did, it kept the configuration: the cases through memory and the caches are `Quiet`, the rest
are updates of other fields. -/
theorem Did.cfg_eq (h : Did i s t) : t.cfg = s.cfg := by
  cases h with
  | loaded _ _ _ _ _ _ _ _ _ _ _ _ access _ after => subst after; simpa using (quiet_memRead access).cfg
  | stored _ _ _ _ _ _ _ _ _ access after => subst after; exact (quiet_memWrite access).cfg
  | flushedIndex _ _ _ after => subst after; exact (quiet_flushIndex _ _).cfg
  | flushedAddress _ _ _ _ _ after => subst after; exact (quiet_flushAddress _ _).cfg
  | initIndex _ after => subst after; exact (quiet_initIndex _ _).cfg
  | initAddress _ after => subst after; exact (quiet_initAddress _ _).cfg
  | invalidated _ after => subst after; exact (quiet_invalidateInstruction _ _).cfg
  | wroteControl _ _ _ _ access after => subst after; simpa using writeCtl_cfg access
  | _ => subst_vars; simp

/-- Settles O52: an entry keeps the configuration, and an instruction keeps that of the state its fetch left, which is the
configuration the step began with. -/
theorem configurationConstant : Obligations.ConfigurationConstant := by
  intro s t h
  rcases step_next h with ⟨-, rfl⟩ | ⟨e, -, rfl⟩ | ⟨pa, i, u, -, did, rfl⟩ | ⟨pa, -, rfl⟩
  · exact takeException_cfg .interrupt s.begin
  · exact takeException_cfg e s.begin
  · calc (s.begin.unfilledIfRaised u).cfg
        _ = u.cfg := by simp
        _ = (s.begin.fetchAccess pa).cfg := did.cfg_eq
        _ = s.begin.cfg := (quiet_fetchAccess s.begin pa).cfg
        _ = s.cfg := s.begin_cfg
  · exact takeException_cfg .illegalInstruction _

end Sys2Proof.Machine
end

section
/-! The family 10_state: which registers an instruction changes, r0 of the register sets, the canonical form and the
architectural invariant kept by every step, and the state after reset. What an instruction did and what a step answered
are taken from `exec_next` and `step_next`; each invariant is first shown kept by the updates of the state. -/

namespace Sys2Proof.Machine

variable {i : Instr} {s t u : State}

/-! ## Facts the invariants share -/

/-- All that a write of a control register can leave: one of the three changed, within the write mask (R45). -/
theorem writeCtl_cases {n : Imm5} {value : Word} (h : s.writeCtl n value = some u) :
    u = { s with status := value &&& writableBits s.cfg } ∨ u = { s with estatus := value &&& writableBits s.cfg } ∨
      u = { s with bstatus := value &&& writableBits s.cfg } := by
  unfold State.writeCtl at h
  split_ifs at h <;> cases h
  · exact .inl rfl
  · exact .inr (.inl rfl)
  · exact .inr (.inr rfl)

theorem stageAfterWriteBack_ne_fetchable (c : Config) : stageAfterWriteBack c ≠ .fetchable := by
  unfold stageAfterWriteBack
  split <;> decide

theorem quiet_flushHazard (s : State) : Quiet s s.flushHazard :=
  ⟨rfl, rfl, rfl, rfl, rfl, rfl, rfl, rfl, rfl, rfl, fun _ => rfl⟩

/-- Without in-order memory the pending accesses are no part of what `Quiet` keeps. -/
theorem quiet_completePending (h : s.cfg.inOrderMemory = false) : Quiet s s.completePending :=
  ⟨rfl, rfl, rfl, rfl, rfl, rfl, rfl, rfl, rfl, rfl, fun hio => absurd hio (by simp [h])⟩

/-! ## The register frame (R31, R32, R36) -/

section RegisterFrame

variable {set k : Nat} {r x : Reg} {v : Word}

/-- A register that reads differently after a write is the one written. -/
theorem RegisterBecomes.of_changed (h : RegisterBecomes k r v s t) (hne : t.regOf set x ≠ s.regOf set x) :
    set = k ∧ x = r := by
  by_contra hother
  exact hne (h.other (by tauto))

/-- The same for a write of the current set, after updates that left the registers and the set alone. -/
theorem changed_of_setReg (hregs : u.regs = s.regs) (hcrs : u.crs = s.crs)
    (hne : (u.setReg r v).advance.regOf set x ≠ s.regOf set x) : set = s.crs ∧ x = r := by
  have written : RegisterBecomes u.crs r v s (u.setReg r v).advance :=
    ((setRegOf_becomes u u.crs r v).of_regs_eq rfl).of_base (SameRegisters.of_regs_eq hregs)
  rw [← hcrs]
  exact written.of_changed hne

/-- A register that an instruction changed, by what the instruction did. -/
theorem Did.changed_register (h : Did i s t) (hne : t.regOf set x ≠ s.regOf set x) :
    (set = s.crs ∧ destination i = some x) ∨ (set = s.prs ∧ ∃ a, i = .wrprs x a) ∨
    (set = s.crs ∧ x = 31#5 ∧ ((∃ imm, i = .call imm) ∨ ∃ a, i = .callr a)) ∨
    (set = s.crs ∧ x = 30#5 ∧ ∃ n, i = .brk n) ∨ (x = 29#5 ∧ ∃ e, EntersException e s t) := by
  have kept (hregs : t.regs = s.regs) : False := hne (SameRegisters.of_regs_eq hregs set x)
  have named (r : Reg) (hd : destination i = some r) (hx : set = s.crs ∧ x = r) :
      set = s.crs ∧ destination i = some x :=
    ⟨hx.1, hx.2 ▸ hd⟩
  cases h with
  | raised e entry _ =>
    subst entry
    have enters := takeException_enters e s
    have ⟨_, _, _, _, _, ⟨_, _, becomes⟩, _⟩ := enters
    exact .inr (.inr (.inr (.inr ⟨(becomes.of_changed hne).2, e, enters⟩)))
  | broke n instr entry =>
    subst entry
    obtain ⟨-, -, becomes, -⟩ := takeBreak_enters s
    obtain ⟨hset, hx⟩ := becomes.of_changed hne
    exact .inr (.inr (.inr (.inl ⟨hset, hx, n, instr⟩)))
  | wrote r v names _ after => subst after; exact .inl (named r names (changed_of_setReg rfl rfl hne))
  | drew r names _ after => subst after; exact .inl (named r names (changed_of_setReg (u := s.drawn) rfl rfl hne))
  | customWrote n state r v names _ after =>
    subst after
    exact .inl (named r names (changed_of_setReg (u := s.setCustomState n state) rfl rfl hne))
  | loaded _ _ _ _ r _ _ v answer _ _ names access _ after =>
    subst after
    have quiet := quiet_memRead access
    exact .inl (named r names (changed_of_setReg quiet.regs quiet.crs hne))
  | called target _ instr after =>
    subst after
    obtain ⟨hset, hx⟩ := ((setRegOf_becomes s s.crs raReg (s.pc + 4#32)).of_regs_eq rfl).of_changed hne
    exact .inr (.inr (.inl ⟨hset, hx, instr⟩))
  | wrotePrevious c a instr _ _ after =>
    subst after
    obtain ⟨hset, rfl⟩ := ((setRegOf_becomes s s.prs c (s.reg a)).of_regs_eq rfl).of_changed hne
    exact .inr (.inl ⟨hset, a, instr⟩)
  | stored _ _ _ _ _ _ _ _ _ access after => subst after; exact (kept (quiet_memWrite access).regs).elim
  | flushedIndex _ _ _ after => subst after; exact (kept (quiet_flushIndex _ _).regs).elim
  | flushedAddress _ _ _ _ _ after => subst after; exact (kept (quiet_flushAddress _ _).regs).elim
  | initIndex _ after => subst after; exact (kept (quiet_initIndex _ _).regs).elim
  | initAddress _ after => subst after; exact (kept (quiet_initAddress _ _).regs).elim
  | invalidated _ after => subst after; exact (kept (quiet_invalidateInstruction _ _).regs).elim
  | wroteControl _ _ _ _ access after =>
    subst after
    rcases writeCtl_cases access with rfl | rfl | rfl <;> exact (kept rfl).elim
  | went _ _ after | advanced after | flushedPipeline after | synced _ after | returned _ _ after
  | returnedFromBreak _ _ after | customRan _ _ after => subst after; exact (kept rfl).elim

end RegisterFrame

/-- Settles O50, by what the instruction did. -/
theorem registerFrame : Obligations.RegisterFrame :=
  fun _ _ _ h _ _ hne => (exec_next h).changed_register hne

/-! ## The canonical form (log 9) -/

theorem canonical_flushIndex (a : Word) (h : s.Canonical) : (s.flushIndex a).Canonical := by
  unfold State.flushIndex
  split
  · exact canonical_moveHazard _ _ (stageAfterWriteBack_ne_fetchable _) (canonical_flushDline _ h)
  · exact h

theorem canonical_flushAddress (a : Word) (h : s.Canonical) : (s.flushAddress a).Canonical := by
  unfold State.flushAddress
  split
  · refine canonical_moveHazard _ _ (stageAfterWriteBack_ne_fetchable _) ?_
    split
    · exact canonical_flushDline _ h
    · exact h
  · exact h

theorem canonical_initIndex (a : Word) (h : s.Canonical) : (s.initIndex a).Canonical := by
  unfold State.initIndex
  split
  · exact canonical_invalidateDline _ h
  · exact h

theorem canonical_initAddress (a : Word) (h : s.Canonical) : (s.initAddress a).Canonical := by
  unfold State.initAddress
  split
  · exact canonical_invalidateDline _ h
  · exact h

theorem canonical_invalidateInstruction (a : Word) (h : s.Canonical) : (s.invalidateInstruction a).Canonical := by
  unfold State.invalidateInstruction
  split
  · exact canonical_moveHazard _ _ (by decide) (canonical_setIline _ _ h)
  · exact h

theorem canonical_advance (h : s.Canonical) : s.advance.Canonical := canonical_goto _ h

theorem canonical_setReg (r : Reg) (v : Word) (h : s.Canonical) : (s.setReg r v).Canonical := canonical_setRegOf _ r v h

theorem canonical_writeCtl {n : Imm5} {value : Word} (hs : s.Canonical) (h : s.writeCtl n value = some u) :
    u.Canonical := by
  rcases writeCtl_cases h with rfl | rfl | rfl <;> exact hs

/-- Whatever an instruction did, it kept the canonical form. -/
theorem Did.canonical (h : Did i s t) (hs : s.Canonical) : t.Canonical := by
  cases h with
  | raised e entry _ => subst entry; exact canonical_takeException e hs
  | broke _ _ entry => subst entry; exact canonical_takeBreak hs
  | wrote r v _ _ after => subst after; exact canonical_advance (canonical_setReg r v hs)
  | drew r _ _ after => subst after; exact canonical_advance (canonical_setReg r _ (canonical_drawn hs))
  | called target _ _ after => subst after; exact canonical_goto target (canonical_setReg _ _ hs)
  | loaded _ _ _ _ r _ _ v answer _ _ _ access _ after =>
    subst after
    exact canonical_advance (canonical_setReg r v (canonical_memRead hs access))
  | stored _ _ _ _ _ _ _ _ _ access after => subst after; exact canonical_advance (canonical_memWrite hs access)
  | flushedIndex _ _ _ after => subst after; exact canonical_advance (canonical_flushIndex _ hs)
  | flushedAddress _ _ _ _ _ after => subst after; exact canonical_advance (canonical_flushAddress _ hs)
  | initIndex _ after => subst after; exact canonical_advance (canonical_initIndex _ hs)
  | initAddress _ after => subst after; exact canonical_advance (canonical_initAddress _ hs)
  | invalidated _ after => subst after; exact canonical_advance (canonical_invalidateInstruction _ hs)
  | flushedPipeline after => subst after; exact canonical_advance (canonical_flushHazard hs)
  | wroteControl _ _ _ _ access after => subst after; exact canonical_advance (canonical_writeCtl hs access)
  | wrotePrevious c a _ _ _ after => subst after; exact canonical_advance (canonical_setRegOf _ c _ hs)
  | customWrote n state r v _ _ after =>
    subst after
    exact canonical_advance (canonical_setReg r v (canonical_setCustomState n state hs))
  | customRan n state after => subst after; exact canonical_advance (canonical_setCustomState n state hs)
  | went _ _ after | advanced after | synced _ after | returned _ _ after | returnedFromBreak _ _ after =>
    subst after
    exact hs

/-- Settles O53: the updates of `begin` touch no table, and the fetch, the instruction and taking back the fill of the
fetch keep the form of each. -/
theorem stepKeepsCanonical : Obligations.StepKeepsCanonical := by
  intro s t hs h
  have hbegin : s.begin.Canonical := hs
  rcases step_next h with ⟨-, rfl⟩ | ⟨e, -, rfl⟩ | ⟨pa, i, u, -, did, rfl⟩ | ⟨pa, -, rfl⟩
  · exact canonical_takeException .interrupt hbegin
  · exact canonical_takeException e hbegin
  · exact canonical_unfilledIfRaised hbegin (did.canonical (canonical_fetchAccess pa hbegin))
  · exact canonical_takeException .illegalInstruction hs

/-! ## The architectural invariant (R35, R37, R45, R87) -/

theorem aligned4_add_four {w : Word} (h : Word.Aligned4 w) : Word.Aligned4 (w + 4#32) := by
  rw [aligned4_iff_dvd] at h ⊢
  simp only [BitVec.toNat_add, BitVec.toNat_ofNat]
  omega

/-- A word inside a mask stays there when more bits are cleared. -/
theorem and_inside_mask {w m : Word} (c : Word) (h : w &&& ~~~m = 0#32) : (w &&& c) &&& ~~~m = 0#32 := by
  rw [BitVec.and_assoc, BitVec.and_comm c, ← BitVec.and_assoc, h, BitVec.zero_and]

theorem and_mask_inside (w m : Word) : (w &&& m) &&& ~~~m = 0#32 := by
  simp [BitVec.and_assoc]

theorem nextCrs_le (event : CrsEvent) (h : s.crs ≤ s.cfg.numShadow) : s.nextCrs event ≤ s.cfg.numShadow := by
  rcases nextCrs_cases s event with heq | ⟨-, hle⟩
  · exact heq ▸ h
  · exact hle

theorem entryCrs_le (e : Exception) (h : s.crs ≤ s.cfg.numShadow) : s.entryCrs e ≤ s.cfg.numShadow := by
  rcases entryCrs_cases s e with heq | ⟨-, -, hle⟩
  · exact heq ▸ h
  · exact hle

theorem eaSet_le (e : Exception) (h : s.crs ≤ s.cfg.numShadow) : s.eaSet e ≤ s.cfg.numShadow := by
  rcases eaSet_cases s e with heq | ⟨-, -, hle⟩
  · exact heq ▸ h
  · exact hle

theorem aligned_handlerAddr {c : Config} (e : Exception) (h : Word.Aligned4 c.exceptionAddr) :
    Word.Aligned4 (handlerAddr c e) := by
  have haddr := handlerAddr_cases c e
  split at haddr
  · exact haddr
  · exact haddr ▸ h

theorem Quiet.inv (q : Quiet s u) (h : s.Inv) : u.Inv := by
  obtain ⟨wf, pc, crs, status, estatus, bstatus, regs, pending⟩ := h
  unfold State.Inv
  rw [q.cfg, q.pc, q.crs, q.status, q.estatus, q.bstatus, q.regs]
  exact ⟨wf, pc, crs, status, estatus, bstatus, regs, fun hio => (q.pending hio).trans (pending hio)⟩

theorem inv_goto {target : Word} (ha : Word.Aligned4 target) (h : s.Inv) : (s.goto target).Inv := by
  obtain ⟨wf, -, others⟩ := h
  exact ⟨wf, ha, others⟩

theorem inv_advance (h : s.Inv) : s.advance.Inv := by
  have ⟨_, aligned, _⟩ := h
  exact inv_goto (aligned4_add_four aligned) h

/-- A write of a register keeps the invariant where the set exists; r0 of set 0 is not stored. -/
theorem inv_setRegOf {k : Nat} (r : Reg) (v : Word) (hk : k ≤ s.cfg.numShadow) (h : s.Inv) :
    (s.setRegOf k r v).Inv := by
  unfold State.setRegOf
  split
  · exact h
  · next hr0 =>
    obtain ⟨wf, pc, crs, status, estatus, bstatus, regs, pending⟩ := h
    refine ⟨wf, pc, crs, status, estatus, bstatus, fun entry hentry => ?_, pending⟩
    rcases Sparse.mem_set hentry with rfl | hold
    · have hlt := r.isLt
      have hpos : r = 0#5 ↔ r.toNat = 0 := by simp [← BitVec.toNat_inj]
      rw [hpos] at hr0
      simp only [regKey]
      omega
    · exact regs entry hold

theorem inv_setReg (r : Reg) (v : Word) (h : s.Inv) : (s.setReg r v).Inv := by
  have ⟨_, _, crs, _⟩ := h
  exact inv_setRegOf r v crs h

theorem inv_setCustomState (n : BitVec 8) (state : List Word) (h : s.Inv) : (s.setCustomState n state).Inv := h

theorem inv_writeCtl {n : Imm5} {value : Word} (hs : s.Inv) (h : s.writeCtl n value = some u) : u.Inv := by
  obtain ⟨wf, pc, crs, status, estatus, bstatus, others⟩ := hs
  rcases writeCtl_cases h with rfl | rfl | rfl
  · exact ⟨wf, pc, crs, and_mask_inside _ _, estatus, bstatus, others⟩
  · exact ⟨wf, pc, crs, status, and_mask_inside _ _, bstatus, others⟩
  · exact ⟨wf, pc, crs, status, estatus, and_mask_inside _ _, others⟩

theorem inv_takeException (e : Exception) (h : s.Inv) : (takeException e s).Inv := by
  obtain ⟨wf, pc, crs, status, -, bstatus, others⟩ := h
  have ⟨exceptionAddr, _⟩ := wf
  refine inv_goto (aligned_handlerAddr e exceptionAddr) (inv_setRegOf _ _ (eaSet_le e crs) ?_)
  exact ⟨wf, pc, entryCrs_le e crs, and_inside_mask _ status, status, bstatus, others⟩

theorem inv_takeBreak (h : s.Inv) : (takeBreak s).Inv := by
  obtain ⟨wf, pc, crs, status, estatus, -, others⟩ := h
  have ⟨_, breakAddr, _⟩ := wf
  refine inv_goto breakAddr (inv_setReg _ _ ?_)
  exact ⟨wf, pc, crs, and_inside_mask _ status, estatus, status, others⟩

/-- Whatever an instruction did, it kept the invariant. -/
theorem Did.inv (h : Did i s t) (hs : s.Inv) : t.Inv := by
  have ⟨wf, _, crs, _, estatus, bstatus, others⟩ := hs
  cases h with
  | raised e entry _ => subst entry; exact inv_takeException e hs
  | broke _ _ entry => subst entry; exact inv_takeBreak hs
  | wrote r v _ _ after => subst after; exact inv_advance (inv_setReg r v hs)
  | drew r _ _ after => subst after; exact inv_advance (inv_setReg r _ ((quiet_drawn s).inv hs))
  | went _ aligned after => subst after; exact inv_goto aligned hs
  | advanced after => subst after; exact inv_advance hs
  | called _ aligned _ after => subst after; exact inv_goto aligned (inv_setReg _ _ hs)
  | loaded _ _ _ _ r _ _ v answer _ _ _ access _ after =>
    subst after
    exact inv_advance (inv_setReg r v ((quiet_memRead access).inv hs))
  | stored _ _ _ _ _ _ _ _ _ access after => subst after; exact inv_advance ((quiet_memWrite access).inv hs)
  | flushedIndex _ _ _ after => subst after; exact inv_advance ((quiet_flushIndex _ _).inv hs)
  | flushedAddress _ _ _ _ _ after => subst after; exact inv_advance ((quiet_flushAddress _ _).inv hs)
  | initIndex _ after => subst after; exact inv_advance ((quiet_initIndex _ _).inv hs)
  | initAddress _ after => subst after; exact inv_advance ((quiet_initAddress _ _).inv hs)
  | invalidated _ after => subst after; exact inv_advance ((quiet_invalidateInstruction _ _).inv hs)
  | flushedPipeline after => subst after; exact inv_advance ((quiet_flushHazard s).inv hs)
  | synced pending after => subst after; exact inv_advance ((quiet_completePending pending).inv hs)
  | returned _ aligned after =>
    subst after
    exact ⟨wf, aligned, nextCrs_le _ crs, estatus, estatus, bstatus, others⟩
  | returnedFromBreak _ aligned after => subst after; exact ⟨wf, aligned, crs, bstatus, estatus, bstatus, others⟩
  | wroteControl _ _ _ _ access after => subst after; exact inv_advance (inv_writeCtl hs access)
  | wrotePrevious c a _ _ set after => subst after; exact inv_advance (inv_setRegOf c _ set hs)
  | customWrote n state r v _ _ after =>
    subst after
    exact inv_advance (inv_setReg r v (inv_setCustomState n state hs))
  | customRan n state after => subst after; exact inv_advance (inv_setCustomState n state hs)

/-- Taking back the fill of a fetch touches nothing the invariant speaks of. -/
theorem inv_unfilledIfRaised (h : t.Inv) : (s.unfilledIfRaised t).Inv := by
  unfold State.unfilledIfRaised
  split <;> exact h

/-- Settles O54: `begin` and a free value drawn touch nothing the invariant speaks of, and the fetch, the instruction and
every entry keep it. -/
theorem stepKeepsInv : Obligations.StepKeepsInv := by
  intro s t hs h
  have hbegin : s.begin.Inv := hs
  rcases step_next h with ⟨-, rfl⟩ | ⟨e, -, rfl⟩ | ⟨pa, i, u, -, did, rfl⟩ | ⟨pa, -, rfl⟩
  · exact inv_takeException .interrupt hbegin
  · exact inv_takeException e hbegin
  · exact inv_unfilledIfRaised (did.inv ((quiet_fetchAccess s.begin pa).inv hbegin))
  · exact inv_takeException .illegalInstruction hs

/-! ## r0 (R33) -/

section PlainWrites

variable {r : Reg}

/-- What `t` shows of an instruction that names `r` as its destination: the entry of an exception, or that the write to
`r` had a meaning. -/
def EntersOrWrites (r : Reg) (s t : State) : Prop := (∃ e, EntersException e s t) ∨ Writable r s

theorem EntersOrWrites.of_entry {e : Exception} (h : t = takeException e s) : EntersOrWrites r s t :=
  .inl ⟨e, h ▸ takeException_enters e s⟩

/-- `hcrs` lets the write come after updates that left the register set alone. -/
theorem EntersOrWrites.of_writeReg {v : Word} (hcrs : u.crs = s.crs) (h : writeReg r v u = .next t) :
    EntersOrWrites r s t := by
  obtain ⟨writable, -⟩ := writeReg_next h
  exact .inr (by rwa [Writable, hcrs] at writable)

theorem EntersOrWrites.of_optional {implemented : Bool} {effect : Result}
    (h : optionalInstr implemented s effect = .next t) (k : effect = .next t → EntersOrWrites r s t) :
    EntersOrWrites r s t := by
  rcases optionalInstr_next h with ⟨-, entry⟩ | ⟨-, he⟩
  · exact .of_entry entry
  · exact k he

theorem EntersOrWrites.of_supervisor {effect : Result} (h : supervisorOnly s effect = .next t)
    (k : effect = .next t → EntersOrWrites r s t) : EntersOrWrites r s t := by
  rcases supervisorOnly_next h with ⟨-, entry⟩ | ⟨-, he⟩
  · exact .of_entry entry
  · exact k he

theorem EntersOrWrites.of_undefinedQuotient (h : undefinedQuotient r s = .next t) : EntersOrWrites r s t := by
  unfold undefinedQuotient at h
  split at h
  · exact .inl ⟨_, raise_next h⟩
  · exact .of_writeReg (State.drawn_crs s) h

theorem EntersOrWrites.of_load {a : Reg} {path : Path} {w : Width} {extend : Word → Word} {imm : Imm16}
    (h : loadInto r path w extend a imm s = .next t) : EntersOrWrites r s t := by
  rcases loadInto_next h with ⟨_, access, hw⟩ | ⟨_, entry⟩
  · exact .of_writeReg (quiet_memRead access).crs hw
  · exact .of_entry entry

theorem EntersOrWrites.of_previousSet {effect : Result} (h : withPreviousSet s effect = .next t)
    (k : effect = .next t → EntersOrWrites r s t) : EntersOrWrites r s t := by
  refine .of_supervisor h fun he => ?_
  split_ifs at he
  · exact .inl ⟨_, raise_next he⟩
  · exact k he

/-- An instruction with a destination answers a next state only by an exception's entry or where it may write it. -/
theorem exec_entersOrWrites (hd : destination i = some r) (h : exec i s = .next t) : EntersOrWrites r s t := by
  cases i with
  | add c a b | sub c a b | and c a b | or c a b | xor c a b | nor c a b | cmpeq c a b | cmpne c a b | cmpge c a b
  | cmpgeu c a b | cmplt c a b | cmpltu c a b | rol c a b | ror c a b | sll c a b | sra c a b | srl c a b
  | addi b a imm | andi b a imm | andhi b a imm | ori b a imm | orhi b a imm | xori b a imm | xorhi b a imm
  | cmpeqi b a imm | cmpnei b a imm | cmpgei b a imm | cmpgeui b a imm | cmplti b a imm | cmpltui b a imm
  | roli c a n | slli c a n | srai c a n | srli c a n | nextpc c =>
    cases hd
    exact .of_writeReg rfl h
  | mul c a b | mulxss c a b | mulxsu c a b | mulxuu c a b | muli b a imm =>
    cases hd
    exact .of_optional h (.of_writeReg rfl)
  | div c a b | divu c a b =>
    cases hd
    refine .of_optional h fun he => ?_
    split at he
    · exact .of_undefinedQuotient he
    · exact .of_writeReg rfl he
  | ldb b imm a | ldbio b imm a | ldbu b imm a | ldbuio b imm a | ldh b imm a | ldhio b imm a | ldhu b imm a
  | ldhuio b imm a | ldw b imm a | ldwio b imm a =>
    cases hd
    exact .of_load h
  | rdctl c n =>
    cases hd
    refine .of_supervisor h fun he => ?_
    split at he
    · exact .of_writeReg rfl he
    · cases he
  | rdprs b a imm =>
    cases hd
    exact .of_previousSet h (.of_writeReg rfl)
  | custom n c a b readra readrb writerc =>
    cases writerc <;> cases hd
    change (match s.cfg.custom.lookup n with | none => _ | some f => _) = _ at h
    split at h
    · exact .of_entry (reservedEncoding_next h)
    · exact .of_writeReg (State.setCustomState_crs s n _) h
  | _ => cases hd

end PlainWrites

/-- Settles O10: with a shadow set current r0 is not writable, so what names it enters an exception, and a plain register
write stops. -/
theorem shadowR0NeverWritten : Obligations.ShadowR0NeverWritten := by
  intro s hs
  have notWritable : ¬ Writable 0#5 s := by simp [Writable, hs]
  refine ⟨fun i t hd h => (exec_entersOrWrites hd h).resolve_right notWritable, fun a b imm n i hi => ?_⟩
  have stops (v : Word) : writeReg 0#5 v s = .fault .writeR0InShadowSet := writeReg_not_writable notWritable
  fin_cases hi <;> exact stops _

theorem regOf_zero (s : State) : s.regOf 0 0#5 = 0#32 := if_pos ⟨rfl, rfl⟩

theorem setRegOf_zero (s : State) (v : Word) : s.setRegOf 0 0#5 v = s := if_pos ⟨rfl, rfl⟩

/-- Settles O9: the two special cases of r0 of set 0, and the general rule of a read after a write for any other set. -/
theorem registerZero : Obligations.RegisterZero := by
  intro s v
  refine ⟨regOf_zero s, setRegOf_zero s v, fun set hset => ?_⟩
  exact (setRegOf_becomes s set 0#5 v).same (fun h => hset h.1)

/-! ## Reset (R52, R391) -/

theorem canonical_resetOf (c : Config) : (State.resetOf c).Canonical :=
  ⟨Sparse.canonical_nil, wf_resetOf_mem c, Sparse.canonical_nil, Sparse.canonical_nil, Sparse.canonical_nil,
    Sparse.canonical_nil, Sparse.canonical_nil, Sparse.canonical_nil⟩

theorem inv_resetOf {c : Config} (h : c.WellFormed) : (State.resetOf c).Inv := by
  have ⟨_, _, resetAddr, _⟩ := h
  exact ⟨h, resetAddr, Nat.zero_le _, BitVec.zero_and, BitVec.zero_and, BitVec.zero_and, by simp [State.resetOf],
    fun _ => rfl⟩

/-- After reset no data-cache line is valid, so the cache is sound. -/
theorem dcacheSound_resetOf (c : Config) : DcacheSound (State.resetOf c) := by
  have invalid (line : Nat) : ((State.resetOf c).dline line).valid = false := rfl
  refine ⟨fun line _ valid => ?_, fun a hit => ?_⟩
  · simp [invalid] at valid
  · simp [State.dcacheHit, invalid] at hit

/-- Settles O56: the default configuration is well-formed, and every well-formed one resets so. -/
theorem resetMeetsInvariants : Obligations.ResetMeetsInvariants :=
  ⟨canonical_resetOf _, inv_resetOf (by decide), dcacheSound_resetOf _⟩

/-- Settles O57: the fields are those `resetOf` gives, and a `status` of 0 has neither PIE nor U. -/
theorem resetValues : Obligations.ResetValues := by
  intro c
  refine ⟨rfl, rfl, rfl, regOf_zero (State.resetOf c), rfl, rfl, ?_, ?_⟩
  · simp [State.userMode, userOf, State.resetOf]
  · simp [pieOf, State.resetOf]

end Sys2Proof.Machine
end

section
/-! The family 20_memory: the data cache kept sound by every step, loads and stores past and through the data cache, the
accesses that stop, the sequence that makes a stored word fetchable, which bytes of memory an instruction changes, and the
step itself. A store is followed byte by byte through `writeValue`; what a plain access does on its way is taken from
`plainAccess_cases`, and what an instruction did and what a step answered from `exec_next` and `step_next`. -/

namespace Sys2Proof.Machine

variable {i : Instr} {s t u : State} {con : Reg → Imm16 → Reg → Instr} {path : Path} {w : Width} {signed : Bool}
  {b a : Reg} {imm : Imm16} {ea pa x v : Word} {kind : AccessKind} {r : Region} {n : Nat} {post : State → Prop}

/-! ## Bytes written one by one (R72, R77) -/

/-- A store ends with the write of one of its bytes, in a state that has what each of its writes keeps. -/
theorem writeValue_last {put : State → Word → Byte → State} {P : State → Prop} (w : Width) (pa v : Word) (s : State)
    (law : ∀ (u : State) (x : Word) (byte : Byte), (x - pa).toNat < widthBytes w → P u → P (put u x byte)) (h : P s) :
    ∃ u x byte, (x - pa).toNat < widthBytes w ∧ P u ∧ writeValue put w pa v s = put u x byte := by
  have h0 (hw : 0 < widthBytes w) : (pa - pa).toNat < widthBytes w := by simpa using hw
  have h1 (hw : 1 < widthBytes w) : (pa + 1#32 - pa).toNat < widthBytes w := by bv_omega
  have h2 (hw : 2 < widthBytes w) : (pa + 2#32 - pa).toNat < widthBytes w := by bv_omega
  have h3 (hw : 3 < widthBytes w) : (pa + 3#32 - pa).toNat < widthBytes w := by bv_omega
  cases w with
  | byte => exact ⟨s, pa, _, h0 (by decide), h, rfl⟩
  | half => exact ⟨_, pa + 1#32, _, h1 (by decide), law _ _ _ (h0 (by decide)) h, rfl⟩
  | word =>
    exact ⟨_, pa + 3#32, _, h3 (by decide),
      law _ _ _ (h2 (by decide)) (law _ _ _ (h1 (by decide)) (law _ _ _ (h0 (by decide)) h)), rfl⟩

/-- What the write of each of its bytes keeps, a store keeps. -/
theorem writeValue_keeps_within {put : State → Word → Byte → State} {P : State → Prop} (w : Width) (pa v : Word)
    (s : State)
    (law : ∀ (u : State) (x : Word) (byte : Byte), (x - pa).toNat < widthBytes w → P u → P (put u x byte)) (h : P s) :
    P (writeValue put w pa v s) := by
  obtain ⟨u, x, byte, hx, hu, he⟩ := writeValue_last w pa v s law h
  exact he ▸ law u x byte hx hu

theorem writeValue_storeByte_of_no_dcache (h : s.cfg.hasDcache = false) :
    writeValue State.storeByte w pa v s = writeValue State.setMemByte w pa v s := by
  have direct (u : State) (hu : u.cfg.hasDcache = false) (x : Word) (byte : Byte) :
      u.storeByte x byte = u.setMemByte x byte :=
    storeByte_miss (dcacheHit_of_no_dcache hu)
  cases w <;> simp [writeValue, direct, h]

/-! ## Stores keep the data cache sound (R84, R85) -/

theorem mem_storeByte_hit {byte : Byte} (h : s.dcacheHit x = true) : (s.storeByte x byte).mem = s.mem := by
  rw [storeByte_hit h]
  rfl

theorem dirty_storeByte_hit {byte : Byte} (h : s.dcacheHit x = true) :
    ((s.storeByte x byte).dline (dlineOf s.cfg x.toNat)).dirty = true := by
  rw [storeByte_hit h, dline_setDline, if_pos rfl]

/-- A line that is clean after a plain store of a byte is not the byte's own, if that is cached, and was clean before. -/
theorem clean_of_clean_storeByte {byte : Byte} {line : Nat} (h : ((s.storeByte x byte).dline line).dirty = false) :
    (s.dcacheHit x = true → line ≠ dlineOf s.cfg x.toNat) ∧ (s.dline line).dirty = false := by
  cases hx : s.dcacheHit x
  · rw [storeByte_miss hx] at h
    exact ⟨(nomatch ·), h⟩
  · rw [storeByte_hit hx, dline_setDline] at h
    split at h
    · cases h
    · next hl => exact ⟨fun _ => hl, h⟩

/-- A byte stored on the plain path keeps the cache sound: on a hit its line is dirty, on a miss no line holds it. -/
theorem sound_storeByte {byte : Byte} (h : DcacheSound s) : DcacheSound (s.storeByte x byte) := by
  obtain ⟨tags, coherent⟩ := h
  refine ⟨fun line hline hvalid => ?_, fun y hit clean => ?_⟩
  · rw [storeByte_cfg] at hline ⊢
    rw [(dline_storeByte line).1] at hvalid
    rw [(dline_storeByte line).2]
    exact tags line hline hvalid
  · rw [dcacheHit_storeByte] at hit
    rw [storeByte_cfg] at clean
    obtain ⟨otherLine, clean⟩ := clean_of_clean_storeByte clean
    have hyx : y ≠ x := by
      rintro rfl
      exact otherLine hit rfl
    have hmem : (s.storeByte x byte).memByte y = s.memByte y := by
      cases hx : s.dcacheHit x
      · rw [storeByte_miss hx, memByte_setMemByte, if_neg hyx]
      · exact memByte_of_mem_eq (mem_storeByte_hit hx)
    rw [byteAt_storeByte, if_neg hyx, hmem]
    exact coherent y hit clean

/-- A store past the cache keeps it sound where no byte stored is cached. -/
theorem sound_store_past_cache (h : DcacheSound s)
    (uncached : ∀ x : Word, (x - pa).toNat < widthBytes w → s.dcacheHit x = false) :
    DcacheSound (writeValue State.setMemByte w pa v s) := by
  have kept : DcacheSound (writeValue State.setMemByte w pa v s) ∧
      ∀ y, (writeValue State.setMemByte w pa v s).dcacheHit y = s.dcacheHit y := by
    refine writeValue_keeps_within (P := fun u => DcacheSound u ∧ ∀ y, u.dcacheHit y = s.dcacheHit y) w pa v s
      (fun u x byte hx hu => ?_) ⟨h, fun _ => rfl⟩
    obtain ⟨sound, hits⟩ := hu
    have miss : u.dcacheHit x = false := (hits x).trans (uncached x hx)
    rw [← storeByte_miss miss]
    exact ⟨sound_storeByte sound, fun y => dcacheHit_storeByte.trans (hits y)⟩
  exact kept.1

theorem sound_onBus (x : Transfer) (h : DcacheSound s) : DcacheSound (s.onBus x) :=
  h.of_eq (by simp) (by simp) (by simp) (by simp)

theorem sound_markModified (path : Path) (w : Width) (pa : Word) (h : DcacheSound s) :
    DcacheSound (s.markModified path w pa) :=
  h.of_eq rfl rfl rfl rfl

theorem sound_moveHazard (here : Nat → Bool) (before after : HazardStage) (h : DcacheSound s) :
    DcacheSound (s.moveHazard here before after) :=
  h.of_eq rfl rfl rfl rfl

theorem sound_memRead {answer : Word × State} (wf : s.cfg.WellFormed) (h : DcacheSound s)
    (access : s.memRead path w ea = .ok answer) : DcacheSound answer.2 := by
  obtain ⟨pa, r, -, -, -, ⟨-, rfl⟩ | ⟨-, -, rfl⟩ | ⟨-, -, rfl⟩⟩ := memRead_ok access
  · exact sound_onBus _ h
  · exact sound_plainAccess wf h _
  · exact sound_onBus _ h

/-- A store keeps the cache sound where its address is aligned, which it is without an MMU and an MPU. -/
theorem sound_storedState (wf : s.cfg.WellFormed) (h : DcacheSound s) (aligned : widthBytes w ∣ pa.toNat)
    (admitted : s.admitted .write path pa = .ok r) : DcacheSound (storedState s path w pa v r.peripheral) := by
  obtain ⟨-, -, -, notCached⟩ := admitted_ok.mp admitted
  unfold storedState
  cases r.peripheral with
  | true => exact sound_markModified _ _ _ (sound_onBus _ h)
  | false =>
    cases path with
    | plain =>
      refine sound_markModified _ _ _ (writeValue_keeps w pa v _ (fun _ _ _ => sound_storeByte) ?_)
      exact sound_plainAccess wf h _
    | io =>
      refine sound_markModified _ _ _ (sound_store_past_cache (sound_onBus _ h) fun y hy => ?_)
      have miss : s.dcacheHit y = false := by
        rw [dcacheHit_of_aligned aligned hy]
        simpa using notCached
      rw [onBus_eq]
      exact miss

theorem sound_memWrite (wf : s.cfg.WellFormed) (mmu : s.cfg.hasMmu = false) (mpu : s.cfg.hasMpu = false)
    (h : DcacheSound s) (access : s.memWrite path w ea v = .ok t) : DcacheSound t := by
  obtain ⟨pa, r, aligned, hp, admitted, rfl⟩ := memWrite_ok access
  rw [protectData_flat mmu mpu] at hp
  cases hp
  exact sound_storedState wf h aligned admitted

theorem sound_flushIndex (wf : s.cfg.WellFormed) (h : DcacheSound s) (x : Word) : DcacheSound (s.flushIndex x) := by
  unfold State.flushIndex
  split
  · next hc => exact sound_moveHazard _ _ _ (sound_flushDline wf h hc (dlineOf_lt _ _))
  · exact h

theorem sound_flushAddress (wf : s.cfg.WellFormed) (h : DcacheSound s) (x : Word) : DcacheSound (s.flushAddress x) := by
  unfold State.flushAddress
  split
  · next hc =>
    refine sound_moveHazard _ _ _ ?_
    split
    · exact sound_flushDline wf h hc (dlineOf_lt _ _)
    · exact h
  · exact h

theorem sound_initIndex (h : DcacheSound s) (x : Word) : DcacheSound (s.initIndex x) := by
  unfold State.initIndex
  split
  · exact sound_invalidateDline h
  · exact h

theorem sound_initAddress (h : DcacheSound s) (x : Word) : DcacheSound (s.initAddress x) := by
  unfold State.initAddress
  split
  · exact sound_invalidateDline h
  · exact h

theorem sound_invalidateInstruction (h : DcacheSound s) (x : Word) : DcacheSound (s.invalidateInstruction x) := by
  unfold State.invalidateInstruction
  split
  · exact h.of_eq rfl rfl rfl rfl
  · exact h

theorem sound_takeException (e : Exception) (h : DcacheSound s) : DcacheSound (takeException e s) :=
  h.of_eq (by simp) (by simp [takeException]) (by simp [takeException]) (by simp [takeException])

theorem sound_takeBreak (h : DcacheSound s) : DcacheSound (takeBreak s) :=
  h.of_eq (by simp) (by simp [takeBreak]) (by simp [takeBreak]) (by simp [takeBreak])

theorem sound_setRegOf (k : Nat) (r : Reg) (v : Word) (h : DcacheSound s) : DcacheSound (s.setRegOf k r v) :=
  h.of_eq (by simp) (by simp) (by simp) (by simp)

theorem sound_goto (target : Word) (h : DcacheSound s) : DcacheSound (s.goto target) := h.of_eq rfl rfl rfl rfl

theorem sound_writeCtl {n : Imm5} {value : Word} (h : DcacheSound s) (access : s.writeCtl n value = some u) :
    DcacheSound u := by
  rcases writeCtl_cases access with rfl | rfl | rfl <;> exact h.of_eq rfl rfl rfl rfl

/-- Whatever an instruction did, it kept the data cache sound. -/
theorem Did.dcacheSound (h : Did i s t) (wf : s.cfg.WellFormed) (mmu : s.cfg.hasMmu = false)
    (mpu : s.cfg.hasMpu = false) (hs : DcacheSound s) : DcacheSound t := by
  cases h with
  | raised e entry _ => subst entry; exact sound_takeException e hs
  | broke _ _ entry => subst entry; exact sound_takeBreak hs
  | loaded _ _ _ _ _ _ _ _ _ _ _ _ access _ after =>
    subst after
    exact sound_goto _ (sound_setRegOf _ _ _ (sound_memRead wf hs access))
  | stored _ _ _ _ _ _ _ _ _ access after => subst after; exact sound_goto _ (sound_memWrite wf mmu mpu hs access)
  | flushedIndex _ _ _ after => subst after; exact sound_goto _ (sound_flushIndex wf hs _)
  | flushedAddress _ _ _ _ _ after => subst after; exact sound_goto _ (sound_flushAddress wf hs _)
  | initIndex _ after => subst after; exact sound_goto _ (sound_initIndex hs _)
  | initAddress _ after => subst after; exact sound_goto _ (sound_initAddress hs _)
  | invalidated _ after => subst after; exact sound_goto _ (sound_invalidateInstruction hs _)
  | wroteControl _ _ _ _ access after => subst after; exact sound_goto _ (sound_writeCtl hs access)
  | wrote _ _ _ _ after | drew _ _ _ after | called _ _ _ after | wrotePrevious _ _ _ _ _ after
  | customWrote _ _ _ _ _ _ after =>
    subst after
    exact sound_goto _ (sound_setRegOf _ _ _ (hs.of_eq rfl rfl rfl rfl))
  | went _ _ after | advanced after | flushedPipeline after | synced _ after | returned _ _ after
  | returnedFromBreak _ _ after | customRan _ _ after => subst after; exact hs.of_eq rfl rfl rfl rfl

/-- Settles O55: the fetch touches no part of the data cache, an entry neither, and the instruction keeps it sound. -/
theorem stepKeepsDcacheSound : Obligations.StepKeepsDcacheSound := by
  intro s t wf mmu mpu hs h
  have hbegin : DcacheSound s.begin := hs.of_eq rfl rfl rfl rfl
  rcases step_next h with ⟨-, rfl⟩ | ⟨e, -, rfl⟩ | ⟨pa, i, u, -, did, rfl⟩ | ⟨pa, -, rfl⟩
  · exact sound_takeException .interrupt hbegin
  · exact sound_takeException e hbegin
  · have hfetched : DcacheSound (s.begin.fetchAccess pa) := by
      rw [fetchAccess_eq]
      exact hs.of_eq rfl rfl rfl rfl
    have hcfg : (s.begin.fetchAccess pa).cfg = s.cfg := (quiet_fetchAccess s.begin pa).cfg
    have hu : DcacheSound u := did.dcacheSound (by rwa [hcfg]) (by rwa [hcfg]) (by rwa [hcfg]) hfetched
    exact hu.of_eq (by simp) (by simp) (by simp) (by simp)
  · exact sound_takeException .illegalInstruction (hs.of_eq rfl rfl rfl rfl)

/-! ## The forms of the loads and the stores (44_load_store.md R240 to R256) -/

/-- How the load of a width extends the value it read. -/
def extendAs (signed : Bool) (w : Width) : Word → Word :=
  match signed, w with
  | true, .byte => sextByte
  | true, .half => sextHalf
  | _, _ => id

theorem exec_load (form : (con, path, w, signed) ∈ loadForms) (b : Reg) (imm : Imm16) (a : Reg) (s : State) :
    exec (con b imm a) s = loadInto b path w (extendAs signed w) a imm s := by
  fin_cases form <;> rfl

theorem exec_store (form : (con, path, w) ∈ storeForms) (b : Reg) (imm : Imm16) (a : Reg) (s : State) :
    exec (con b imm a) s = storeFrom b path w a imm s := by
  fin_cases form <;> rfl

/-- Extending the register form of a number is sign- or zero-extending the number from the access's width (R75). -/
theorem extendAs_ofNat (signed : Bool) (w : Width) (n : Nat) :
    extendAs signed w (BitVec.ofNat 32 n) = extended signed w n := by
  cases signed with
  | false => cases w <;> rfl
  | true =>
    cases w with
    | byte => simp [extendAs, extended, sextByte, BitVec.signExtend]
    | half => simp [extendAs, extended, sextHalf, BitVec.signExtend]
    | word => simp [extendAs, extended]

/-- A load whose access is made completes: the destination gets the value, extended, and `pc` moves on. -/
theorem completes_load (form : (con, path, w, signed) ∈ loadForms) (hea : ea = s.effectiveAddress a imm)
    (access : s.memRead path w ea = .ok (BitVec.ofNat 32 n, u)) (writable : Writable b s)
    (h : ∀ regs, RegisterBecomes s.crs b (extended signed w n) s { u with regs := regs, pc := s.pc + 4#32 } →
      post { u with regs := regs, pc := s.pc + 4#32 }) : Completes (con b imm a) s post := by
  subst hea
  have q : Quiet s u := quiet_memRead access
  have writableAfter : Writable b u := by rwa [Writable, q.crs]
  refine ⟨(u.setReg b (extended signed w n)).advance, ?_, ?_⟩
  · rw [exec_load form, loadInto, access]
    change writeReg b (extendAs signed w (BitVec.ofNat 32 n)) u = _
    rw [extendAs_ofNat, writeReg_of_writable writableAfter]
  · obtain ⟨heq, becomes, -⟩ := setReg_advance_writesRegister b (extended signed w n) u
    rw [q.crs] at becomes
    have becomes := becomes.of_base (u := s) (SameRegisters.of_regs_eq q.regs)
    rw [heq, q.pc] at becomes ⊢
    exact h _ becomes

/-- A store whose access is made completes: `pc` moves on from the state the access left. -/
theorem completes_store (form : (con, path, w) ∈ storeForms) (hea : ea = s.effectiveAddress a imm)
    (access : s.memWrite path w ea (s.reg b) = .ok u) (h : post { u with pc := s.pc + 4#32 }) :
    Completes (con b imm a) s post := by
  subst hea
  refine ⟨u.advance, ?_, ?_⟩
  · rw [exec_store form, storeFrom, access]
    rfl
  · rw [← (quiet_memWrite access).pc] at h
    exact h

/-! ## Accesses that are admitted (R73, R80, R81) -/

/-- Whether a region admits a load, a store (R73). -/
def regionAdmits (kind : AccessKind) (r : Region) : Bool :=
  match kind with
  | .read => r.load
  | .write => r.store

/-- An access past the data cache, or without one, is admitted where the region admits its kind. -/
theorem admitted_past_cache (hr : regionOf s.cfg pa = some r) (admits : regionAdmits kind r = true)
    (past : s.cfg.hasDcache = false ∨ path = .io ∧ s.dcacheHit pa = false) : s.admitted kind path pa = .ok r := by
  refine admitted_ok.mpr ⟨hr, admits, ?_, ?_⟩
  · rintro ⟨-, cached, plain⟩
    rcases past with h | ⟨io, -⟩
    · rw [h] at cached; cases cached
    · rw [io] at plain; cases plain
  · rintro ⟨hit, -⟩
    rcases past with h | ⟨-, miss⟩
    · rw [dcacheHit_of_no_dcache h] at hit; cases hit
    · rw [miss] at hit; cases hit

/-- A plain access to memory is admitted where the region admits its kind. -/
theorem admitted_plain (hr : regionOf s.cfg pa = some r) (admits : regionAdmits kind r = true) (memory : r.peripheral = false) :
    s.admitted kind .plain pa = .ok r :=
  admitted_ok.mpr ⟨hr, admits, fun h => absurd (memory.symm.trans h.1) (by decide), fun h => absurd h.2 (by decide)⟩

/-! ## Loads (R76, R80) -/

/-- A load of memory past the data cache: memory's bytes, and one transfer (R76, R80). -/
theorem memRead_past_cache (aligned : widthBytes w ∣ ea.toNat) (hp : s.protectData .read ea = .ok pa)
    (memory : LoadMemory s.cfg pa) (past : s.cfg.hasDcache = false ∨ path = .io ∧ s.dcacheHit pa = false) :
    s.memRead path w ea =
      .ok (BitVec.ofNat 32 (littleEndian s.memByte w pa), s.onBus (.load pa (widthBytes w))) := by
  obtain ⟨r, hr, load, notPeripheral⟩ := memory
  rw [memRead_of aligned hp (admitted_past_cache hr load past), if_neg (by simp [notPeripheral])]
  cases path with
  | io => simp only [readValue_eq]
  | plain =>
    have noCache : s.cfg.hasDcache = false := past.resolve_right (fun h => nomatch h.1)
    have direct : s.plainAccess pa (.load pa (widthBytes w)) = s.onBus (.load pa (widthBytes w)) := by
      simp [State.plainAccess, noCache]
    have bytes (y : Word) : (s.onBus (.load pa (widthBytes w))).byteAt y = s.memByte y :=
      ((onBus_sameMemory s _ y).2.1).trans (byteAt_of_no_dcache noCache)
    simp only [direct, readValue_eq, littleEndian_congr bytes]

/-- A load of a peripheral: some number of the access's width, and one transfer (R76, R80). -/
theorem memRead_peripheral (aligned : widthBytes w ∣ ea.toNat) (hp : s.protectData .read ea = .ok pa)
    (admitted : s.admitted .read path pa = .ok r) (peripheral : r.peripheral = true) :
    ∃ n < 256 ^ widthBytes w, s.memRead path w ea = .ok (BitVec.ofNat 32 n, s.onBus (.load pa (widthBytes w))) := by
  refine ⟨(Config.deviceAnswer s.bus s.pending pa (widthBytes w)).toNat % 256 ^ widthBytes w,
    Nat.mod_lt _ (by positivity), ?_⟩
  rw [memRead_of aligned hp admitted, if_pos peripheral, truncateTo_eq, lowBytes]

/-- Settles O27: the access reads memory and makes one transfer, and the load writes its register. -/
theorem loadsFromMemory : Obligations.LoadsFromMemory := by
  intro con path w signed form s b a imm ea pa hea aligned hp memory past writable
  refine completes_load form (hea.trans (effectiveAddress_eq a imm).symm)
    (memRead_past_cache aligned hp memory past) writable fun regs becomes => ⟨?_, becomes, ?_, fun y => ?_⟩
  · rw [onBus_eq]
  · exact onBus_oneTransfer s _
  · exact onBus_sameMemory s _ y

theorem plainAccess_hit (cached : s.cfg.hasDcache = true) (hit : s.dcacheHit pa = true) (direct : Transfer) :
    s.plainAccess pa direct = s := by
  simp [State.plainAccess, cached, hit]

/-- Settles O28: whether the access hits, misses or allocates, the processor sees the bytes it saw before. -/
theorem loadsThroughCache : Obligations.LoadsThroughCache := by
  intro con w signed form s b a imm ea pa wf sound hea aligned hp memory cached writable
  obtain ⟨r, hr, load, notPeripheral⟩ := memory
  have same (y : Word) : (s.plainAccess pa (.load pa (widthBytes w))).byteAt y = s.byteAt y :=
    byteAt_plainAccess wf sound _
  have access : s.memRead .plain w ea = .ok (BitVec.ofNat 32 (littleEndian s.byteAt w pa),
      s.plainAccess pa (.load pa (widthBytes w))) := by
    rw [memRead_of aligned hp (admitted_plain hr load notPeripheral), if_neg (by simp [notPeripheral])]
    simp only [readValue_eq, littleEndian_congr same]
  refine completes_load form (hea.trans (effectiveAddress_eq a imm).symm) access writable
    fun regs becomes => ⟨?_, becomes, same, fun hit => ?_⟩
  · rw [plainAccess_eq]
  · have unchanged : s.plainAccess pa (.load pa (widthBytes w)) = s := plainAccess_hit cached hit _
    rw [unchanged]

/-! ## Stores past the data cache (R77, R80) -/

/-- The state a store of memory past the data cache leaves, before `pc` moves on (R77, R80). -/
def storedPastCache (s : State) (path : Path) (w : Width) (pa v : Word) : State :=
  (writeValue State.setMemByte w pa v (s.onBus (.store pa (widthBytes w) (lowBytes w v)))).markModified path w pa

theorem storedState_past_cache (past : s.cfg.hasDcache = false ∨ path = .io ∧ s.dcacheHit pa = false) :
    storedState s path w pa v false = storedPastCache s path w pa v := by
  unfold storedState storedPastCache
  cases path with
  | io => simp [truncateTo_eq]
  | plain =>
    have noCache : s.cfg.hasDcache = false := past.resolve_right (fun h => nomatch h.1)
    simp [truncateTo_eq, State.plainAccess, noCache, writeValue_storeByte_of_no_dcache]

theorem storedPastCache_eq (s : State) (path : Path) (w : Width) (pa v : Word) : storedPastCache s path w pa v =
    { s with
        mem := (storedPastCache s path w pa v).mem, hazard := (storedPastCache s path w pa v).hazard
        bus := (s.onBus (.store pa (widthBytes w) (lowBytes w v))).bus
        pending := (s.onBus (.store pa (widthBytes w) (lowBytes w v))).pending } := by
  unfold storedPastCache
  rw [markModified_eq, writeValue_setMemByte_eq, onBus_eq]

theorem memByte_storedPastCache (s : State) (path : Path) (w : Width) (pa v x : Word) :
    (storedPastCache s path w pa v).memByte x = afterStore w pa v x (s.memByte x) := by
  have written := writeValue_reads (look := State.memByte) (fun _ _ _ _ => memByte_setMemByte) w pa v
    (s.onBus (.store pa (widthBytes w) (lowBytes w v))) x
  rw [(onBus_sameMemory s _ x).1] at written
  exact written

/-- A byte seen after an update that left the cache alone. -/
theorem byteAt_of_dcache_eq (h₁ : t.cfg = s.cfg) (h₂ : t.dcache = s.dcache) (h₃ : t.dcacheData = s.dcacheData) :
    t.byteAt x = if s.dcacheHit x then s.byteAt x else t.memByte x := by
  have hit : t.dcacheHit x = s.dcacheHit x := by simp [State.dcacheHit, State.dline, h₁, h₂]
  cases hx : s.dcacheHit x
  · rw [byteAt_of_no_hit (hit.trans hx)]
    simp
  · rw [byteAt_of_hit (hit.trans hx), byteAt_of_hit hx, h₁, h₃]
    simp

/-- A store past the cache of bytes it does not hold is a store of what the processor sees. -/
theorem byteAt_storedPastCache (path : Path) (v x : Word)
    (uncached : ∀ y : Word, (y - pa).toNat < widthBytes w → s.dcacheHit y = false) :
    (storedPastCache s path w pa v).byteAt x = afterStore w pa v x (s.byteAt x) := by
  rw [byteAt_of_dcache_eq (s := s) (by rw [storedPastCache_eq]) (by rw [storedPastCache_eq])
    (by rw [storedPastCache_eq]), memByte_storedPastCache]
  cases hit : s.dcacheHit x
  · rw [if_neg (by decide), byteAt_of_no_hit hit]
  · have outside : ¬ (x - pa).toNat < widthBytes w := fun hx => by simp [uncached x hx] at hit
    rw [if_pos rfl, afterStore, if_neg outside]

theorem stageAfterStore_past_cache (past : s.cfg.hasDcache = false ∨ path = .io ∧ s.dcacheHit pa = false) :
    stageAfterStore s.cfg path = stageAfterWriteBack s.cfg := by
  unfold stageAfterStore
  rcases past with h | ⟨rfl, -⟩
  · simp [h]
  · simp

/-- A store marks its words in a state in which nothing else has touched the hazard record. -/
theorem storedState_marks (s : State) (path : Path) (w : Width) (pa v : Word) (peripheral : Bool) :
    ∃ u : State, storedState s path w pa v peripheral = u.markModified path w pa ∧ u.cfg = s.cfg ∧
      u.hazard = s.hazard := by
  unfold storedState
  cases peripheral with
  | true => exact ⟨_, if_pos rfl, State.onBus_cfg s _, State.onBus_hazard s _⟩
  | false =>
    cases path with
    | plain => exact ⟨_, if_neg (by decide), by rw [writeValue_storeByte_eq, plainAccess_eq],
        by rw [writeValue_storeByte_eq, plainAccess_eq]⟩
    | io => exact ⟨_, if_neg (by decide), by rw [writeValue_setMemByte_eq, onBus_eq],
        by rw [writeValue_setMemByte_eq, onBus_eq]⟩

/-- Whatever a store goes to, the words it touches are left at its stage, and no other word changes (R89). -/
theorem hazardAt_storedState (s : State) (path : Path) (w : Width) (pa v : Word) (peripheral : Bool) (x : Word) :
    (storedState s path w pa v peripheral).hazardAt x =
      if SharesWord w pa x then stageAfterStore s.cfg path else s.hazardAt x := by
  obtain ⟨u, marks, hcfg, hhazard⟩ := storedState_marks s path w pa v peripheral
  rw [marks, hazardAt_markModified, hcfg, hazardAt_of_eq hhazard]

theorem hazardAt_storedState_past_cache (past : s.cfg.hasDcache = false ∨ path = .io ∧ s.dcacheHit pa = false)
    (w : Width) (v : Word) (peripheral : Bool) (x : Word) : (storedState s path w pa v peripheral).hazardAt x =
      if SharesWord w pa x then stageAfterWriteBack s.cfg else s.hazardAt x := by
  rw [hazardAt_storedState, stageAfterStore_past_cache past]

/-- Settles O29: both ways to memory write the bytes there one by one, make one transfer and mark the word stored to. -/
theorem storesToMemory : Obligations.StoresToMemory := by
  intro con path w form s b a imm ea pa hea aligned hp memory past
  obtain ⟨r, hr, store, notPeripheral⟩ := memory
  have stored : storedState s path w pa (s.reg b) r.peripheral = storedPastCache s path w pa (s.reg b) := by
    rw [notPeripheral, storedState_past_cache past]
  have miss : s.dcacheHit pa = false := past.elim dcacheHit_of_no_dcache And.right
  refine completes_store form (hea.trans (effectiveAddress_eq a imm).symm)
    (memWrite_of aligned hp (admitted_past_cache hr store past))
    ⟨?_, fun y => ?_, fun alignedPa y => ?_, ?_, hazardAt_storedState_past_cache past w _ _⟩
  · rw [stored, storedPastCache_eq]
  · rw [stored]
    exact memByte_storedPastCache s path w pa _ y
  · rw [stored]
    exact byteAt_storedPastCache path _ y fun z hz => (dcacheHit_of_aligned alignedPa hz).trans miss
  · rw [stored, storedPastCache_eq]
    exact onBus_oneTransfer s _

theorem storedState_peripheral (s : State) (path : Path) (w : Width) (pa v : Word) : storedState s path w pa v true =
    { s.onBus (.store pa (widthBytes w) (lowBytes w v)) with hazard := (storedState s path w pa v true).hazard } := by
  rw [← truncateTo_eq]
  rfl

/-- Settles O34: with the region a peripheral, a load's value is the device's and a store writes no byte. -/
theorem peripheralAccess : Obligations.PeripheralAccess := by
  intro s b a imm ea pa r path w hea aligned hr peripheral past
  have hea := hea.trans (effectiveAddress_eq a imm).symm
  refine ⟨fun con signed form hp load writable => ?_, fun con form hp store => ?_⟩
  · obtain ⟨n, hn, access⟩ := memRead_peripheral aligned hp (admitted_past_cache hr load past) peripheral
    refine completes_load form hea access writable fun regs becomes =>
      ⟨?_, ⟨n, hn, becomes⟩, onBus_oneTransfer s _, onBus_sameMemory s _⟩
    rw [onBus_eq]
  · refine completes_store form hea (memWrite_of aligned hp (admitted_past_cache hr store past))
      ⟨?_, ?_, ?_, hazardAt_storedState_past_cache past w _ _⟩
    · rw [peripheral, storedState_peripheral, onBus_eq]
    · rw [peripheral, storedState_peripheral]
      exact onBus_oneTransfer s _
    · rw [peripheral, storedState_peripheral]
      exact onBus_sameMemory s _

/-! ## Stores through the data cache (R77, R85) -/

/-- A plain store of memory changes no field but `mem`, the cache's, the hazard record, the bus's and `draws`. -/
theorem storedState_plain_eq (s : State) (w : Width) (pa v : Word) : storedState s .plain w pa v false =
    { s with
        mem := (storedState s .plain w pa v false).mem, dcache := (storedState s .plain w pa v false).dcache
        dcacheData := (storedState s .plain w pa v false).dcacheData
        hazard := (storedState s .plain w pa v false).hazard
        bus := (s.plainAccess pa (.store pa (widthBytes w) (truncateTo w v))).bus
        pending := (s.plainAccess pa (.store pa (widthBytes w) (truncateTo w v))).pending
        draws := (s.plainAccess pa (.store pa (widthBytes w) (truncateTo w v))).draws } := by
  simp only [storedState, Bool.false_eq_true, if_false]
  rw [markModified_eq, writeValue_storeByte_eq, plainAccess_eq]

theorem byteAt_storedState_plain (wf : s.cfg.WellFormed) (sound : DcacheSound s) :
    (storedState s .plain w pa v false).byteAt x = afterStore w pa v x (s.byteAt x) := by
  have written := writeValue_reads (look := State.byteAt) (fun _ _ _ _ => byteAt_storeByte) w pa v
    (s.plainAccess pa (.store pa (widthBytes w) (truncateTo w v))) x
  rw [byteAt_plainAccess wf sound] at written
  exact written

/-- A store whose bytes all stand in one cached line leaves memory alone and the line dirty. -/
theorem writeValue_storeByte_hit (cached : ∀ x : Word, (x - pa).toNat < widthBytes w →
      s.dcacheHit x = true ∧ dlineOf s.cfg x.toNat = dlineOf s.cfg pa.toNat) :
    (writeValue State.storeByte w pa v s).mem = s.mem ∧
      ((writeValue State.storeByte w pa v s).dline (dlineOf s.cfg pa.toNat)).dirty = true := by
  obtain ⟨u, x, byte, hx, ⟨hcfg, hmem, hits⟩, last⟩ := writeValue_last (put := State.storeByte)
    (P := fun u => u.cfg = s.cfg ∧ u.mem = s.mem ∧ ∀ y, u.dcacheHit y = s.dcacheHit y) w pa v s
    (fun u x byte hx hu => by
      obtain ⟨hcfg, hmem, hits⟩ := hu
      have hit : u.dcacheHit x = true := (hits x).trans (cached x hx).1
      exact ⟨storeByte_cfg.trans hcfg, (mem_storeByte_hit hit).trans hmem,
        fun y => dcacheHit_storeByte.trans (hits y)⟩)
    ⟨rfl, rfl, fun _ => rfl⟩
  have hit : u.dcacheHit x = true := (hits x).trans (cached x hx).1
  have dirty := dirty_storeByte_hit (byte := byte) hit
  rw [hcfg, (cached x hx).2] at dirty
  exact last ▸ ⟨(mem_storeByte_hit hit).trans hmem, dirty⟩

/-- Settles O30: the access on its way shows the processor what it saw, and then each byte stored reads as stored. -/
theorem storesThroughCache : Obligations.StoresThroughCache := by
  intro con w form s b a imm ea pa wf sound hea aligned hp memory cached
  obtain ⟨r, hr, store, notPeripheral⟩ := memory
  have access : s.memWrite .plain w ea (s.reg b) = .ok (storedState s .plain w pa (s.reg b) false) := by
    rw [memWrite_of aligned hp (admitted_plain hr store notPeripheral), notPeripheral]
  have stage : stageAfterStore s.cfg .plain = .needsWriteBack := by simp [stageAfterStore, cached]
  refine completes_store form (hea.trans (effectiveAddress_eq a imm).symm) access
    ⟨?_, fun y => byteAt_storedState_plain wf sound, fun y => stage ▸ hazardAt_storedState s .plain w pa _ false y,
      fun hit alignedPa => ?_⟩
  · rw [storedState_plain_eq]
  · obtain ⟨hmem, dirty⟩ := writeValue_storeByte_hit (v := s.reg b) fun y hy =>
      ⟨(dcacheHit_of_aligned alignedPa hy).trans hit, (dlineOf_of_aligned (c := s.cfg) alignedPa hy).1⟩
    have unmoved := plainAccess_hit cached hit (.store pa (widthBytes w) (truncateTo w (s.reg b)))
    have bus : (storedState s .plain w pa (s.reg b) false).bus = s.bus := by rw [storedState_plain_eq, unmoved]
    have pending : (storedState s .plain w pa (s.reg b) false).pending = s.pending := by
      rw [storedState_plain_eq, unmoved]
    have stored : storedState s .plain w pa (s.reg b) false =
        (writeValue State.storeByte w pa (s.reg b) s).markModified .plain w pa := by
      simp only [storedState, Bool.false_eq_true, if_false, unmoved]
    refine ⟨?_, bus, pending, ?_⟩
    · rw [stored]
      exact hmem
    · rw [stored]
      exact dirty

/-! ## Accesses that stop (R73, R80, R81, R83, R354) -/

/-- `i` is the load or the store of a form with its operands: an access of that kind, path and width. -/
def Accesses (i : Instr) (kind : AccessKind) (path : Path) (w : Width) (b : Reg) (imm : Imm16) (a : Reg) : Prop :=
  (∃ con signed, (con, path, w, signed) ∈ loadForms ∧ i = con b imm a ∧ kind = .read) ∨
  (∃ con, (con, path, w) ∈ storeForms ∧ i = con b imm a ∧ kind = .write)

/-- What an instruction answers whose access is stopped. -/
def stopAnswer (s : State) (stop : Stop) : Result :=
  match stop with
  | .exception e => raise e s
  | .fault f => .fault f

theorem settle_error {α : Type} (stop : Stop) (done : α → Result) :
    settle s (.error stop) done = stopAnswer s stop := by
  cases stop <;> rfl

/-- Why an access at an effective address is not made: its address, or the platform and the cache rules. -/
def AccessStops (s : State) (kind : AccessKind) (path : Path) (w : Width) (ea : Word) (stop : Stop) : Prop :=
  s.dataAddress kind w ea = .error stop ∨
    ∃ pa, s.dataAddress kind w ea = .ok pa ∧ s.admitted kind path pa = .error stop

theorem memRead_error {stop : Stop} (h : AccessStops s .read path w ea stop) :
    s.memRead path w ea = .error stop := by
  unfold State.memRead
  rcases h with h | ⟨pa, h, hadm⟩ <;> rw [h]
  simp only [hadm]

theorem memWrite_error {stop : Stop} (h : AccessStops s .write path w ea stop) (v : Word) :
    s.memWrite path w ea v = .error stop := by
  unfold State.memWrite
  rcases h with h | ⟨pa, h, hadm⟩ <;> rw [h]
  simp only [hadm]

/-- An instruction whose access is not made answers the stop and does nothing else. -/
theorem Accesses.stops {stop : Stop} (h : Accesses i kind path w b imm a)
    (hs : AccessStops s kind path w (s.effectiveAddress a imm) stop) : exec i s = stopAnswer s stop := by
  rcases h with ⟨con, signed, form, rfl, rfl⟩ | ⟨con, form, rfl, rfl⟩
  · rw [exec_load form, loadInto, memRead_error hs, settle_error]
  · rw [exec_store form, storeFrom, memWrite_error hs, settle_error]

theorem completes_raise {e : Exception} (h : exec i s = raise e s) : Completes i s (EntersException e s) :=
  ⟨_, h, takeException_enters e s⟩

/-- A violation `protect` reports for a load or a store is the exception it enters, in the order of R354. -/
theorem Accesses.violation {e : DataViolation} (h : Accesses i kind path w b imm a)
    (hp : s.protectData kind (s.effectiveAddress a imm) = .error e)
    (first : e = .supervisorOnlyDataAddress ∨ widthBytes w ∣ (s.effectiveAddress a imm).toNat) :
    Completes i s (EntersException (dataException kind e) s) :=
  completes_raise (h.stops (.inl (dataAddress_violation hp first)))

/-- A violation `protect` reports for `flushda` or an implemented `initda` is the exception it enters. -/
theorem cacheOp_violation {e : Exception}
    (hp : s.cacheOpAddress (s.effectiveAddress a imm) = .error (.exception e)) :
    Completes (.flushda imm a) s (EntersException e s) ∧
      (s.cfg.implInitda = true → Completes (.initda imm a) s (EntersException e s)) := by
  have stops (done : Word → Result) : settle s (s.cacheOpAddress (s.effectiveAddress a imm)) done = raise e s := by
    rw [hp]
    rfl
  refine ⟨completes_raise (stops _), fun implemented => completes_raise ?_⟩
  change optionalInstr s.cfg.implInitda s _ = _
  rw [implemented]
  exact stops _

theorem protectData_consulted (h : s.cfg.hasMmu = true ∨ s.cfg.hasMpu = true) :
    s.protectData kind ea = Config.protectData s.cfg kind ea s.userMode := by
  unfold State.protectData
  rw [if_pos (by simpa using h)]

theorem cacheOpAddress_consulted (h : s.cfg.hasMmu = true ∨ s.cfg.hasMpu = true) : s.cacheOpAddress ea =
    (Config.protectCacheOp s.cfg ea s.userMode).mapError (fun e => .exception (cacheOpException e)) := by
  unfold State.cacheOpAddress
  rw [if_pos (by simpa using h)]
  cases Config.protectCacheOp s.cfg ea s.userMode <;> rfl

theorem cacheOpAddress_flat (mmu : s.cfg.hasMmu = false) (mpu : s.cfg.hasMpu = false) :
    s.cacheOpAddress ea = .ok ea := by
  simp [State.cacheOpAddress, mmu, mpu]

/-- Settles O32, by what `protect` answers. -/
theorem protectedAccessRaises : Obligations.ProtectedAccessRaises := by
  intro s b a imm ea hea
  rw [← effectiveAddress_eq] at hea
  subst hea
  refine ⟨fun mmu mpu => ⟨fun _ => protectData_flat mmu mpu, cacheOpAddress_flat mmu mpu⟩,
    fun consulted => ⟨fun i w kind access => ?_, ?_⟩⟩
  · have access : ∃ path, Accesses i kind path w b imm a := by
      rcases access with ⟨con, path, signed, load⟩ | ⟨con, path, store⟩
      · exact ⟨path, .inl ⟨con, signed, load⟩⟩
      · exact ⟨path, .inr ⟨con, store⟩⟩
    obtain ⟨path, access⟩ := access
    rw [protectData_consulted consulted]
    cases hp : Config.protectData s.cfg kind (s.effectiveAddress a imm) s.userMode with
    | ok pa => rfl
    | error e => exact access.violation ((protectData_consulted consulted).trans hp)
  · have hp := cacheOpAddress_consulted (ea := s.effectiveAddress a imm) consulted
    cases hc : Config.protectCacheOp s.cfg (s.effectiveAddress a imm) s.userMode with
    | ok pa => rw [hp, hc]; rfl
    | error e => exact cacheOp_violation (by rw [hp, hc]; rfl)

theorem admitted_plain_peripheral (hr : regionOf s.cfg pa = some r) (admits : regionAdmits kind r = true) (peripheral : r.peripheral = true)
    (cached : s.cfg.hasDcache = true) :
    s.admitted kind .plain pa = .error (.fault .plainAccessToPeripheral) := by
  cases kind <;> simp only [regionAdmits] at admits <;> simp [State.admitted, hr, admits, peripheral, cached]

theorem admitted_io_cached (hr : regionOf s.cfg pa = some r) (admits : regionAdmits kind r = true) (hit : s.dcacheHit pa = true) :
    s.admitted kind .io pa = .error (.fault .ioAccessToCachedAddress) := by
  cases kind <;> simp only [regionAdmits] at admits <;> simp [State.admitted, hr, admits, hit]

/-- Settles O33: each reason not to admit the access is the fault the instruction answers. -/
theorem inadmissibleAccessStops : Obligations.InadmissibleAccessStops := by
  intro s b a imm ea pa hea i w path kind admits access aligned hp
  rw [← effectiveAddress_eq] at hea
  subst hea
  have instr : Accesses i kind path w b imm a ∧ admits = regionAdmits kind := by
    rcases access with ⟨con, signed, form, hi, rfl, rfl⟩ | ⟨con, form, hi, rfl, rfl⟩
    · exact ⟨.inl ⟨con, signed, form, hi, rfl⟩, rfl⟩
    · exact ⟨.inr ⟨con, form, hi, rfl⟩, rfl⟩
  obtain ⟨instr, rfl⟩ := instr
  have faults {f : Fault} (h : s.admitted kind path pa = .error (.fault f)) : exec i s = .fault f :=
    instr.stops (.inr ⟨pa, dataAddress_ok.mpr ⟨aligned, hp⟩, h⟩)
  refine ⟨fun outside => faults (admitted_outside outside), fun r hr admits =>
    ⟨fun peripheral cached plain => faults ?_, fun hit io => faults ?_⟩⟩
  · exact plain ▸ admitted_plain_peripheral hr admits peripheral cached
  · exact io ▸ admitted_io_cached hr admits hit

/-! ## The sequence that makes a stored word fetchable (R89, R400) -/

/-- The record of the fetch hazard is in its canonical form (log 9). -/
abbrev State.HazardCanonical (s : State) : Prop := Sparse.Canonical HazardStage.fetchable s.hazard

theorem hazardCanonical_moveHazard {here : Nat → Bool} {before after : HazardStage} (ha : after ≠ .fetchable)
    (h : s.HazardCanonical) : (s.moveHazard here before after).HazardCanonical := by
  have whole : ({ State.resetOf s.cfg with hazard := s.hazard } : State).Canonical :=
    canonical_setHazard (canonical_resetOf s.cfg) h
  obtain ⟨-, -, -, -, -, -, moved, -⟩ := canonical_moveHazard here before ha whole
  exact moved

theorem hazardCanonical_storedState (path : Path) (w : Width) (pa v : Word) (peripheral : Bool)
    (h : s.HazardCanonical) : (storedState s path w pa v peripheral).HazardCanonical := by
  obtain ⟨u, marks, -, hhazard⟩ := storedState_marks s path w pa v peripheral
  rw [marks]
  exact Sparse.canonical_set (Sparse.canonical_set (by rwa [hhazard]))

theorem hazardCanonical_flushIndex (h : s.HazardCanonical) : (s.flushIndex pa).HazardCanonical := by
  unfold State.flushIndex
  split
  · refine hazardCanonical_moveHazard (stageAfterWriteBack_ne_fetchable _) ?_
    rw [flushDline_eq]
    exact h
  · exact h

theorem hazardCanonical_flushAddress (h : s.HazardCanonical) : (s.flushAddress pa).HazardCanonical := by
  unfold State.flushAddress
  split
  · refine hazardCanonical_moveHazard (stageAfterWriteBack_ne_fetchable _) ?_
    split
    · rw [flushDline_eq]
      exact h
    · exact h
  · exact h

theorem hazardCanonical_invalidateInstruction (h : s.HazardCanonical) :
    (s.invalidateInstruction pa).HazardCanonical := by
  unfold State.invalidateInstruction
  split
  · exact hazardCanonical_moveHazard (by decide) h
  · exact h

/-- An aligned word is fetchable where its own hazard says so. -/
theorem fetchable_of_aligned (h : 4 ∣ pa.toNat) : s.fetchable pa = (s.hazardAt pa == .fetchable) := by
  have same (k : Word) (hk : k.toNat < 4) : s.hazardAt (pa + k) = s.hazardAt pa := by
    have hlt := pa.isLt
    have hword : (pa + k).toNat / 4 = pa.toNat / 4 := by
      rw [BitVec.toNat_add]
      omega
    unfold State.hazardAt
    rw [hword]
  unfold State.fetchable
  rw [same 1#32 (by decide), same 2#32 (by decide), same 3#32 (by decide)]
  simp

/-- Where a flush of its own line leaves a word: event (a) of R89. -/
def stageAfterFlush (c : Config) (stage : HazardStage) : HazardStage :=
  if c.hasDcache = true ∧ stage = .needsWriteBack then stageAfterWriteBack c else stage

/-- Where the invalidation of its own instruction-cache line leaves a word: event (b) of R89. -/
def stageAfterInvalidate (c : Config) (stage : HazardStage) : HazardStage :=
  if c.hasIcache = true ∧ stage = .needsInvalidate then .needsFlushPipeline else stage

theorem hazardAt_flushIndex_self : (s.flushIndex pa).hazardAt pa = stageAfterFlush s.cfg (s.hazardAt pa) := by
  unfold stageAfterFlush
  cases hc : s.cfg.hasDcache
  · simp [State.flushIndex, hc]
  · rw [hazardAt_flushIndex hc]
    simp

theorem hazardAt_flushAddress_self : (s.flushAddress pa).hazardAt pa = stageAfterFlush s.cfg (s.hazardAt pa) := by
  unfold stageAfterFlush
  cases hc : s.cfg.hasDcache
  · simp [State.flushAddress, hc]
  · rw [hazardAt_flushAddress hc]
    simp

theorem hazardAt_invalidateInstruction_self :
    (s.invalidateInstruction pa).hazardAt pa = stageAfterInvalidate s.cfg (s.hazardAt pa) := by
  unfold stageAfterInvalidate State.invalidateInstruction
  cases hc : s.cfg.hasIcache
  · simp
  · rw [if_pos rfl, hazardAt_moveHazard (by decide), ilineOf_word, hazardAt_of_eq (State.setIline_hazard s _ _)]
    simp

/-- `t` comes some steps of the sequence of R89 after `s`: the word at `pa` is at a stage, the configuration and the
registers, which say what the coming steps do, are those of `s`. -/
structure AtStage (s t : State) (pa : Word) (stage : HazardStage) : Prop where
  cfg : t.cfg = s.cfg
  regs : t.regs = s.regs
  crs : t.crs = s.crs
  canonical : t.HazardCanonical
  hazard : t.hazardAt pa = stage

variable {stage after : HazardStage}

theorem AtStage.advanced (h : AtStage s t pa stage) (q : Quiet t u) (canonical : u.HazardCanonical)
    (hazard : u.hazardAt pa = after) : AtStage s u.advance pa after :=
  ⟨q.cfg.trans h.cfg, q.regs.trans h.regs, q.crs.trans h.crs, canonical, hazard⟩

theorem AtStage.fetchable (h : AtStage s t pa stage) (aligned : 4 ∣ pa.toNat) :
    t.fetchable pa = (stage == .fetchable) := by
  rw [fetchable_of_aligned aligned, h.hazard]

theorem AtStage.reg (h : AtStage s t pa stage) (r : Reg) : t.reg r = s.reg r := by
  simp [State.reg, State.regOf, h.regs, h.crs]

theorem effectiveAddress_zero (s : State) (a : Reg) : s.effectiveAddress a 0#16 = s.reg a := by
  simp [State.effectiveAddress, sextImm]

theorem AtStage.effectiveAddress (h : AtStage s t (s.reg a) stage) : t.effectiveAddress a 0#16 = s.reg a := by
  rw [effectiveAddress_zero, h.reg]

/-- The store of the sequence leaves its word at its stage. -/
theorem atStage_store (hc : s.HazardCanonical) (mmu : s.cfg.hasMmu = false) (mpu : s.cfg.hasMpu = false)
    (aligned : 4 ∣ (s.reg a).toNat) (memory : StoreMemory s.cfg (s.reg a))
    (form : (con, path, .word) ∈ storeForms) (uncached : path = .io → s.dcacheHit (s.reg a) = false) :
    ∃ t, exec (con b 0#16 a) s = .next t ∧ AtStage s t (s.reg a) (stageAfterStore s.cfg path) := by
  obtain ⟨r, hr, store, notPeripheral⟩ := memory
  have admitted : s.admitted .write path (s.reg a) = .ok r := by
    cases path with
    | plain => exact admitted_plain hr store notPeripheral
    | io => exact admitted_ok.mpr ⟨hr, store, fun h => absurd h.2.2 (by decide), fun h => by simp [uncached] at h⟩
  have access := memWrite_of (w := .word) (v := s.reg b) aligned (protectData_flat mmu mpu) admitted
  refine completes_store form (effectiveAddress_zero s a).symm access ?_
  have q := quiet_memWrite access
  refine ⟨q.cfg, q.regs, q.crs, hazardCanonical_storedState _ _ _ _ _ hc, ?_⟩
  exact (hazardAt_storedState s path .word _ _ _ _).trans (if_pos (.inl rfl))

theorem AtStage.flush (h : AtStage s t (s.reg a) stage) (mmu : s.cfg.hasMmu = false) (mpu : s.cfg.hasMpu = false)
    (hi : i ∈ [Instr.flushd 0#16 a, .flushda 0#16 a]) :
    ∃ u, exec i t = .next u ∧ AtStage s u (s.reg a) (stageAfterFlush s.cfg stage) := by
  rw [← h.hazard, ← h.cfg]
  rcases List.mem_pair.mp hi with rfl | rfl
  · refine ⟨(t.flushIndex (t.effectiveAddress a 0#16)).advance, rfl, ?_⟩
    rw [h.effectiveAddress]
    exact h.advanced (quiet_flushIndex _ _) (hazardCanonical_flushIndex h.canonical) hazardAt_flushIndex_self
  · refine ⟨(t.flushAddress (s.reg a)).advance, ?_, ?_⟩
    · change settle t (t.cacheOpAddress (t.effectiveAddress a 0#16)) _ = _
      rw [h.effectiveAddress, cacheOpAddress_flat (by rwa [h.cfg]) (by rwa [h.cfg])]
      rfl
    · exact h.advanced (quiet_flushAddress _ _) (hazardCanonical_flushAddress h.canonical) hazardAt_flushAddress_self

theorem AtStage.flushi (h : AtStage s t (s.reg a) stage) :
    ∃ u, exec (.flushi a) t = .next u ∧ AtStage s u (s.reg a) (stageAfterInvalidate s.cfg stage) := by
  refine ⟨(t.invalidateInstruction (t.reg a)).advance, rfl, ?_⟩
  rw [← h.hazard, ← h.cfg, h.reg]
  exact h.advanced (quiet_invalidateInstruction _ _) (hazardCanonical_invalidateInstruction h.canonical)
    hazardAt_invalidateInstruction_self

/-- `flushp` makes the word fetchable where no other step was to come. -/
theorem AtStage.flushp (h : AtStage s t pa stage) (aligned : 4 ∣ pa.toNat) :
    ∃ u, exec .flushp t = .next u ∧ (u.fetchable pa = true ↔ stage = .needsFlushPipeline ∨ stage = .fetchable) := by
  refine ⟨t.flushHazard.advance, rfl, ?_⟩
  have hazard := hazardAt_flushHazard (x := pa) h.canonical
  rw [h.hazard] at hazard
  rw [fetchable_of_aligned aligned, hazardAt_of_eq (State.advance_hazard t.flushHazard), hazard]
  cases stage <;> decide

/-- A step of the sequence taken or left out. -/
theorem AtStage.taken_or_not (h : AtStage s t pa stage) (taken : Bool)
    (step : ∃ u, exec i t = .next u ∧ AtStage s u pa after) :
    ∃ u, (if taken then exec i t = .next u else u = t) ∧ AtStage s u pa (if taken then after else stage) := by
  cases taken
  · exact ⟨t, rfl, h⟩
  · exact step

/-- Where the word is after the store, and after a flush and an invalidation that were taken or left out. -/
def stageAfterSequence (c : Config) (path : Path) (flushed invalidated : Bool) : HazardStage :=
  let stage := if flushed then stageAfterFlush c (stageAfterStore c path) else stageAfterStore c path
  if invalidated then stageAfterInvalidate c stage else stage

/-- A plain store that no flush followed waits for one; every other store is past the write-back. -/
theorem stage_after_store_and_flush (c : Config) (path : Path) (flushed : Bool) :
    (if flushed then stageAfterFlush c (stageAfterStore c path) else stageAfterStore c path) =
      if c.hasDcache = true ∧ path = .plain ∧ flushed = false then .needsWriteBack else stageAfterWriteBack c := by
  have pastWriteBack : stageAfterWriteBack c ≠ .needsWriteBack := by
    unfold stageAfterWriteBack
    split <;> decide
  by_cases waits : c.hasDcache = true ∧ path = .plain
  · cases flushed <;> simp [stageAfterFlush, stageAfterStore, waits]
  · have stage : stageAfterStore c path = stageAfterWriteBack c := by simp [stageAfterStore, waits]
    cases flushed <;> simp [stage, stageAfterFlush, pastWriteBack]
    tauto

/-- Past the write-back, a core with an instruction cache waits for its invalidation. -/
theorem stage_after_invalidate (c : Config) (invalidated : Bool) :
    (if invalidated then stageAfterInvalidate c (stageAfterWriteBack c) else stageAfterWriteBack c) =
      if c.hasIcache = true ∧ invalidated = false then .needsInvalidate else .needsFlushPipeline := by
  cases hc : c.hasIcache <;> cases invalidated <;> simp [stageAfterInvalidate, stageAfterWriteBack, hc]

/-- The step still to come is the first one the caches call for that was not taken (R89). -/
theorem stageAfterSequence_eq (c : Config) (path : Path) (flushed invalidated : Bool) :
    stageAfterSequence c path flushed invalidated =
      if c.hasDcache = true ∧ path = .plain ∧ flushed = false then .needsWriteBack
      else if c.hasIcache = true ∧ invalidated = false then .needsInvalidate else .needsFlushPipeline := by
  simp only [stageAfterSequence, stage_after_store_and_flush]
  by_cases waits : c.hasDcache = true ∧ path = .plain ∧ flushed = false
  · simp [waits, stageAfterInvalidate]
  · simp only [if_neg waits, stage_after_invalidate]

theorem stageAfterSequence_ne_fetchable (c : Config) (path : Path) (flushed invalidated : Bool) :
    stageAfterSequence c path flushed invalidated ≠ .fetchable := by
  rw [stageAfterSequence_eq]
  split_ifs <;> decide

/-- Only `flushp` is left to come exactly where each step the caches call for was taken (R89, R400). -/
theorem stageAfterSequence_iff (c : Config) (path : Path) (flushed invalidated : Bool) :
    stageAfterSequence c path flushed invalidated = .needsFlushPipeline ↔
      (c.hasDcache = true → path = .plain → flushed = true) ∧ (c.hasIcache = true → invalidated = true) := by
  rw [stageAfterSequence_eq]
  split_ifs with waitsFlush waitsInvalidate
  · simp [waitsFlush]
  · simp [waitsInvalidate]
  · simpa [not_and] using And.intro waitsFlush waitsInvalidate

/-- Settles O40: the store and each step taken or left out move the word along the sequence, and `flushp` makes it
fetchable where nothing else was left to come. -/
theorem hazardSequence : Obligations.HazardSequence := by
  intro s a b hc mmu mpu aligned memory store hstore uncached
  obtain ⟨con, form, hcon⟩ : ∃ con, (con, store.2, Width.word) ∈ storeForms ∧ store.1 = con b 0#16 a := by
    rcases List.mem_pair.mp hstore with rfl | rfl
    · exact ⟨.stw, by simp [storeForms], rfl⟩
    · exact ⟨.stwio, by simp [storeForms], rfl⟩
  obtain ⟨t₁, stored, at₁⟩ := atStage_store (b := b) hc mmu mpu aligned memory form uncached
  have unfetchable {t : State} {flushed invalidated : Bool}
      (h : AtStage s t (s.reg a) (stageAfterSequence s.cfg store.2 flushed invalidated)) :
      t.fetchable (s.reg a) = false := by
    rw [h.fetchable aligned]
    simpa using stageAfterSequence_ne_fetchable s.cfg store.2 flushed invalidated
  refine ⟨t₁, hcon ▸ stored, unfetchable (flushed := false) (invalidated := false) at₁,
    fun flush hflush withFlush withFlushi => ?_⟩
  obtain ⟨t₂, flushed, at₂⟩ := at₁.taken_or_not withFlush (at₁.flush mmu mpu hflush)
  obtain ⟨t₃, invalidated, at₃⟩ := at₂.taken_or_not withFlushi at₂.flushi
  obtain ⟨t₄, finished, fetchable⟩ := at₃.flushp aligned
  refine ⟨t₂, t₃, t₄, flushed, invalidated, finished, unfetchable (invalidated := false) at₂, unfetchable at₃, ?_⟩
  rw [← stageAfterSequence_iff, fetchable]
  exact or_iff_left (stageAfterSequence_ne_fetchable s.cfg store.2 withFlush withFlushi)

/-! ## The memory frame (R70, R77, R84, R85) -/

/-- From `s` to `t` the byte at `x` was written back with the dirty line of the index of `pa`: memory has what the
processor saw (R84, R85). -/
def WrittenBack (s t : State) (pa x : Word) : Prop :=
  s.dcacheHit x = true ∧ (s.dline (dlineOf s.cfg x.toNat)).dirty = true ∧ t.memByte x = s.byteAt x ∧
    dlineOf s.cfg pa.toNat = dlineOf s.cfg x.toNat

theorem WrittenBack.of_memByte_eq (h : WrittenBack s t pa x) (same : u.memByte x = t.memByte x) :
    WrittenBack s u pa x := by
  obtain ⟨hit, dirty, written, line⟩ := h
  exact ⟨hit, dirty, same.trans written, line⟩

/-- A byte of memory that a write-back changed. -/
theorem writtenBack_of_writeBack (wf : s.cfg.WellFormed) (tags : TagsInRange s) (cached : s.cfg.hasDcache = true)
    (hne : (s.writeBack (dlineOf s.cfg pa.toNat)).memByte x ≠ s.memByte x) :
    WrittenBack s (s.writeBack (dlineOf s.cfg pa.toNat)) pa x := by
  have written := memByte_writeBack_eq (x := x) wf tags cached (dlineOf_lt s.cfg pa.toNat)
  by_cases h : s.dcacheHit x = true ∧ dlineOf s.cfg x.toNat = dlineOf s.cfg pa.toNat ∧
      (s.dline (dlineOf s.cfg pa.toNat)).dirty = true
  · rw [if_pos h] at written
    obtain ⟨hit, hline, dirty⟩ := h
    exact ⟨hit, hline ▸ dirty, written, hline.symm⟩
  · rw [if_neg h] at written
    exact absurd written hne

/-- A byte of memory that a plain access changed on its way: the write-back of a line evicted. -/
theorem writtenBack_of_plainAccess (wf : s.cfg.WellFormed) (tags : s.cfg.hasDcache = true → TagsInRange s)
    {direct : Transfer} (hne : (s.plainAccess pa direct).memByte x ≠ s.memByte x) :
    WrittenBack s (s.plainAccess pa direct) pa x := by
  rcases plainAccess_cases s pa direct with ⟨-, he⟩ | ⟨-, -, he⟩ | ⟨-, -, he⟩ | ⟨cached, -, he⟩
  · exact absurd (memByte_of_mem_eq (by simp [he])) hne
  · exact absurd (memByte_of_mem_eq (by rw [he])) hne
  · exact absurd (memByte_of_mem_eq (by simp [he])) hne
  · have evicted : (s.plainAccess pa direct).memByte x = (s.drawn.writeBack (dlineOf s.cfg pa.toNat)).memByte x := by
      rw [he, (onBus_sameMemory _ _ x).1]
      rfl
    rw [evicted] at hne
    have back : WrittenBack s.drawn (s.drawn.writeBack (dlineOf s.cfg pa.toNat)) pa x :=
      writtenBack_of_writeBack wf (tags cached) cached hne
    exact WrittenBack.of_memByte_eq (s := s) back evicted

/-- Bytes stored on the plain path: a byte the cache holds stays in memory as it was, any other is stored there. -/
theorem memByte_writeValue_storeByte (w : Width) (pa v x : Word) (s : State) :
    (writeValue State.storeByte w pa v s).memByte x =
      if s.dcacheHit x then s.memByte x else afterStore w pa v x (s.memByte x) := by
  have hits : (writeValue State.storeByte w pa v s).dcacheHit x = s.dcacheHit x :=
    writeValue_keeps (P := fun u => u.dcacheHit x = s.dcacheHit x) w pa v s
      (fun _ _ _ hu => dcacheHit_storeByte.trans hu) rfl
  cases hit : s.dcacheHit x
  · have written := writeValue_reads (look := State.byteAt) (fun _ _ _ _ => byteAt_storeByte) w pa v s x
    rwa [byteAt_of_no_hit (hits.trans hit), byteAt_of_no_hit hit] at written
  · have kept := writeValue_keeps (put := State.storeByte)
      (P := fun u => u.dcacheHit x = true ∧ u.memByte x = s.memByte x) w pa v s (fun u y byte hu => ?_) ⟨hit, rfl⟩
    · exact kept.2
    · obtain ⟨hitx, same⟩ := hu
      refine ⟨dcacheHit_storeByte.trans hitx, Eq.trans ?_ same⟩
      cases hy : u.dcacheHit y
      · have hne : x ≠ y := by
          rintro rfl
          rw [hitx] at hy
          cases hy
        rw [storeByte_miss hy, memByte_setMemByte, if_neg hne]
      · exact memByte_of_mem_eq (mem_storeByte_hit hy)

/-- A byte stored reads as stored, whatever it read before. -/
theorem afterStore_within {old : Byte} (hx : (x - pa).toNat < widthBytes w) (old' : Byte) :
    afterStore w pa v x old = afterStore w pa v x old' :=
  (if_pos hx).trans (if_pos hx).symm

theorem afterStore_outside {old : Byte} (hx : ¬ (x - pa).toNat < widthBytes w) : afterStore w pa v x old = old :=
  if_neg hx

/-- A byte of memory that a store changed: one it stored, or, on the plain path, one of a line evicted. -/
theorem memByte_storedState_changed (wf : s.cfg.WellFormed) (tags : s.cfg.hasDcache = true → TagsInRange s)
    {peripheral : Bool} (hne : (storedState s path w pa v peripheral).memByte x ≠ s.memByte x) :
    ((x - pa).toNat < widthBytes w ∧
      (storedState s path w pa v peripheral).memByte x = afterStore w pa v x (s.memByte x)) ∨
    (path = .plain ∧ WrittenBack s (storedState s path w pa v peripheral) pa x) := by
  cases peripheral with
  | true =>
    rw [storedState_peripheral] at hne
    exact absurd (onBus_sameMemory s _ x).1 hne
  | false =>
    cases path with
    | io =>
      have direct : storedState s .io w pa v false = storedPastCache s .io w pa v := by
        simp [storedState, storedPastCache, truncateTo_eq]
      rw [direct, memByte_storedPastCache] at hne ⊢
      by_cases hx : (x - pa).toNat < widthBytes w
      · exact .inl ⟨hx, rfl⟩
      · exact absurd (afterStore_outside hx) hne
    | plain =>
      have written : (storedState s .plain w pa v false).memByte x = _ :=
        memByte_writeValue_storeByte w pa v x (s.plainAccess pa (.store pa (widthBytes w) (truncateTo w v)))
      by_cases stored : (s.plainAccess pa (.store pa (widthBytes w) (truncateTo w v))).dcacheHit x = false ∧
          (x - pa).toNat < widthBytes w
      · obtain ⟨miss, hx⟩ := stored
        rw [miss, if_neg (by decide), afterStore_within hx (s.memByte x)] at written
        exact .inl ⟨hx, written⟩
      · have evicted : (storedState s .plain w pa v false).memByte x =
            (s.plainAccess pa (.store pa (widthBytes w) (truncateTo w v))).memByte x := by
          rw [written]
          split
          · rfl
          · next miss => exact afterStore_outside fun hx => stored ⟨by simpa using miss, hx⟩
        rw [evicted] at hne
        exact .inr ⟨rfl, (writtenBack_of_plainAccess wf tags hne).of_memByte_eq evicted⟩

theorem memByte_flushIndex_changed (wf : s.cfg.WellFormed) (tags : s.cfg.hasDcache = true → TagsInRange s)
    (hne : (s.flushIndex pa).memByte x ≠ s.memByte x) : WrittenBack s (s.flushIndex pa) pa x := by
  cases cached : s.cfg.hasDcache
  · exact absurd (by simp [State.flushIndex, cached]) hne
  · have flushed : (s.flushIndex pa).memByte x = (s.writeBack (dlineOf s.cfg pa.toNat)).memByte x := by
      unfold State.flushIndex
      rw [if_pos cached]
      rfl
    rw [flushed] at hne
    exact (writtenBack_of_writeBack wf (tags cached) cached hne).of_memByte_eq flushed

theorem memByte_flushAddress_changed (wf : s.cfg.WellFormed) (tags : s.cfg.hasDcache = true → TagsInRange s)
    (hne : (s.flushAddress pa).memByte x ≠ s.memByte x) : WrittenBack s (s.flushAddress pa) pa x := by
  cases hit : s.dcacheHit pa
  · have unchanged : (s.flushAddress pa).mem = s.mem := by
      unfold State.flushAddress
      rw [hit]
      split <;> rfl
    exact absurd (memByte_of_mem_eq unchanged) hne
  · have cached : s.cfg.hasDcache = true := (hit_iff.mp hit).1
    have flushed : (s.flushAddress pa).memByte x = (s.writeBack (dlineOf s.cfg pa.toNat)).memByte x := by
      unfold State.flushAddress
      rw [if_pos cached, hit]
      rfl
    rw [flushed] at hne
    exact (writtenBack_of_writeBack wf (tags cached) cached hne).of_memByte_eq flushed

/-- A byte of memory that a load changed: one of a line evicted on the plain path. -/
theorem memByte_memRead_changed (wf : s.cfg.WellFormed) (tags : s.cfg.hasDcache = true → TagsInRange s)
    {answer : Word × State} (access : s.memRead path w ea = .ok answer) (hne : answer.2.memByte x ≠ s.memByte x) :
    ∃ pa, s.protectData .read ea = .ok pa ∧ path = .plain ∧ WrittenBack s answer.2 pa x := by
  obtain ⟨pa, r, -, hp, -, ⟨-, rfl⟩ | ⟨-, plain, rfl⟩ | ⟨-, -, rfl⟩⟩ := memRead_ok access
  · exact absurd (onBus_sameMemory s _ x).1 hne
  · exact ⟨pa, hp, plain, writtenBack_of_plainAccess wf tags hne⟩
  · exact absurd (onBus_sameMemory s _ x).1 hne

/-- Settles O51, by what the instruction did: only loads, stores and flushes reach memory. -/
theorem memoryFrame : Obligations.MemoryFrame := by
  intro i s t x wf tags h hne
  have kept (hmem : t.mem = s.mem) : False := hne (memByte_of_mem_eq hmem)
  cases exec_next h with
  | loaded con path w signed b imm a v answer form instr _ access _ after =>
    have reads : t.memByte x = answer.2.memByte x := memByte_of_mem_eq (by simp [after])
    rw [reads] at hne
    obtain ⟨pa, hp, rfl, hit, dirty, same, line⟩ := memByte_memRead_changed wf tags access hne
    exact .inr ⟨hit, dirty, reads.trans same, pa, b, imm, a, line, .inl ⟨con, w, signed, form, instr, hp⟩⟩
  | stored con path w b imm a u form instr access after =>
    subst after
    obtain ⟨pa, r, -, hp, -, rfl⟩ := memWrite_ok access
    rcases memByte_storedState_changed wf tags hne with ⟨hx, same⟩ | ⟨rfl, hit, dirty, same, line⟩
    · exact .inl ⟨con, path, w, b, imm, a, pa, form, instr, hp, hx, same⟩
    · exact .inr ⟨hit, dirty, same, pa, b, imm, a, line, .inr (.inl ⟨con, w, form, instr, hp⟩)⟩
  | flushedIndex imm a instr after =>
    subst after
    obtain ⟨hit, dirty, same, line⟩ := memByte_flushIndex_changed wf tags hne
    exact .inr ⟨hit, dirty, same, _, 0#5, imm, a, line, .inr (.inr (.inl ⟨instr, rfl⟩))⟩
  | flushedAddress imm a pa instr access after =>
    subst after
    obtain ⟨hit, dirty, same, line⟩ := memByte_flushAddress_changed wf tags hne
    exact .inr ⟨hit, dirty, same, pa, 0#5, imm, a, line, .inr (.inr (.inr ⟨instr, access⟩))⟩
  | raised e entry _ => exact (kept (by simp [entry, takeException])).elim
  | broke _ _ entry => exact (kept (by simp [entry, takeBreak])).elim
  | initIndex _ after => exact (kept (by simp only [after, State.initIndex]; split <;> rfl)).elim
  | initAddress _ after => exact (kept (by simp only [after, State.initAddress]; split <;> rfl)).elim
  | invalidated _ after => exact (kept (by simp only [after, State.invalidateInstruction]; split <;> rfl)).elim
  | wroteControl _ _ _ _ access after =>
    subst after
    rcases writeCtl_cases access with rfl | rfl | rfl <;> exact (kept rfl).elim
  | wrote _ _ _ _ after | drew _ _ _ after | called _ _ _ after | wrotePrevious _ _ _ _ _ after
  | customWrote _ _ _ _ _ _ after => exact (kept (by simp [after])).elim
  | went _ _ after | advanced after | flushedPipeline after | synced _ after | returned _ _ after
  | returnedFromBreak _ _ after | customRan _ _ after => subst after; exact (kept rfl).elim

/-! ## The step (R79, R117) -/

theorem unfilledIfRaised_eq (s t : State) : s.unfilledIfRaised t =
    if t.label = none then t else { t with icache := s.icache, icacheData := s.icacheData } := by
  split
  · next h => exact unfilledIfRaised_of_none h
  · next h => exact unfilledIfRaised_of_raised h

theorem preciseFetch_of_next (s t : State) : preciseFetch s (.next t) =
    .next (if t.label = none then t else { t with icache := s.icache, icacheData := s.icacheData }) := by
  rw [← unfilledIfRaised_eq]
  rfl

theorem fetchable_iff : s.fetchable pa = true ↔ ∀ k : Fin 4, s.hazardAt (pa + BitVec.ofNat 32 k.val) = .fetchable := by
  have first : pa + BitVec.ofNat 32 0 = pa := BitVec.add_zero pa
  simp [State.fetchable, Fin.forall_fin_succ, first, and_assoc]

/-- A step whose fetch is admitted and decodes runs the instruction in the state after the fetch. -/
theorem step_of_decoded (quiet : s.interrupted = false) (hp : s.fetchAddress = .ok pa)
    (hr : regionOf s.cfg pa = some r) (hf : r.fetch = true) (hz : s.fetchable pa = true)
    (hd : decode (readValue s.codeByte .word pa) = .ok i) :
    step s = preciseFetch s.begin (exec i (s.begin.fetchAccess pa)) := by
  have fetched : s.begin.fetch = .ok (readValue s.codeByte .word pa, s.begin.fetchAccess pa) :=
    fetch_of (s := s.begin) hp hr hf hz
  unfold step runInstruction
  rw [quiet, if_neg (by decide), fetched]
  change preciseFetch s.begin (match decode _ with | .ok i => _ | .error _ => _) = _
  rw [hd]

/-- Settles O4: the state the instruction runs in is the one the fetch left. -/
theorem stepRunsDecoded : Obligations.StepRunsDecoded := by
  intro s pa w r i quiet hp hr hf hz hw hd
  rw [hw, ← readValue_eq] at hd
  have hstep := step_of_decoded quiet hp hr hf (fetchable_iff.mpr hz) hd
  refine ⟨s.begin.fetchAccess pa, ?_, ?_, fun hit => fetchAccess_hit hit, fun cached miss => ?_, fun mmu mpu => ?_⟩
  · rw [hstep]
    cases exec i (s.begin.fetchAccess pa) with
    | next t => exact preciseFetch_of_next s.begin t
    | fault f => rfl
    | refused why => rfl
  · rw [fetchAccess_eq]
    rfl
  · rcases fetchAccess_cases s.begin pa with he | ⟨-, -, he | he⟩ <;> rw [he]
    · exact .inl ⟨rfl, rfl⟩
    · exact .inl ⟨rfl, rfl⟩
    · exact .inr ⟨fun line => iline_fillIline line, fun x => codeByte_fillIline cached⟩
  · simpa [State.fetchAddress, mmu, mpu] using hp.symm

end Sys2Proof.Machine
end

section
/-! The family 30_encoding: `decode` and `encode` are inverse to each other, each followed through the layouts of a word
(R111 to R114), and what a step does with a word that spells no instruction. -/

namespace Sys2Proof

variable {a b c : Reg} {imm : Imm16} {op x6 : BitVec 6} {x5 : Imm5} {w : Word} {i j : Instr} {fixedFields : Prop}
  [Decidable fixedFields]

/-! ## Decoding a word of each layout (R117) -/

theorem decode_rType (a b c : Reg) (x6 : BitVec 6) (x5 : Imm5) :
    decode (rType a b c x6 x5) = decodeOpx x6 x5 a b c := by
  simp [decode]

theorem decode_customType (a b c : Reg) (readra readrb writerc : Bool) (n : BitVec 8) :
    decode (customType a b c readra readrb writerc n) = .ok (.custom n c a b readra readrb writerc) := by
  simp [decode]

theorem decode_call (imm : Imm26) : decode (jType imm 0x00#6) = .ok (.call imm) := by
  simp [decode]

theorem decode_jmpi (imm : Imm26) : decode (jType imm 0x01#6) = .ok (.jmpi imm) := by
  simp [decode]

/-- The OP map is asked for every OP value but those of the R-type, of `custom`, of `call` and of `jmpi`. -/
theorem decode_iType (a b : Reg) (imm : Imm16) (iTypeOp : op ∉ [0x3A#6, 0x32#6, 0x00#6, 0x01#6]) :
    decode (iType a b imm op) = decodeOp op a b imm := by
  simp only [List.mem_cons, List.not_mem_nil, or_false, not_or] at iTypeOp
  simp [decode, iTypeOp]

/-- Settles O2: an instruction's word has its layout, and there the OP map or the OPX map finds its own row, whose fixed
fields the encoder wrote. -/
theorem decodeOfEncode : Obligations.DecodeOfEncode := by
  intro i
  cases i with
  | addi | muli | andi | andhi | ori | orhi | xori | xorhi | cmpeqi | cmpnei | cmpgei | cmpgeui | cmplti | cmpltui
  | br | beq | bne | bge | bgeu | blt | bltu
  | ldb | ldbio | ldbu | ldbuio | ldh | ldhio | ldhu | ldhuio | ldw | ldwio | stb | stbio | sth | sthio | stw | stwio
  | flushd | flushda | initd | initda | rdprs => exact (decode_iType _ _ _ (by decide)).trans rfl
  | call imm => exact decode_call imm
  | jmpi imm => exact decode_jmpi imm
  | custom n c a b readra readrb writerc => exact decode_customType a b c readra readrb writerc n
  | _ => exact (decode_rType ..).trans rfl

/-! ## Encoding what was decoded (R121, R122) -/

theorem ok_eq_onlyIf : .ok i = onlyIf fixedFields j ↔ fixedFields ∧ i = j := by
  unfold onlyIf
  split <;> simp [*]

/-- The word with the field its instruction ignores cleared: bits 21..17 of `eret`, bits 31..27 of `flushp` (R122). -/
def ignoredCleared (i : Instr) (w : Word) : Word :=
  match i with
  | .eret => w &&& 0xFFC1FFFF#32
  | .flushp => w &&& 0x07FFFFFF#32
  | _ => w

theorem ignoredCleared_of_ne (eret : i ≠ .eret) (flushp : i ≠ .flushp) : ignoredCleared i w = w := by
  unfold ignoredCleared
  split <;> trivial

theorem rType_clearC : rType a b c x6 x5 &&& 0xFFC1FFFF#32 = rType a b 0#5 x6 x5 :=
  (Laws.rType_and a b c (.allOnes 5) (.allOnes 5) 0#5 x6 (.allOnes 6) x5 (.allOnes 5)).trans
    (by simp only [BitVec.and_allOnes, BitVec.and_zero])

theorem rType_clearA : rType a b c x6 x5 &&& 0x07FFFFFF#32 = rType 0#5 b c x6 x5 :=
  (Laws.rType_and a b c 0#5 (.allOnes 5) (.allOnes 5) x6 (.allOnes 6) x5 (.allOnes 5)).trans
    (by simp only [BitVec.and_allOnes, BitVec.and_zero])

/-- Each row of the OPX map spells its instruction, given the fixed fields the row asks for. -/
theorem encode_of_decodeOpx (h : decodeOpx x6 x5 a b c = .ok i) :
    encode i = ignoredCleared i (rType a b c x6 x5) := by
  rw [eq_comm] at h
  unfold decodeOpx at h
  split at h
  case h_43 => cases h
  all_goals
    next row =>
    obtain ⟨-, rfl⟩ := BitVec.toNat_eq_nat.mp row
    rw [ok_eq_onlyIf] at h
    simp only [h, encode, ignoredCleared, rType_clearC, rType_clearA]

/-- Each row of the OP map spells its instruction, given the fixed fields where the row asks for any. -/
theorem encode_of_decodeOp (h : decodeOp op a b imm = .ok i) : encode i = ignoredCleared i (iType a b imm op) := by
  rw [eq_comm] at h
  unfold decodeOp at h
  split at h
  case h_43 => cases h
  all_goals
    next row =>
    obtain ⟨-, rfl⟩ := BitVec.toNat_eq_nat.mp row
    simp only [ok_eq_onlyIf, Except.ok.injEq] at h
    simp only [h, encode, ignoredCleared]

theorem encode_of_decode (h : decode w = .ok i) : encode i = ignoredCleared i w := by
  unfold decode at h
  split_ifs at h with isR isCustom isCall isJmpi
  · simpa only [rType_fields w isR] using encode_of_decodeOpx h
  · cases h
    exact customType_fields w isCustom
  · cases h
    exact (congrArg (jType _) isCall.symm).trans (jType_fields w)
  · cases h
    exact (congrArg (jType _) isJmpi.symm).trans (jType_fields w)
  · simpa only [iType_fields] using encode_of_decodeOp h

/-- Settles O3, by what `ignoredCleared` is for `eret`, for `flushp` and for every other instruction. -/
theorem encodeOfDecode : Obligations.EncodeOfDecode := by
  intro w i h
  have spelled := encode_of_decode h
  refine ⟨fun eret flushp => spelled.trans (ignoredCleared_of_ne eret flushp), ?_, ?_⟩
  · rintro rfl
    exact spelled
  · rintro rfl
    exact spelled

/-- Settles O1, by evaluation. -/
theorem specWordsDecode : Obligations.SpecWordsDecode := by
  unfold Obligations.SpecWordsDecode
  and_intros <;> rfl

end Sys2Proof

namespace Sys2Proof.Machine

variable {s : State} {pa : Word} {r : Region} {why : DecodeReject}

/-! ## A word that spells no instruction (R124) -/

/-- A step whose fetch is admitted but does not decode gives the answer to a reserved word, in the state the fetch left. -/
theorem step_of_reserved (quiet : s.interrupted = false) (hp : s.fetchAddress = .ok pa)
    (hr : regionOf s.cfg pa = some r) (hf : r.fetch = true) (hz : s.fetchable pa = true)
    (hd : decode (readValue s.codeByte .word pa) = .error why) :
    step s = preciseFetch s.begin (reservedEncoding (s.begin.fetchAccess pa)) := by
  have fetched : s.begin.fetch = .ok (readValue s.codeByte .word pa, s.begin.fetchAccess pa) :=
    fetch_of (s := s.begin) hp hr hf hz
  unfold step runInstruction
  rw [quiet, if_neg (by decide), fetched]
  change preciseFetch s.begin (match decode _ with | .ok i => _ | .error _ => _) = _
  rw [hd]

theorem reservedEncoding_illegal (h : s.cfg.illegalExc = true) :
    reservedEncoding s = .next (takeException .illegalInstruction s) :=
  if_pos h

theorem reservedEncoding_stops (h : s.cfg.illegalExc = false) : reservedEncoding s = .fault .reservedEncoding :=
  if_neg (by simp [h])

/-- Settles O5: the answer is that of `reservedEncoding` after the fetch, and taking back the fetch's fill of the
instruction cache leaves Illegal instruction entered from the state before the fetch. -/
theorem reservedWordsTrapOrStop : Obligations.ReservedWordsTrapOrStop := by
  intro s pa w r why quiet hp hr hf hz hw hd
  rw [hw, ← readValue_eq] at hd
  have hstep := step_of_reserved quiet hp hr hf (fetchable_iff.mpr hz) hd
  have hcfg : (s.begin.fetchAccess pa).cfg = s.cfg := (quiet_fetchAccess s.begin pa).cfg
  refine ⟨fun traps => ?_, fun stops => ?_⟩
  · rw [reservedEncoding_illegal (hcfg ▸ traps)] at hstep
    refine ⟨{ s.begin with draws := (s.begin.fetchAccess pa).draws }, _, hstep.trans ?_,
      takeException_enters .illegalInstruction _, rfl⟩
    exact congrArg Host.Outcome.next (unfilledIfRaised_takeException ..)
  · rw [hstep, reservedEncoding_stops (hcfg ▸ stops)]
    rfl

end Sys2Proof.Machine
end

section
/-! The family 40_arith_logic: what the arithmetic and logical instructions write, and the three idioms built from them.
The words they compute are related to exact integers first; an instruction that completes is then a plain register
write of such a word, and an idiom is the results of its instructions composed. -/

namespace Sys2Proof.Machine

variable {i : Instr} {s t : State} {a b c r x : Reg} {v : Word}

/-! ## The words computed (R151 to R160) -/

section Words

variable {x y : Word} {imm : Imm16}

theorem toInt_sextImm (imm : Imm16) : (sextImm imm).toInt = imm.toInt := BitVec.toInt_signExtend_of_le (by decide)

theorem sub_eq_ofInt (x y : Word) : x - y = BitVec.ofInt 32 (x.toInt - y.toInt) := by
  apply BitVec.eq_of_toInt_eq
  rw [BitVec.toInt_sub, BitVec.toInt_ofInt]

theorem mul_eq_ofInt (x y : Word) : x * y = BitVec.ofInt 32 (x.toInt * y.toInt) := by
  rw [BitVec.ofInt_mul, BitVec.ofInt_toInt, BitVec.ofInt_toInt]

theorem toNat_highWord (p : BitVec 64) : (highWord p).toNat = p.toNat / 2 ^ 32 := by
  have := p.isLt
  rw [highWord, BitVec.extractLsb'_toNat, Nat.shiftRight_eq_div_pow]
  omega

theorem toInt_highWord (p : BitVec 64) : (highWord p).toInt = p.toInt / 2 ^ 32 := by
  have := p.isLt
  rw [BitVec.toInt_eq_toNat_cond, BitVec.toInt_eq_toNat_cond, toNat_highWord]
  omega

/-- A signed operand times one no longer than a word, signed or unsigned, fits 64 bits signed. -/
theorem toInt_mul_of_abs_le {p q : BitVec 64} (hp : |p.toInt| ≤ 2 ^ 31) (hq : |q.toInt| ≤ 2 ^ 32 - 1) :
    (p * q).toInt = p.toInt * q.toInt := by
  have bound : |p.toInt * q.toInt| ≤ 2 ^ 31 * (2 ^ 32 - 1) := by
    rw [abs_mul]
    exact mul_le_mul hp hq (abs_nonneg _) (by decide)
  obtain ⟨lower, upper⟩ := abs_le.mp bound
  rw [BitVec.toInt_mul]
  exact Int.bmod_eq_of_le (by omega) (by omega)

theorem abs_toInt_le (x : Word) : |x.toInt| ≤ 2 ^ 31 := by
  have lower := x.le_toInt
  have upper := x.toInt_lt
  rw [abs_le]
  omega

theorem toInt_signExtend_double (x : Word) : (x.signExtend 64).toInt = x.toInt :=
  BitVec.toInt_signExtend_of_le (by decide)

theorem toNat_setWidth_double (x : Word) : (x.setWidth 64).toNat = x.toNat := BitVec.toNat_setWidth_of_le (by decide)

theorem toInt_setWidth_double (x : Word) : (x.setWidth 64).toInt = x.toNat := by
  have := x.isLt
  rw [BitVec.toInt_eq_toNat_cond, toNat_setWidth_double]
  omega

theorem toInt_mulHighSS (x y : Word) : (mulHighSS x y).toInt = x.toInt * y.toInt / 2 ^ 32 := by
  have hx := abs_toInt_le x
  have hy : |y.toInt| ≤ 2 ^ 32 - 1 := (abs_toInt_le y).trans (by decide)
  rw [mulHighSS, toInt_highWord, toInt_mul_of_abs_le, toInt_signExtend_double, toInt_signExtend_double] <;>
    rwa [toInt_signExtend_double]

theorem toInt_mulHighSU (x y : Word) : (mulHighSU x y).toInt = x.toInt * (y.toNat : Int) / 2 ^ 32 := by
  have hx := abs_toInt_le x
  have hy : |(y.toNat : Int)| ≤ 2 ^ 32 - 1 := by
    rw [Nat.abs_cast]
    omega
  rw [mulHighSU, toInt_highWord, toInt_mul_of_abs_le, toInt_signExtend_double, toInt_setWidth_double]
  · rwa [toInt_signExtend_double]
  · rwa [toInt_setWidth_double]

theorem toNat_mulHighUU (x y : Word) : (mulHighUU x y).toNat = x.toNat * y.toNat / 2 ^ 32 := by
  have small : x.toNat * y.toNat < 2 ^ 64 := (Nat.mul_lt_mul'' x.isLt y.isLt).trans_eq (by decide)
  rw [mulHighUU, toNat_highWord, BitVec.toNat_mul, toNat_setWidth_double, toNat_setWidth_double, Nat.mod_eq_of_lt small]

theorem toNat_quotientUnsigned (x y : Word) : (quotientUnsigned x y).toNat = x.toNat / y.toNat := by
  rw [quotientUnsigned, BitVec.toNat_ofNat, Nat.mod_eq_of_lt (lt_of_le_of_lt (Nat.div_le_self _ _) x.isLt)]

/-- The two divisions `div` leaves undefined, on exact integers (R159, R173). -/
theorem divUndefined_iff : divUndefined x y = true ↔ y = 0#32 ∨ x.toInt = -2 ^ 31 ∧ y.toInt = -1 := by
  have least : x.toInt = -2 ^ 31 ↔ x = 0x80000000#32 := BitVec.toInt_inj (y := 0x80000000#32)
  have minusOne : y.toInt = -1 ↔ y = 0xFFFFFFFF#32 := BitVec.toInt_inj (y := 0xFFFFFFFF#32)
  rw [least, minusOne]
  simp [divUndefined]

/-- But for -2^31 by -1 the signed quotient fits a word. -/
theorem toInt_quotientSigned (fits : ¬ (x.toInt = -2 ^ 31 ∧ y.toInt = -1)) :
    (quotientSigned x y).toInt = x.toInt.tdiv y.toInt := by
  have operands : x ≠ BitVec.intMin 32 ∨ y ≠ -1#32 := by
    by_contra h
    obtain ⟨rfl, rfl⟩ : x = BitVec.intMin 32 ∧ y = -1#32 := by tauto
    exact fits (by decide)
  rw [quotientSigned, ← BitVec.toInt_sdiv_of_ne_or_ne x y operands, BitVec.ofInt_toInt]

/-- A remainder fits a word, so taking it modulo 2^32 leaves it. -/
theorem bmod_tmod (x y : Word) : (x.toInt.tmod y.toInt).bmod (2 ^ 32) = x.toInt.tmod y.toInt := by
  rw [← BitVec.toInt_srem, BitVec.toInt_bmod_cancel]

theorem getLsbD_zextImm {j : Nat} (hj : j < 32) : (zextImm imm).getLsbD j = imm.getLsbD j := by
  simp [zextImm, hj]

theorem getLsbD_highImm (j : Nat) : (highImm imm).getLsbD j = (decide (16 ≤ j) && imm.getLsbD (j - 16)) := by
  rw [highImm, BitVec.getLsbD_append]
  by_cases low : j < 16
  · simp [low, Nat.not_le.mpr low]
  · simp [low, Nat.le_of_not_lt low]

end Words

/-! ## Instructions that write one register -/

theorem yields_of_writeReg {value : Word → Prop} (he : exec i s = writeReg r v s) (writable : Writable r s)
    (holds : value v) : Yields i r s value :=
  ⟨v, holds, completes_of_writeReg he writable⟩

theorem optionalInstr_implemented {implemented : Bool} {effect : Result} (h : implemented = true) :
    optionalInstr implemented s effect = effect :=
  if_pos h

theorem exec_div_defined (implemented : s.cfg.implDiv = true)
    (defined : ¬ (s.reg b = 0#32 ∨ (s.reg a).toInt = -2 ^ 31 ∧ (s.reg b).toInt = -1)) :
    exec (.div c a b) s = writeReg c (quotientSigned (s.reg a) (s.reg b)) s :=
  (optionalInstr_implemented implemented).trans (if_neg (fun h => defined (divUndefined_iff.mp h)))

theorem exec_div_undefined (implemented : s.cfg.implDiv = true)
    (undefined : s.reg b = 0#32 ∨ (s.reg a).toInt = -2 ^ 31 ∧ (s.reg b).toInt = -1) :
    exec (.div c a b) s = undefinedQuotient c s :=
  (optionalInstr_implemented implemented).trans (if_pos (divUndefined_iff.mpr undefined))

theorem exec_divu_defined (implemented : s.cfg.implDivu = true) (defined : s.reg b ≠ 0#32) :
    exec (.divu c a b) s = writeReg c (quotientUnsigned (s.reg a) (s.reg b)) s :=
  (optionalInstr_implemented implemented).trans (if_neg defined)

theorem exec_divu_undefined (implemented : s.cfg.implDivu = true) (undefined : s.reg b = 0#32) :
    exec (.divu c a b) s = undefinedQuotient c s :=
  (optionalInstr_implemented implemented).trans (if_pos undefined)

/-- Settles O11: each is a plain register write; `addi` computes the word an effective address is. -/
theorem addSubResults : Obligations.AddSubResults := by
  intro s c a b imm writable
  refine ⟨?add, ?addi, ?sub⟩ <;> refine yields_of_writeReg rfl writable ?_
  case add => exact BitVec.toNat_add _ _
  case addi => exact effectiveAddress_eq a imm
  case sub => exact sub_eq_ofInt _ _

/-- Settles O12: the low word of a product is the same taken signed or unsigned. -/
theorem mulLowResults : Obligations.MulLowResults := by
  intro s c a b imm writable
  refine ⟨fun implemented => ?mul, fun implemented => ?muli⟩ <;>
    refine yields_of_writeReg (optionalInstr_implemented implemented) writable ?_
  case mul => exact ⟨BitVec.toNat_mul _ _, mul_eq_ofInt _ _⟩
  case muli => rw [mul_eq_ofInt, toInt_sextImm]

/-- Settles O13: the high words are those of exact products, which 64 bits hold. -/
theorem mulHighResults : Obligations.MulHighResults := by
  intro s c a b writable
  refine ⟨fun implemented => ?mulxss, fun implemented => ?mulxsu, fun implemented => ?mulxuu⟩ <;>
    refine yields_of_writeReg (optionalInstr_implemented implemented) writable ?_
  case mulxss => exact toInt_mulHighSS _ _
  case mulxsu => exact toInt_mulHighSU _ _
  case mulxuu => exact toNat_mulHighUU _ _

/-- Settles O14: a non-zero divisor, and a quotient that fits a word. -/
theorem divisionResults : Obligations.DivisionResults := by
  intro s c a b writable nonzero
  refine ⟨fun implemented fits => ?div, fun implemented => ?divu⟩
  case div =>
    exact yields_of_writeReg (exec_div_defined implemented (not_or.mpr ⟨nonzero, fits⟩)) writable
      (toInt_quotientSigned fits)
  case divu =>
    exact yields_of_writeReg (exec_divu_defined implemented nonzero) writable (toNat_quotientUnsigned _ _)

/-- An undefined quotient goes on with a free value drawn, or raises (R173). -/
theorem undefinedQuotient_cases (c : Reg) (s : State) :
    (s.cfg.divErrorExc = false ∧ undefinedQuotient c s = writeReg c (Config.draw32 s.draws) s.drawn) ∨
    (s.cfg.divErrorExc = true ∧ undefinedQuotient c s = raise .divisionError s) := by
  unfold undefinedQuotient
  cases h : s.cfg.divErrorExc <;> simp

/-- Settles O15: both instructions answer `undefinedQuotient` there, and its write is that of the state after the draw. -/
theorem undefinedDivision : Obligations.UndefinedDivision := by
  intro s c a b i undefined
  have he : exec i s = undefinedQuotient c s := by
    rcases undefined with ⟨rfl, implemented, h⟩ | ⟨rfl, implemented, h⟩
    · exact exec_div_undefined implemented h
    · exact exec_divu_undefined implemented h
  rcases undefinedQuotient_cases c s with ⟨hc, hq⟩ | ⟨hc, hq⟩
  · refine ⟨fun _ writable => ?_, fun traps => absurd traps (by simp [hc])⟩
    exact ⟨_, _, (he.trans hq).trans (writeReg_of_writable (s := s.drawn) writable), setReg_advance_writesRegister ..⟩
  · exact ⟨fun goesOn => absurd goesOn (by simp [hc]), fun _ => completes_raise (he.trans hq)⟩

/-- Settles O17: each is a plain register write, whose bits are those of its operands and of the immediate's half. -/
theorem logicalResults : Obligations.LogicalResults := by
  intro s c a b imm writable
  simp only [List.forall_mem_cons]
  refine ⟨?and, ?or, ?xor, ?nor, ?andi, ?ori, ?xori, ?andhi, ?orhi, ?xorhi, List.forall_mem_nil _⟩
  all_goals refine yields_of_writeReg rfl writable fun j hj => ?_
  case and => exact BitVec.getLsbD_and
  case or => exact BitVec.getLsbD_or
  case xor => exact BitVec.getLsbD_xor
  case nor => simp [hj]
  case andi => rw [BitVec.getLsbD_and, getLsbD_zextImm hj]
  case ori => rw [BitVec.getLsbD_or, getLsbD_zextImm hj]
  case xori => rw [BitVec.getLsbD_xor, getLsbD_zextImm hj]
  case andhi => rw [BitVec.getLsbD_and, getLsbD_highImm]
  case orhi => rw [BitVec.getLsbD_or, getLsbD_highImm]
  case xorhi => rw [BitVec.getLsbD_xor, getLsbD_highImm]

/-! ## Idioms (R172) -/

theorem WritesRegister.cfg_eq (h : WritesRegister r v s t) : t.cfg = s.cfg := by rw [h.1]

theorem WritesRegister.crs_eq (h : WritesRegister r v s t) : t.crs = s.crs := by rw [h.1]

theorem WritesRegister.reg_same (h : WritesRegister r v s t) (hr : r ≠ 0#5) : t.reg r = v := by
  have ⟨_, becomes, _⟩ := h
  rw [State.reg, h.crs_eq]
  exact becomes.same (fun zero => hr zero.2)

theorem WritesRegister.reg_other (h : WritesRegister r v s t) (hx : x ≠ r) : t.reg x = s.reg x := by
  have ⟨_, becomes, _⟩ := h
  rw [State.reg, h.crs_eq]
  exact becomes.other (.inr hx)

/-- What a completed instruction leaves to read: its value in the destination, every other register of the current set as
before, the same set and the same configuration. -/
theorem Yields.reads {value : Word → Prop} (h : Yields i r s value) (hr : r ≠ 0#5) :
    ∃ t, exec i s = .next t ∧ value (t.reg r) ∧ (∀ x, x ≠ r → t.reg x = s.reg x) ∧ t.crs = s.crs ∧
      t.cfg = s.cfg := by
  obtain ⟨v, holds, t, he, writes⟩ := h
  refine ⟨t, he, ?_, fun x hx => writes.reg_other hx, writes.crs_eq, writes.cfg_eq⟩
  rwa [writes.reg_same hr]

theorem yields_cmpltu (writable : Writable c s) :
    Yields (.cmpltu c a b) c s (fun v => v = if (s.reg a).toNat < (s.reg b).toNat then 1#32 else 0#32) :=
  yields_of_writeReg rfl writable (by simp [boolWord, BitVec.ult])

theorem yields_cmpne (writable : Writable c s) :
    Yields (.cmpne c a b) c s (fun v => v = if s.reg a = s.reg b then 0#32 else 1#32) :=
  yields_of_writeReg rfl writable (by simp [boolWord, bne])

/-- Settles O18: the sum wraps exactly where it is less than an operand, and by 2^32 then. -/
theorem carryIdiom : Obligations.CarryIdiom := by
  intro s c d a b hc hd hca hdc
  have ⟨add, _, _⟩ := addSubResults s c a b 0#16 (.inl hc)
  obtain ⟨t, runAdd, sum, keptByAdd, -⟩ := add.reads hc
  obtain ⟨u, runCmp, carry, keptByCmp, -⟩ := (yields_cmpltu (s := t) (a := c) (b := a) (.inl hd)).reads hd
  refine ⟨t, u, runAdd, runCmp, ?_⟩
  rw [carry, keptByCmp c hdc.symm, keptByAdd a hca.symm]
  split
  case isTrue wraps =>
    change 1 * 2 ^ 32 + _ = _
    omega
  case isFalse fits =>
    change 0 * 2 ^ 32 + _ = _
    omega

/-- Settles O19: the product fits a word exactly where its high word is 0. -/
theorem mulCarryIdiom : Obligations.MulCarryIdiom := by
  intro s d a b implemented hd hcrs
  have ⟨_, _, mulxuu⟩ := mulHighResults s d a b (.inl hd)
  obtain ⟨t, runMul, high, -, crs, -⟩ := (mulxuu implemented).reads hd
  obtain ⟨u, runCmp, flag, -⟩ := (yields_cmpne (s := t) (a := d) (b := 0#5) (.inl hd)).reads hd
  have zero : t.reg 0#5 = 0#32 := by rw [State.reg, crs, hcrs, regOf_zero]
  have fits : t.reg d = 0#32 ↔ ¬ 2 ^ 32 ≤ (s.reg a).toNat * (s.reg b).toNat := by
    rw [← BitVec.toNat_inj, high, BitVec.toNat_zero, Nat.div_eq_zero_iff]
    omega
  refine ⟨t, u, runMul, runCmp, ?_⟩
  simp only [flag, zero, fits, ite_not]

/-- Settles O20: what `sub` leaves is x[A] less quotient times divisor modulo 2^32, which is the remainder, as a remainder
fits a word. -/
theorem remainderIdiom : Obligations.RemainderIdiom := by
  intro s c d a b implDiv implMul hc hd hca hcb hda nonzero fits
  have ⟨div, _⟩ := divisionResults s c a b (.inl hc) nonzero
  obtain ⟨t, runDiv, quotient, keptByDiv, -, cfg⟩ := (div implDiv fits).reads hc
  have ⟨mul, _⟩ := mulLowResults t d c b 0#16 (.inl hd)
  obtain ⟨u, runMul, ⟨-, product⟩, keptByMul, -⟩ := (mul (by rwa [cfg])).reads hd
  have ⟨_, _, sub⟩ := addSubResults u d a d 0#16 (.inl hd)
  obtain ⟨v, runSub, difference, -⟩ := sub.reads hd
  refine ⟨t, u, v, runDiv, runMul, runSub, ?_⟩
  calc (v.reg d).toInt
    _ = ((s.reg a).toInt -
          (BitVec.ofInt 32 ((s.reg a).toInt.tdiv (s.reg b).toInt * (s.reg b).toInt)).toInt).bmod (2 ^ 32) := by
      rw [difference, BitVec.toInt_ofInt, product, quotient, keptByMul a hda.symm, keptByDiv a hca.symm,
        keptByDiv b hcb.symm]
    _ = ((s.reg a).toInt.tmod (s.reg b).toInt).bmod (2 ^ 32) := by
      rw [BitVec.toInt_ofInt, Int.sub_bmod_bmod, Int.tmod_def, Int.mul_comm]
    _ = (s.reg a).toInt.tmod (s.reg b).toInt := bmod_tmod _ _

end Sys2Proof.Machine
end

section
/-! The family 41_compare: what the twelve comparisons write (R180 to R192). Each is a plain register write of the word for
a `Bool`; what is left to say is which relation on exact integers that `Bool` decides. -/

namespace Sys2Proof.Machine

variable {i : Instr} {s : State} {r : Reg}

section Relations

variable {x : Word} {imm : Imm16} {holds : Bool} {P : Prop} [Decidable P]

theorem boolWord_eq_ite (decides : holds = true ↔ P) : boolWord holds = if P then 1#32 else 0#32 :=
  if_congr decides rfl rfl

theorem toNat_zextImm (imm : Imm16) : (zextImm imm).toNat = imm.toNat := BitVec.toNat_setWidth_of_le (by decide)

theorem eq_sextImm_iff : x = sextImm imm ↔ x.toInt = imm.toInt := by
  rw [← BitVec.toInt_inj, toInt_sextImm]

/-- A comparison that writes 1 where its relation holds. -/
theorem yields_one_of_iff (he : exec i s = writeReg r (boolWord holds) s) (writable : Writable r s)
    (decides : holds = true ↔ P) : Yields i r s (fun v => v = if P then 1#32 else 0#32) :=
  yields_of_writeReg he writable (boolWord_eq_ite decides)

end Relations

/-- Settles O21: each writes the word for the relation it decides; an immediate's extension keeps its value, signed or
unsigned. -/
theorem comparisonResults : Obligations.ComparisonResults := by
  intro s c a b imm writable
  refine ⟨yields_one_of_iff rfl writable ?cmpeq, yields_one_of_iff rfl writable ?cmpeqi, yields_cmpne writable,
    yields_of_writeReg rfl writable ?cmpnei, yields_one_of_iff rfl writable ?cmpge,
    yields_one_of_iff rfl writable ?cmpgei, yields_one_of_iff rfl writable ?cmpgeu,
    yields_one_of_iff rfl writable ?cmpgeui, yields_one_of_iff rfl writable ?cmplt,
    yields_one_of_iff rfl writable ?cmplti, yields_cmpltu writable, yields_one_of_iff rfl writable ?cmpltui⟩
  case cmpeq => exact beq_iff_eq
  case cmpeqi => exact beq_iff_eq.trans eq_sextImm_iff
  case cmpnei => rw [boolWord_eq_ite (bne_iff_ne.trans eq_sextImm_iff.not), ite_not]
  case cmpge => exact BitVec.sle_iff_toInt_le
  case cmpgei => rw [BitVec.sle_iff_toInt_le, toInt_sextImm]
  case cmpgeu => exact BitVec.ule_iff_toNat_le
  case cmpgeui => rw [BitVec.ule_iff_toNat_le, toNat_zextImm]
  case cmplt => exact BitVec.slt_iff_toInt_lt
  case cmplti => rw [BitVec.slt_iff_toInt_lt, toInt_sextImm]
  case cmpltui => rw [BitVec.ult_iff_toNat_lt, toNat_zextImm]

end Sys2Proof.Machine
end

section
/-! The family 42_shift_rotate: what the shifts and rotates write (R201 to R209). Each is a plain register write; a
register form's count is x[B] modulo 32 (R200), so register and immediate forms share one fact about the word. -/

namespace Sys2Proof.Machine

/-! ## The words computed, for any count -/

section Words

variable {j : Nat}

theorem shiftCount_eq_mod (y : Word) : shiftCount y = y.toNat % 32 := rfl

theorem toNat_shiftLeft_eq_mul (x : Word) (n : Nat) : (x <<< n).toNat = x.toNat * 2 ^ n % 2 ^ 32 := by
  rw [BitVec.toNat_shiftLeft, Nat.shiftLeft_eq]

theorem toNat_ushiftRight_eq_div (x : Word) (n : Nat) : (x >>> n).toNat = x.toNat / 2 ^ n := by
  rw [BitVec.toNat_ushiftRight, Nat.shiftRight_eq_div_pow]

theorem toInt_sshiftRight_eq_div (x : Word) (n : Nat) : (x.sshiftRight n).toInt = x.toInt / 2 ^ n := by
  rw [BitVec.toInt_sshiftRight, Int.shiftRight_eq_div_pow, Nat.cast_pow, Nat.cast_ofNat]

/-- A left rotation moves bit `j` up by the count, around the word's end: the bits that stay inside come from below, the
`n % 32` lowest ones from the top. -/
theorem getLsbD_rotateLeft_add (x : Word) (n : Nat) (hj : j < 32) :
    (x.rotateLeft n).getLsbD ((j + n) % 32) = x.getLsbD j := by
  rw [BitVec.getLsbD_rotateLeft]
  by_cases wraps : (j + n) % 32 < n % 32
  case pos =>
    have source : 32 - n % 32 + (j + n) % 32 = j := by omega
    simp [wraps, source]
  case neg =>
    have source : (j + n) % 32 - n % 32 = j := by omega
    simp [wraps, source, Nat.mod_lt]

/-- A right rotation reads bit `j` from `n` places above, around the word's end. -/
theorem getLsbD_rotateRight_eq (x : Word) (n : Nat) (hj : j < 32) :
    (x.rotateRight n).getLsbD j = x.getLsbD ((j + n) % 32) := by
  rw [BitVec.getLsbD_rotateRight]
  by_cases inside : j < 32 - n % 32
  case pos =>
    have source : n % 32 + j = (j + n) % 32 := by omega
    simp [inside, source]
  case neg =>
    have source : j - (32 - n % 32) = (j + n) % 32 := by omega
    simp [inside, source, hj]

end Words

/-- Settles O22: each writes the shifted word; the count is the same term in a form's three instructions. -/
theorem shiftResults : Obligations.ShiftResults := by
  intro s c a b m writable
  simp only [List.forall_mem_cons, ← shiftCount_eq_mod]
  refine ⟨⟨?sll, ?srl, ?sra⟩, ⟨?slli, ?srli, ?srai⟩, List.forall_mem_nil _⟩ <;>
    refine yields_of_writeReg rfl writable ?_
  case sll | slli => exact toNat_shiftLeft_eq_mul _ _
  case srl | srli => exact toNat_ushiftRight_eq_div _ _
  case sra | srai => exact toInt_sshiftRight_eq_div _ _

/-- Settles O23: `rol` and `roli` move each bit up, `ror` reads each bit from above, modulo 32. -/
theorem rotateResults : Obligations.RotateResults := by
  intro s c a b m writable
  simp only [← shiftCount_eq_mod]
  refine ⟨?rol, ?roli, ?ror⟩ <;> refine yields_of_writeReg rfl writable fun j hj => ?_
  case rol | roli => exact getLsbD_rotateLeft_add _ _ hj
  case ror => exact getLsbD_rotateRight_eq _ _ hj

end Sys2Proof.Machine
end

section
/-! The family 43_control_transfer: what the branches and the jumps do (R215 to R229). The target words are related to
exact integers first; whether a transfer arrives or raises Misaligned destination address is taken from the lemmas about
`transferTo`. -/

namespace Sys2Proof.Machine

variable {i : Instr} {s : State} {target : Word} {a : Reg}

/-! ## The targets (R215, R223) -/

theorem branchTarget_eq_ofInt (pc : Word) (imm : Imm16) :
    branchTarget pc imm = BitVec.ofInt 32 ((pc.toNat : Int) + 4 + imm.toInt) := by
  rw [BitVec.ofInt_add, BitVec.ofInt_add, BitVec.ofInt_natCast, BitVec.ofNat_toNat, BitVec.setWidth_eq, ← toInt_sextImm,
    BitVec.ofInt_toInt]
  rfl

theorem toNat_append_eq_add {m n : Nat} (high : BitVec m) (low : BitVec n) :
    (high ++ low).toNat = high.toNat * 2 ^ n + low.toNat := by
  rw [BitVec.toNat_append, ← Nat.shiftLeft_add_eq_or_of_lt low.isLt, Nat.shiftLeft_eq]

theorem segmentTarget_eq_ofNat (pc : Word) (imm : Imm26) :
    segmentTarget pc imm = BitVec.ofNat 32 (pc.toNat / 2 ^ 28 * 2 ^ 28 + imm.toNat * 4) := by
  have hpc := pc.isLt
  have himm := imm.isLt
  apply BitVec.eq_of_toNat_eq
  rw [segmentTarget, toNat_append_eq_add, toNat_append_eq_add, BitVec.extractLsb'_toNat, Nat.shiftRight_eq_div_pow,
    BitVec.toNat_ofNat, BitVec.toNat_ofNat]
  omega

/-! ## Transfers -/

/-- An instruction that is a branch on a `Bool` transfers where the condition that `Bool` decides holds (R215, R229). -/
theorem branchesIf_of_branchIf {condition : Bool} {imm : Imm16} {P : Prop} (he : exec i s = branchIf condition imm s)
    (decides : condition = true ↔ P) (ht : target = BitVec.ofInt 32 ((s.pc.toNat : Int) + 4 + imm.toInt)) :
    BranchesIf P target i s := by
  obtain rfl : target = branchTarget s.pc imm := ht.trans (branchTarget_eq_ofInt s.pc imm).symm
  have taken (holds : P) : exec i s = transferTo (branchTarget s.pc imm) s s := he.trans (if_pos (decides.mpr holds))
  refine ⟨fun holds aligned => ?aligned, fun holds misaligned => ?misaligned, fun fails => ?notTaken⟩
  case aligned => exact (taken holds).trans (transferTo_aligned aligned)
  case misaligned => exact completes_raise ((taken holds).trans (transferTo_misaligned misaligned))
  case notTaken => exact he.trans (if_neg (fails ∘ decides.mp))

/-- The return address written and control at the target: what `call` and `callr` leave (R223, R224). -/
theorem setReg_goto_linksAndGoes (target : Word) (s : State) :
    LinksAndGoes target s ((s.setReg raReg (s.pc + 4#32)).goto target) := by
  obtain ⟨-, becomes, same⟩ := setReg_advance_writesRegister raReg (s.pc + 4#32) s
  exact ⟨congrArg (State.goto · target) (setRegOf_eq s s.crs raReg (s.pc + 4#32)), becomes, same⟩

theorem transferTo_of_four_dvd {arrive : State} (h : 4 ∣ target.toNat) :
    transferTo target arrive s = .next (arrive.goto target) :=
  transferTo_aligned (aligned4_iff_dvd.mpr h)

/-- But for r31, whose use R402 forbids, `jmp` is a transfer to its register. -/
theorem exec_jmp_of_ne (legal : a ≠ 31#5) : exec (.jmp a) s = transferTo (s.reg a) s s :=
  if_neg legal

/-- Settles O24: each is a branch on the relation its `Bool` decides. -/
theorem branchResults : Obligations.BranchResults := by
  intro s a b imm target ht
  refine ⟨branchesIf_of_branchIf (condition := true) rfl ?br ht, branchesIf_of_branchIf rfl ?beq ht,
    branchesIf_of_branchIf rfl ?bne ht, branchesIf_of_branchIf rfl ?bge ht, branchesIf_of_branchIf rfl ?bgeu ht,
    branchesIf_of_branchIf rfl ?blt ht, branchesIf_of_branchIf rfl ?bltu ht⟩
  case br => exact iff_of_true rfl trivial
  case beq => exact beq_iff_eq
  case bne => exact bne_iff_ne
  case bge => exact BitVec.sle_iff_toInt_le
  case bgeu => exact BitVec.ule_iff_toNat_le
  case blt => exact BitVec.slt_iff_toInt_lt
  case bltu => exact BitVec.ult_iff_toNat_lt

/-- Settles O25: `call` and `jmpi` need no alignment check; the others transfer to a register read before the link is
written, so `callr r31` goes to the old x[31]. -/
theorem jumpResults : Obligations.JumpResults := by
  intro s a c imm
  rw [← segmentTarget_eq_ofNat]
  refine ⟨?call, ?jmpi, fun aligned => ?callr, fun aligned legal => ?jmp, fun aligned => ?ret, fun writable => ?nextpc,
    ?jmpR31⟩
  case call => exact ⟨_, rfl, setReg_goto_linksAndGoes _ s⟩
  case jmpi => rfl
  case callr => exact ⟨_, transferTo_of_four_dvd aligned, setReg_goto_linksAndGoes _ s⟩
  case jmp => exact (exec_jmp_of_ne legal).trans (transferTo_of_four_dvd aligned)
  case ret => exact transferTo_of_four_dvd aligned
  case nextpc => exact yields_of_writeReg rfl writable rfl
  case jmpR31 => rfl

end Sys2Proof.Machine
end

section
/-! The family 45_cache_sync: what the cache instructions, `flushp` and `sync` do and leave unchanged (R265 to R273). What a
flush or an invalidation does to each byte, line and word of the hazard record is said first about the state operation it
calls; the statements then only put these facts together. -/

namespace Sys2Proof.Machine

variable {i : Instr} {s : State} {a : Reg} {imm : Imm16} {ea pa x : Word} {line : Nat}

/-! ## The operation each instruction calls -/

theorem exec_flushd (s : State) (a : Reg) (imm : Imm16) :
    exec (.flushd imm a) s = .next (s.flushIndex (s.effectiveAddress a imm)).advance := rfl

theorem exec_flushda (access : s.cacheOpAddress (s.effectiveAddress a imm) = .ok pa) :
    exec (.flushda imm a) s = .next (s.flushAddress pa).advance := by
  change settle s (s.cacheOpAddress _) _ = _
  rw [access]
  rfl

theorem exec_initd (supervisor : s.userMode = false) :
    exec (.initd imm a) s = .next (s.initIndex (s.effectiveAddress a imm)).advance :=
  supervisorOnly_supervisor supervisor

theorem exec_initda (implemented : s.cfg.implInitda = true)
    (access : s.cacheOpAddress (s.effectiveAddress a imm) = .ok pa) :
    exec (.initda imm a) s = .next (s.initAddress pa).advance := by
  change optionalInstr _ s (settle s (s.cacheOpAddress _) _) = _
  rw [implemented, access]
  rfl

/-- `flushi`, and `initi` in supervisor mode, do the same. -/
theorem exec_flushi_or_initi (hi : i = .flushi a ∨ i = .initi a ∧ s.userMode = false) :
    exec i s = .next (s.invalidateInstruction (s.reg a)).advance := by
  rcases hi with rfl | ⟨rfl, supervisor⟩
  · rfl
  · exact supervisorOnly_supervisor supervisor

/-! ## Without the cache (R273), and on a miss -/

theorem flushIndex_of_no_dcache (h : s.cfg.hasDcache = false) : s.flushIndex pa = s := if_neg (by simp [h])

theorem flushAddress_of_no_dcache (h : s.cfg.hasDcache = false) : s.flushAddress pa = s := if_neg (by simp [h])

theorem initIndex_of_no_dcache (h : s.cfg.hasDcache = false) : s.initIndex pa = s := if_neg (by simp [h])

theorem initAddress_of_miss (h : s.dcacheHit pa = false) : s.initAddress pa = s := if_neg (by simp [h])

theorem invalidateInstruction_of_no_icache (h : s.cfg.hasIcache = false) : s.invalidateInstruction pa = s :=
  if_neg (by simp [h])

/-- Settles O35: without its cache each operation is the identity. -/
theorem cacheInstructionsWithoutCache : Obligations.CacheInstructionsWithoutCache := by
  intro s a imm ea pa hea
  obtain rfl : ea = s.effectiveAddress a imm := hea.trans (effectiveAddress_eq a imm).symm
  refine ⟨fun noDcache => ⟨?flushd, fun supervisor => ?initd, fun access => ⟨?flushda, fun implemented => ?initda⟩⟩,
    fun noIcache => ⟨?flushi, fun supervisor => ?initi⟩⟩
  case flushd => rw [exec_flushd, flushIndex_of_no_dcache noDcache]; rfl
  case initd => rw [exec_initd supervisor, initIndex_of_no_dcache noDcache]; rfl
  case flushda => rw [exec_flushda access, flushAddress_of_no_dcache noDcache]; rfl
  case initda =>
    rw [exec_initda implemented access, initAddress_of_miss (dcacheHit_of_no_dcache noDcache)]
    rfl
  case flushi => rw [exec_flushi_or_initi (.inl rfl), invalidateInstruction_of_no_icache noIcache]; rfl
  case initi =>
    rw [exec_flushi_or_initi (.inr ⟨rfl, supervisor⟩), invalidateInstruction_of_no_icache noIcache]
    rfl

/-! ## Flushes (R265, R266) -/

/-- A flush makes its transfer only where there is something to write back. -/
theorem flushDline_transfer (s : State) (line : Nat) :
    if (s.dline line).valid = true ∧ (s.dline line).dirty = true then
      OneTransfer (.writeBack (BitVec.ofNat 32 (dlineBase s.cfg (s.dline line).tag line))) s (s.flushDline line)
    else (s.flushDline line).bus = s.bus ∧ (s.flushDline line).pending = s.pending := by
  split
  case isTrue dirty =>
    have moved : s.writeBack line = State.onBus { s with mem := _ } _ := if_pos (by simpa using dirty)
    have transfer : OneTransfer _ _ (s.writeBack line) := moved ▸ onBus_oneTransfer _ _
    exact transfer
  case isFalse clean =>
    rw [State.flushDline, writeBack_clean clean]
    exact ⟨rfl, rfl⟩

theorem flushIndex_eq (cached : s.cfg.hasDcache = true) : s.flushIndex pa =
    { s.flushDline (dlineOf s.cfg pa.toNat) with hazard := (s.flushIndex pa).hazard } := by
  unfold State.flushIndex
  rw [if_pos cached]
  rfl

theorem flushAddress_eq_of_hit (hit : s.dcacheHit pa = true) : s.flushAddress pa =
    { s.flushDline (dlineOf s.cfg pa.toNat) with hazard := (s.flushAddress pa).hazard } := by
  obtain ⟨cached, -, -⟩ := hit_iff.mp hit
  unfold State.flushAddress
  rw [if_pos cached, if_pos hit]
  rfl

theorem flushAddress_eq_of_miss (miss : s.dcacheHit pa = false) : s.flushAddress pa =
    { s with hazard := (s.flushAddress pa).hazard } := by
  unfold State.flushAddress
  rw [miss]
  split <;> rfl

/-- The word of `x` is one whose write-back a flush of the line of `pa` brings about: it stands in the dirty line of that
index, or in the line of `pa` itself (R89, R400). -/
abbrev FlushedWord (s : State) (pa x : Word) : Prop :=
  (s.dcacheHit x = true ∧ dlineOf s.cfg x.toNat = dlineOf s.cfg pa.toNat ∧
    (s.dline (dlineOf s.cfg pa.toNat)).dirty = true) ∨
  (dlineOf s.cfg x.toNat = dlineOf s.cfg pa.toNat ∧ dtagOf s.cfg x.toNat = dtagOf s.cfg pa.toNat)

/-- On a hit the line written back is the address's own. -/
theorem flushedWord_iff_of_hit (hit : s.dcacheHit pa = true) : FlushedWord s pa x ↔
    dlineOf s.cfg x.toNat = dlineOf s.cfg pa.toNat ∧ dtagOf s.cfg x.toNat = dtagOf s.cfg pa.toNat := by
  refine or_iff_right_of_imp fun ⟨hitX, sameLine, _⟩ => ⟨sameLine, ?_⟩
  obtain ⟨-, -, tagX⟩ := hit_iff.mp hitX
  obtain ⟨-, -, tag⟩ := hit_iff.mp hit
  rw [← tagX, sameLine, tag]

/-- `flushd`, and `flushda` on a hit, flush the line of the index and move the hazard of the same words. -/
theorem exec_flush (cached : s.cfg.hasDcache = true)
    (hi : (i = .flushd imm a ∧ pa = s.effectiveAddress a imm) ∨
      (i = .flushda imm a ∧ s.cacheOpAddress (s.effectiveAddress a imm) = .ok pa ∧ s.dcacheHit pa = true)) :
    ∃ u : State, exec i s = .next u.advance ∧ u = { s.flushDline (dlineOf s.cfg pa.toNat) with hazard := u.hazard } ∧
      ∀ x, u.hazardAt x = if FlushedWord s pa x ∧ s.hazardAt x = .needsWriteBack then stageAfterWriteBack s.cfg
        else s.hazardAt x := by
  rcases hi with ⟨rfl, rfl⟩ | ⟨rfl, access, hit⟩
  · exact ⟨_, exec_flushd s a imm, flushIndex_eq cached, fun x => hazardAt_flushIndex cached⟩
  · refine ⟨_, exec_flushda access, flushAddress_eq_of_hit hit, fun x => ?_⟩
    exact (hazardAt_flushAddress cached).trans
      (if_congr (and_congr_left' (flushedWord_iff_of_hit hit).symm) rfl rfl)

/-- Settles O36: both instructions are a flush of one line and a move of the hazard, of which each clause is a fact; a
miss leaves the move alone. -/
theorem flushWritesBack : Obligations.FlushWritesBack := by
  intro s a imm ea wf sound cached hea
  obtain rfl : ea = s.effectiveAddress a imm := hea.trans (effectiveAddress_eq a imm).symm
  refine ⟨fun i pa hi => ?hit, fun pa access miss => ?miss⟩
  case hit =>
    obtain ⟨u, runs, flushed, hazard⟩ := exec_flush cached hi
    have ⟨tags, _⟩ := sound
    have inCache := dlineOf_lt s.cfg pa.toNat
    refine ⟨_, runs, ?frame, fun x => ?byteAt, fun x => ?memByte, fun line => ?dline, ?transfer, hazard⟩ <;> rw [flushed]
    case frame => rw [flushDline_eq]; rfl
    case byteAt => exact byteAt_flushDline wf sound cached inCache
    case memByte => exact memByte_flushDline wf tags cached inCache
    case dline => exact (dline_flushDline line).trans (ite_congr rfl (fun own => by rw [own]) fun _ => rfl)
    case transfer => exact flushDline_transfer s _
  case miss =>
    refine ⟨_, exec_flushda access, ?frame, fun x => hazardAt_flushAddress cached⟩
    exact congrArg State.advance (flushAddress_eq_of_miss miss)

/-! ## Invalidation without a write-back (R267, R268, R86) -/

/-- `initd`, and `initda` on a hit, invalidate the line of the index. -/
theorem exec_init (cached : s.cfg.hasDcache = true)
    (hi : (i = .initd imm a ∧ pa = s.effectiveAddress a imm ∧ s.userMode = false) ∨
      (i = .initda imm a ∧ s.cfg.implInitda = true ∧ s.cacheOpAddress (s.effectiveAddress a imm) = .ok pa ∧
        s.dcacheHit pa = true)) :
    exec i s = .next (s.invalidateDline (dlineOf s.cfg pa.toNat)).advance := by
  rcases hi with ⟨rfl, rfl, supervisor⟩ | ⟨rfl, implemented, access, hit⟩
  · rw [exec_initd supervisor, State.initIndex, if_pos cached]
  · rw [exec_initda implemented access, State.initAddress, if_pos hit]

/-- Settles O37: an invalidation writes nothing back, so the bytes of its index are memory's. -/
theorem initDiscards : Obligations.InitDiscards := by
  intro s a imm ea cached hea
  obtain rfl : ea = s.effectiveAddress a imm := hea.trans (effectiveAddress_eq a imm).symm
  refine ⟨fun i pa hi => ⟨_, exec_init cached hi, rfl, fun x => ?byteAt, fun line => ?dline⟩,
    fun pa implemented access miss => ?miss⟩
  case byteAt => exact byteAt_invalidateDline (s := s)
  case dline => exact (dline_invalidateDline line).trans (ite_congr rfl (fun own => by rw [own]) fun _ => rfl)
  case miss => rw [exec_initda implemented access, initAddress_of_miss miss]; rfl

/-! ## The instruction cache (R269, R270) -/

theorem invalidateInstruction_eq (cached : s.cfg.hasIcache = true) : s.invalidateInstruction pa =
    { s with icache := (s.invalidateInstruction pa).icache, hazard := (s.invalidateInstruction pa).hazard } := by
  unfold State.invalidateInstruction
  rw [if_pos cached]
  rfl

theorem iline_invalidateInstruction (cached : s.cfg.hasIcache = true) (line : Nat) :
    (s.invalidateInstruction pa).iline line =
      if line = ilineOf s.cfg pa.toNat then { s.iline line with valid := false } else s.iline line := by
  unfold State.invalidateInstruction
  rw [if_pos cached]
  exact iline_setIline.trans (ite_congr rfl (fun own => by rw [own]) fun _ => rfl)

/-- Bytes of the index invalidated are fetched from memory; no other byte changes. -/
theorem codeByte_invalidateInstruction (cached : s.cfg.hasIcache = true) : (s.invalidateInstruction pa).codeByte x =
    if ilineOf s.cfg x.toNat = ilineOf s.cfg pa.toNat then s.memByte x else s.codeByte x := by
  have line := iline_invalidateInstruction (pa := pa) cached (ilineOf s.cfg x.toNat)
  unfold State.codeByte State.icacheHit
  rw [invalidateInstruction_eq cached] at line ⊢
  rw [line]
  split
  case isTrue => simp [State.memByte]
  case isFalse => rfl

/-- `flushi` and `initi` are event (b) of R89 for the words of their index. -/
theorem hazardAt_invalidateInstruction (cached : s.cfg.hasIcache = true) : (s.invalidateInstruction pa).hazardAt x =
    if ilineOf s.cfg x.toNat = ilineOf s.cfg pa.toNat ∧ s.hazardAt x = .needsInvalidate then .needsFlushPipeline
    else s.hazardAt x := by
  unfold State.invalidateInstruction
  rw [if_pos cached, hazardAt_moveHazard (by decide), ilineOf_word]
  refine if_congr ?_ rfl rfl
  rw [beq_iff_eq, and_comm]
  rfl

/-- Settles O38: whichever of the two it is, one line of the index is invalidated, of which each clause is a fact. -/
theorem invalidateInstructionLine : Obligations.InvalidateInstructionLine := by
  intro s a cached i hi
  refine ⟨_, exec_flushi_or_initi hi, ?frame, iline_invalidateInstruction cached,
    fun x => codeByte_invalidateInstruction cached, fun x => hazardAt_invalidateInstruction cached⟩
  exact congrArg State.advance (invalidateInstruction_eq cached)

/-! ## The pipeline and the bus (R271, R272, R87) -/

theorem exec_flushp (s : State) : exec .flushp s = .next s.flushHazard.advance := rfl

theorem exec_sync (s : State) :
    exec .sync s = .next (if s.cfg.inOrderMemory then s else s.completePending).advance := rfl

/-- Settles O39: `flushp` clears the words that waited for it, `sync` the pending accesses, of which in-order memory has
none. -/
theorem flushpAndSync : Obligations.FlushpAndSync := by
  intro s
  refine ⟨fun canonical => ⟨_, exec_flushp s, rfl, fun x => hazardAt_flushHazard canonical⟩, fun inOrder => ?inOrder,
    fun outOfOrder => ?outOfOrder⟩
  case inOrder => rw [exec_sync, if_pos inOrder]; rfl
  case outOfOrder => rw [exec_sync, outOfOrder]; rfl

end Sys2Proof.Machine
end

section
/-! The family 46_system: the control registers, the previous register set and the custom instructions (R289 to R293).
Each state operation an instruction calls gets its equations first: what `readCtl`, `writeCtl`, `withPreviousSet` and
`customAnswer` answer in each case. The statements then only put these together. -/

namespace Sys2Proof.Machine

variable {s : State} {a b c : Reg} {imm : Imm16} {v : Word}

/-! ## The control registers (R44, R45, R289, R290, R370) -/

section ControlRegisters

variable {n : Imm5} {u : State}

/-- The bits `wrctl` can write are those of the write mask, but for U on a core without user mode. -/
theorem getLsbD_writableBits (c : Config) (j : Fin 32) : (writableBits c).getLsbD j.val =
    (c.statusWriteMask.getLsbD j.val && (c.hasUserMode || j != c.statusUBit)) := by
  unfold writableBits
  cases c.hasUserMode with
  | true => simp
  | false =>
    have other : (j != c.statusUBit) = !decide (j.val = c.statusUBit.val) := by simp [bne, BEq.beq, Fin.ext_iff]
    simp only [Bool.false_eq_true, if_false, Bool.false_or, BitVec.getLsbD_and, BitVec.getLsbD_not, getLsbD_bitMask,
      j.isLt, decide_true, Bool.true_and, other]

theorem eq_writableBits {c : Config} {mask : Word} (bits : ∀ j : Fin 32, mask.getLsbD j.val =
    (c.statusWriteMask.getLsbD j.val && (c.hasUserMode || j != c.statusUBit))) : mask = writableBits c :=
  BitVec.eq_of_getLsbD_eq fun j hj => (bits ⟨j, hj⟩).trans (getLsbD_writableBits c ⟨j, hj⟩).symm

theorem readCtl_status (s : State) : s.readCtl s.cfg.ctlStatus = some s.status := if_pos rfl

theorem readCtl_estatus (wf : s.cfg.WellFormed) : s.readCtl s.cfg.ctlEstatus = some s.estatus := by
  obtain ⟨_, _, _, notStatus, _⟩ := wf
  simp [State.readCtl, notStatus.symm]

theorem readCtl_bstatus (wf : s.cfg.WellFormed) : s.readCtl s.cfg.ctlBstatus = some s.bstatus := by
  obtain ⟨_, _, _, _, notStatus, notEstatus, _⟩ := wf
  simp [State.readCtl, notStatus.symm, notEstatus.symm]

theorem readCtl_notModelled (notStatus : n ≠ s.cfg.ctlStatus) (notEstatus : n ≠ s.cfg.ctlEstatus)
    (notBstatus : n ≠ s.cfg.ctlBstatus) : s.readCtl n = none := by
  simp [State.readCtl, notStatus, notEstatus, notBstatus]

theorem writeCtl_status (s : State) (v : Word) :
    s.writeCtl s.cfg.ctlStatus v = some { s with status := v &&& writableBits s.cfg } := if_pos rfl

theorem writeCtl_estatus (wf : s.cfg.WellFormed) :
    s.writeCtl s.cfg.ctlEstatus v = some { s with estatus := v &&& writableBits s.cfg } := by
  obtain ⟨_, _, _, notStatus, _⟩ := wf
  simp [State.writeCtl, notStatus.symm]

theorem writeCtl_bstatus (wf : s.cfg.WellFormed) :
    s.writeCtl s.cfg.ctlBstatus v = some { s with bstatus := v &&& writableBits s.cfg } := by
  obtain ⟨_, _, _, _, notStatus, notEstatus, _⟩ := wf
  simp [State.writeCtl, notStatus.symm, notEstatus.symm]

theorem writeCtl_notModelled (notStatus : n ≠ s.cfg.ctlStatus) (notEstatus : n ≠ s.cfg.ctlEstatus)
    (notBstatus : n ≠ s.cfg.ctlBstatus) : s.writeCtl n v = none := by
  simp [State.writeCtl, notStatus, notEstatus, notBstatus]

theorem exec_rdctl_of_some (supervisor : s.userMode = false) (reads : s.readCtl n = some v) :
    exec (.rdctl c n) s = writeReg c v s := by
  refine (supervisorOnly_supervisor supervisor).trans ?_
  rw [reads]

theorem exec_rdctl_of_none (supervisor : s.userMode = false) (reads : s.readCtl n = none) :
    exec (.rdctl c n) s = .fault .controlRegisterNotModelled := by
  refine (supervisorOnly_supervisor supervisor).trans ?_
  rw [reads]

theorem exec_wrctl_of_some (supervisor : s.userMode = false) (writes : s.writeCtl n (s.reg a) = some u) :
    exec (.wrctl n a) s = .next u.advance := by
  refine (supervisorOnly_supervisor supervisor).trans ?_
  rw [writes]

theorem exec_wrctl_of_none (supervisor : s.userMode = false) (writes : s.writeCtl n (s.reg a) = none) :
    exec (.wrctl n a) s = .fault .controlRegisterNotModelled := by
  refine (supervisorOnly_supervisor supervisor).trans ?_
  rw [writes]

end ControlRegisters

/-- Settles O45: the three numbers are distinct in a well-formed configuration, so each selects its own register. -/
theorem controlRegisterAccess : Obligations.ControlRegisterAccess := by
  intro s c a n mask wf supervisor bits
  obtain rfl : mask = writableBits s.cfg := eq_writableBits bits
  refine ⟨fun writable => ⟨?rdStatus, ?rdEstatus, ?rdBstatus⟩, ?wrStatus, ?wrEstatus, ?wrBstatus,
    fun notStatus notEstatus notBstatus => ⟨?rdOther, ?wrOther⟩⟩
  case rdStatus => exact yields_of_writeReg (exec_rdctl_of_some supervisor (readCtl_status s)) writable rfl
  case rdEstatus => exact yields_of_writeReg (exec_rdctl_of_some supervisor (readCtl_estatus wf)) writable rfl
  case rdBstatus => exact yields_of_writeReg (exec_rdctl_of_some supervisor (readCtl_bstatus wf)) writable rfl
  case wrStatus => exact exec_wrctl_of_some supervisor (writeCtl_status s (s.reg a))
  case wrEstatus => exact exec_wrctl_of_some supervisor (writeCtl_estatus wf)
  case wrBstatus => exact exec_wrctl_of_some supervisor (writeCtl_bstatus wf)
  case rdOther => exact exec_rdctl_of_none supervisor (readCtl_notModelled notStatus notEstatus notBstatus)
  case wrOther => exact exec_wrctl_of_none supervisor (writeCtl_notModelled notStatus notEstatus notBstatus)

/-! ## The previous register set (R36, R291, R292) -/

section PreviousSet

variable {effect : Result}

theorem withPreviousSet_without (supervisor : s.userMode = false) (noSets : s.cfg.numShadow = 0) :
    withPreviousSet s effect = raise .illegalInstruction s :=
  (supervisorOnly_supervisor supervisor).trans (if_pos noSets)

theorem withPreviousSet_past (supervisor : s.userMode = false) (sets : 0 < s.cfg.numShadow)
    (past : s.cfg.numShadow < s.prs) : withPreviousSet s effect = .fault .prsNamesNoRegisterSet :=
  ((supervisorOnly_supervisor supervisor).trans (if_neg sets.ne')).trans (if_pos past)

theorem withPreviousSet_inRange (supervisor : s.userMode = false) (sets : 0 < s.cfg.numShadow)
    (inRange : s.prs ≤ s.cfg.numShadow) : withPreviousSet s effect = effect :=
  ((supervisorOnly_supervisor supervisor).trans (if_neg sets.ne')).trans (if_neg (Nat.not_lt.mpr inRange))

end PreviousSet

theorem add_sextImm_eq_ofInt (x : Word) (imm : Imm16) : x + sextImm imm = BitVec.ofInt 32 (x.toInt + imm.toInt) := by
  rw [BitVec.ofInt_add, BitVec.ofInt_toInt, ← toInt_sextImm, BitVec.ofInt_toInt]

/-- A register of any set written, and the advance: nothing else changes. -/
theorem setRegOf_advance_becomes (s : State) (k : Nat) (r : Reg) (v : Word) :
    (s.setRegOf k r v).advance = { s with regs := (s.setRegOf k r v).advance.regs, pc := s.pc + 4#32 } ∧
    RegisterBecomes k r v s (s.setRegOf k r v).advance ∧ SameMemory s (s.setRegOf k r v).advance := by
  refine ⟨?frame, (setRegOf_becomes s k r v).of_regs_eq rfl, SameMemory.of_eq ?_ ?_ ?_ ?_ ?_ ?_⟩
  case frame => exact congrArg State.advance (setRegOf_eq s k r v)
  all_goals simp

/-- Settles O46: the checks the two instructions share decide the case; where the set exists each is one register write,
`wrprs` that of a set that need not be the current one. -/
theorem previousSetAccess : Obligations.PreviousSetAccess := by
  intro s b c a imm supervisor
  refine ⟨fun noSets => ⟨?rdWithout, ?wrWithout⟩, fun sets past => ⟨?rdPast, ?wrPast⟩,
    fun sets inRange => ⟨fun writable => ?rdprs, ?wrprs⟩⟩
  case rdWithout => exact completes_raise (withPreviousSet_without supervisor noSets)
  case wrWithout => exact completes_raise (withPreviousSet_without supervisor noSets)
  case rdPast => exact withPreviousSet_past supervisor sets past
  case wrPast => exact withPreviousSet_past supervisor sets past
  case rdprs =>
    exact yields_of_writeReg (withPreviousSet_inRange supervisor sets inRange) writable (add_sextImm_eq_ofInt _ imm)
  case wrprs =>
    exact ⟨_, withPreviousSet_inRange supervisor sets inRange, setRegOf_advance_becomes s s.prs c (s.reg a)⟩

/-! ## Custom instructions (R46, R126, R293) -/

section Custom

variable {n m : BitVec 8} {f : CustomFn} {readra readrb writerc : Bool}

/-- The spec's example adds where all three flag bits are 1. -/
theorem customAnswer_add32 :
    (customAnswer .add32 n (s.customCall n c a b true true true)).1 = s.reg a + s.reg b := rfl

theorem customState_setCustomState_other (other : m ≠ n) (state : List Word) :
    (s.setCustomState n state).customState m = s.customState m :=
  Sparse.get_set_other fun same => other (BitVec.eq_of_toNat_eq same)

theorem exec_custom_of_none (unused : s.cfg.custom.lookup n = none) :
    exec (.custom n c a b readra readrb writerc) s = reservedEncoding s := by
  change execCustom n c a b readra readrb writerc s = _
  unfold execCustom
  rw [unused]

theorem exec_custom_writing (configured : s.cfg.custom.lookup n = some f) :
    exec (.custom n c a b readra readrb true) s =
      writeReg c (customAnswer f n (s.customCall n c a b readra readrb true)).1
        (s.setCustomState n (customAnswer f n (s.customCall n c a b readra readrb true)).2) := by
  change execCustom n c a b readra readrb true s = _
  unfold execCustom
  rw [configured]
  rfl

theorem exec_custom_silent (configured : s.cfg.custom.lookup n = some f) :
    exec (.custom n c a b readra readrb false) s =
      .next (s.setCustomState n (customAnswer f n (s.customCall n c a b readra readrb false)).2).advance := by
  change execCustom n c a b readra readrb false s = _
  unfold execCustom
  rw [configured]
  rfl

/-- The custom state of one N and a register written, and the advance: every other custom state reads as before. -/
theorem setCustomState_setReg_advance {t : State} {state : List Word}
    (after : t = ((s.setCustomState n state).setReg c v).advance) :
    t = { s with regs := t.regs, pc := s.pc + 4#32, custom := t.custom } ∧ RegisterBecomes s.crs c v s t ∧
    (∀ m, m ≠ n → t.customState m = s.customState m) ∧ SameMemory s t := by
  obtain ⟨frame, becomes, same⟩ := setReg_advance_writesRegister c v (s.setCustomState n state)
  rw [← after] at frame becomes same
  have custom : t.custom = (s.setCustomState n state).custom := by rw [frame]
  refine ⟨?_, becomes.of_base (SameRegisters.of_regs_eq rfl), fun m other => ?_, same⟩
  · rw [custom]
    exact frame
  · exact (congrArg (Sparse.get [] · m.toNat) custom).trans (customState_setCustomState_other other state)

end Custom

/-- Settles O47: without a function the answer is that of a reserved encoding; with one, its new state is written first,
and the register where `writerc` is 1. -/
theorem customResults : Obligations.CustomResults := by
  intro s n c a b readra readrb writerc
  refine ⟨fun unused => ⟨fun traps => ?traps, fun stops => ?stops⟩,
    fun f configured => ⟨fun writable => ?writing, ?silent⟩⟩
  case traps => exact completes_raise ((exec_custom_of_none unused).trans (reservedEncoding_illegal traps))
  case stops => exact (exec_custom_of_none unused).trans (reservedEncoding_stops stops)
  case writing =>
    have writes := writeReg_of_writable (v := (customAnswer f n (s.customCall n c a b readra readrb true)).1)
      (s := s.setCustomState n (customAnswer f n (s.customCall n c a b readra readrb true)).2) writable
    obtain ⟨frame, becomes, others, same⟩ := setCustomState_setReg_advance (s := s) (n := n) rfl
    refine ⟨_, _, (exec_custom_writing configured).trans writes, frame, becomes, others, same, ?_⟩
    rintro rfl rfl rfl
    exact customAnswer_add32
  case silent =>
    exact ⟨_, exec_custom_silent configured, rfl, fun m other => customState_setCustomState_other other _⟩

end Sys2Proof.Machine
end

section
/-! The family 47_pseudo: what the expansions of the pseudo-instructions do (R311 to R336). Each expansion is taken from
the results of the instructions it is made of; what is left to say is the value of the immediate the assembler
places. -/

namespace Sys2Proof.Machine

variable {s t u : State} {r : Reg} {v w : Word}

/-! ## The immediates placed (R315 to R329, R335, R336) -/

section Immediates

variable {m : Int}

/-- A number in the signed range is what its 16 bits are read as, signed. -/
theorem toInt_ofInt_of_signed (lower : -32768 ≤ m) (upper : m ≤ 32767) : (BitVec.ofInt 16 m).toInt = m :=
  BitVec.toInt_ofInt_eq_self (by decide) lower (Int.lt_add_one_of_le upper)

/-- A number in the unsigned range is what its 16 bits are read as, unsigned. -/
theorem toNat_ofInt_of_unsigned (lower : 0 ≤ m) (upper : m ≤ 65535) : ((BitVec.ofInt 16 m).toNat : Int) = m := by
  rw [BitVec.toNat_ofInt]
  omega

theorem sextImm_eq_ofInt (imm : Imm16) : sextImm imm = BitVec.ofInt 32 imm.toInt := by
  rw [← toInt_sextImm, BitVec.ofInt_toInt]

theorem zextImm_eq_ofInt (imm : Imm16) : zextImm imm = BitVec.ofInt 32 imm.toNat := by
  rw [← toNat_zextImm, BitVec.ofInt_natCast, BitVec.ofNat_toNat, BitVec.setWidth_eq]

theorem toNat_highImm (imm : Imm16) : (highImm imm).toNat = imm.toNat * 65536 := by
  simp only [highImm, toNat_append_eq_add, BitVec.toNat_zero, add_zero, Nat.reducePow]

theorem highImm_eq_ofInt (imm : Imm16) : highImm imm = BitVec.ofInt 32 (imm.toNat * 65536) := by
  have value : (imm.toNat * 65536 : Int) = (highImm imm).toNat := by rw [toNat_highImm, Nat.cast_mul, Nat.cast_ofNat]
  rw [value, BitVec.ofInt_natCast, BitVec.ofNat_toNat, BitVec.setWidth_eq]

/-- `%hiadj` is the label's nearest multiple of 2^16, divided by 2^16 and taken modulo 2^16 (R336). -/
theorem toNat_hiadjMacro (label : Word) : (hiadjMacro label).toNat = (label.toNat + 32768) / 65536 % 65536 := by
  rw [hiadjMacro, BitVec.toNat_add, BitVec.toNat_setWidth, BitVec.extractLsb'_toNat, BitVec.extractLsb'_toNat,
    Nat.shiftRight_eq_div_pow, Nat.shiftRight_eq_div_pow]
  omega

/-- The high half `orhi` puts there is that multiple modulo 2^32: 0 in the corner of R336. -/
theorem highImm_hiadjMacro (label : Word) :
    highImm (hiadjMacro label) = BitVec.ofNat 32 ((label.toNat + 32768) / 65536 * 65536) := by
  apply BitVec.eq_of_toNat_eq
  rw [toNat_highImm, toNat_hiadjMacro, BitVec.toNat_ofNat]
  omega

/-- `%lo`, signed, is the label's distance from that multiple. -/
theorem toInt_loMacro (label : Word) :
    (loMacro label).toInt = label.toNat - ((label.toNat + 32768) / 65536 * 65536 : Nat) := by
  rw [BitVec.toInt_eq_toNat_cond, loMacro, BitVec.extractLsb'_toNat, Nat.shiftRight_eq_div_pow]
  omega

/-- The two halves `movia` adds are the label (R326). -/
theorem highImm_hiadjMacro_add_sextImm_loMacro (label : Word) :
    highImm (hiadjMacro label) + sextImm (loMacro label) = label := by
  rw [highImm_hiadjMacro, sextImm_eq_ofInt, toInt_loMacro, ← BitVec.ofInt_natCast, ← BitVec.ofInt_add,
    add_sub_cancel, BitVec.ofInt_natCast, BitVec.ofNat_toNat, BitVec.setWidth_eq]

end Immediates

/-! ## One instruction (R311 to R325, R327 to R329) -/

/-- Settles O58: each expansion is an instruction whose result is known, at an immediate that its 16 bits hold. The
comparisons with a constant are those with the constant plus 1, and the moves read r0 as 0. -/
theorem pseudoResults : Obligations.PseudoResults := by
  intro s c a b m writable zero
  have ⟨_, _, _, _, cmpge, _, cmpgeu, _, cmplt, _, cmpltu, _⟩ := comparisonResults s c b a 0#16 writable
  have ⟨_, _, _, _, _, cmpgei, _, cmpgeui, _, cmplti, _, cmpltui⟩ :=
    comparisonResults s c a b (BitVec.ofInt 16 (m + 1)) writable
  have ⟨_, movi, _⟩ := addSubResults s c 0#5 0#5 (BitVec.ofInt 16 m) writable
  have ⟨_, subi, _⟩ := addSubResults s c a 0#5 (BitVec.ofInt 16 (-m)) writable
  simp only [List.forall_mem_cons]
  refine ⟨fun _ => ⟨_, rfl, cmplt⟩, fun _ => ⟨_, rfl, cmpltu⟩, fun _ => ⟨_, rfl, cmpge⟩, fun _ => ⟨_, rfl, cmpgeu⟩,
    fun ⟨lower, upper⟩ => ⟨_, rfl, ?cmpgti⟩, fun ⟨lower, upper⟩ => ⟨_, rfl, ?cmpgtui⟩,
    fun ⟨lower, upper⟩ => ⟨_, rfl, ?cmplei⟩, fun ⟨lower, upper⟩ => ⟨_, rfl, ?cmpleui⟩,
    fun _ => ⟨_, rfl, yields_of_writeReg rfl writable ?mov⟩,
    fun ⟨lower, upper⟩ => ⟨_, rfl, yields_of_writeReg rfl writable ?movhi⟩, fun ⟨lower, upper⟩ => ⟨_, rfl, ?movi⟩,
    fun ⟨lower, upper⟩ => ⟨_, rfl, yields_of_writeReg rfl writable ?movui⟩, fun ⟨lower, upper⟩ => ⟨_, rfl, ?subi⟩,
    List.forall_mem_nil _⟩
  case cmpgti =>
    have value := toInt_ofInt_of_signed (m := m + 1) (by omega) (by omega)
    simpa only [value, Int.add_one_le_iff] using cmpgei
  case cmpgtui =>
    have value := toNat_ofInt_of_unsigned (m := m + 1) (by omega) (by omega)
    simpa only [← Int.ofNat_le, value, Int.add_one_le_iff] using cmpgeui
  case cmplei =>
    have value := toInt_ofInt_of_signed (m := m + 1) (by omega) (by omega)
    simpa only [value, Int.lt_add_one_iff] using cmplti
  case cmpleui =>
    have value := toNat_ofInt_of_unsigned (m := m + 1) (by omega) (by omega)
    simpa only [← Int.ofNat_lt, value, Int.lt_add_one_iff] using cmpltui
  case mov => rw [zero, BitVec.add_zero]
  case movhi => rw [zero, BitVec.zero_or, highImm_eq_ofInt, toNat_ofInt_of_unsigned lower upper]
  case movi => simpa only [zero, toInt_ofInt_of_signed lower upper, BitVec.toInt_zero, zero_add] using movi
  case movui => rw [zero, BitVec.zero_or, zextImm_eq_ofInt, toNat_ofInt_of_unsigned lower upper]
  case subi => rwa [toInt_ofInt_of_signed (by omega) (by omega), ← sub_eq_add_neg] at subi

/-- Settles O59: the four are branches with their registers exchanged; `nop` is a plain write to r0, discarded in set 0
and without a meaning in a shadow set. -/
theorem pseudoBranches : Obligations.PseudoBranches := by
  intro s a b imm target ht
  have ⟨_, _, _, bge, bgeu, blt, bltu⟩ := branchResults s b a imm target ht
  simp only [expand, List.forall_mem_singleton]
  refine ⟨blt, bltu, bge, bgeu, fun set0 => ?nop, fun shadow => ?nopInShadow⟩
  case nop =>
    have discarded (v : Word) : s.setReg 0#5 v = s := by rw [State.setReg, set0, setRegOf_zero]
    exact (writeReg_of_writable (.inr set0)).trans (by rw [discarded]; rfl)
  case nopInShadow => exact writeReg_not_writable (by simp [Writable, shadow])

/-! ## `movia` (R326, R335, R336) -/

/-- The values need not agree for r0 of set 0, which discards what it is given (R33). -/
theorem RegisterBecomes.value_eq {k : Nat} (h : RegisterBecomes k r v s t) (hv : ¬ (k = 0 ∧ r = 0#5) → v = w) :
    RegisterBecomes k r w s t := by
  intro set x
  rw [h set x]
  exact ite_congr rfl (fun ⟨_, _, written⟩ => hv written) (fun _ => rfl)

/-- Of two writes to one register of a set only the second is seen. -/
theorem RegisterBecomes.overwrite {k : Nat} (first : RegisterBecomes k r v s t) (second : RegisterBecomes k r w t u) :
    RegisterBecomes k r w s u := by
  intro set x
  rw [second set x, first set x]
  split_ifs <;> rfl

theorem SameMemory.trans (first : SameMemory s t) (second : SameMemory t u) : SameMemory s u := fun a =>
  have ⟨memory, bytes, code⟩ := first a
  have ⟨memory', bytes', code'⟩ := second a
  ⟨memory'.trans memory, bytes'.trans bytes, code'.trans code⟩

/-- Two instructions that write one register leave the second's value there, and `pc` two words on. -/
theorem WritesRegister.overwrite (first : WritesRegister r v s t) (second : WritesRegister r w t u) :
    u = { s with regs := u.regs, pc := s.pc + 8#32 } ∧ RegisterBecomes s.crs r w s u ∧ SameMemory s u := by
  have crs := first.crs_eq
  obtain ⟨frame, becomes, same⟩ := first
  obtain ⟨frame', becomes', same'⟩ := second
  rw [crs] at becomes'
  refine ⟨?_, becomes.overwrite becomes', same.trans same'⟩
  rw [frame', frame]
  simp [BitVec.add_assoc]

/-- Settles O60: `orhi` writes the adjusted high half and `addi` adds the low half to what it reads back. That is the
value just written, unless the register is r0 of set 0, where both writes are discarded. -/
theorem moviaLoadsLabel : Obligations.MoviaLoadsLabel := by
  intro s b label writable zero
  have ⟨t, runOrhi, high⟩ : Completes (.orhi b 0#5 (hiadjMacro label)) s
      (WritesRegister b (s.reg 0#5 ||| highImm (hiadjMacro label)) s) := completes_of_writeReg rfl writable
  have writable' : Writable b t := by rwa [Writable, high.crs_eq]
  have ⟨u, runAddi, low⟩ : Completes (.addi b b (loMacro label)) t
      (WritesRegister b (t.reg b + sextImm (loMacro label)) t) := completes_of_writeReg rfl writable'
  rw [zero, BitVec.zero_or] at high
  have sum (written : ¬ (s.crs = 0 ∧ b = 0#5)) : t.reg b + sextImm (loMacro label) = label := by
    have ⟨_, becomes, _⟩ := high
    rw [State.reg, high.crs_eq, becomes.same written, highImm_hiadjMacro_add_sextImm_loMacro]
  obtain ⟨frame, becomes, same⟩ := high.overwrite low
  rw [highImm_hiadjMacro] at high
  obtain ⟨frameHigh, becomesHigh, -⟩ := high
  exact ⟨rfl, t, u, runOrhi, runAddi, frameHigh, frame, becomesHigh, becomes.value_eq sum, same⟩

end Sys2Proof.Machine
end

section
/-! The family 60_exceptions: the entries of exceptions, of breaks and of interrupts, the returns, and what raises each
exception (R343 to R371). What an entry writes is said by `takeException_enters` and `takeBreak_enters`, and all that an
instruction or a step can answer by `exec_next` and `step_next`; here the case that raises is picked out. -/

namespace Sys2Proof.Machine

variable {i : Instr} {s t : State} {e : Exception} {target pa : Word}

/-! ## Labels (log 21) -/

@[simp] theorem takeException_label (e : Exception) (s : State) : (takeException e s).label = some e := by
  simp [takeException]

@[simp] theorem takeBreak_label (s : State) : (takeBreak s).label = some .breakpoint := by
  simp [takeBreak]

theorem EntersException.label_eq (h : EntersException e s t) : t.label = some e := by
  obtain ⟨frame, -⟩ := h
  rw [frame]

/-! ## Precision (R353) -/

/-- Settles O48: whatever an instruction did, it entered an exception, entered a break, or left no label. -/
theorem exceptionsArePrecise : Obligations.ExceptionsArePrecise := by
  intro i s t e unlabelled h labelled
  rcases (exec_next h).label_cases unlabelled with ⟨raised, rfl, notBreak, -⟩ | rfl | quiet
  · obtain rfl : raised = e := by simpa using labelled
    exact .inr ⟨notBreak, takeException_enters raised s⟩
  · obtain rfl : Exception.breakpoint = e := by simpa using labelled
    exact .inl ⟨rfl, takeBreak_enters s⟩
  · rw [quiet] at labelled
    cases labelled

/-! ## Supervisor-only instructions (R344, R371) -/

/-- Settles O44: each of the eight is `supervisorOnly` around its effect, which user mode does not reach. -/
theorem supervisorOnlyRaises : Obligations.SupervisorOnlyRaises := by
  intro s a b c n imm user
  simp only [List.forall_mem_cons]
  refine ⟨?eret, ?bret, ?rdctl, ?wrctl, ?rdprs, ?wrprs, ?initd, ?initi, List.forall_mem_nil _⟩
  all_goals exact completes_raise (supervisorOnly_user user)

/-! ## Confinement of user mode (R370, R371) -/

/-- The control registers and the current register set are those of before. -/
structure SameControl (s t : State) : Prop where
  status : t.status = s.status
  estatus : t.estatus = s.estatus
  bstatus : t.bstatus = s.bstatus
  crs : t.crs = s.crs

theorem Quiet.sameControl (h : Quiet s t) : SameControl s t := ⟨h.status, h.estatus, h.bstatus, h.crs⟩

theorem SameControl.refl (s : State) : SameControl s s := ⟨rfl, rfl, rfl, rfl⟩

theorem SameControl.goto (h : SameControl s t) (target : Word) : SameControl s (t.goto target) :=
  ⟨h.status, h.estatus, h.bstatus, h.crs⟩

theorem SameControl.advance (h : SameControl s t) : SameControl s t.advance := h.goto _

theorem SameControl.setReg (h : SameControl s t) (r : Reg) (v : Word) : SameControl s (t.setReg r v) :=
  ⟨by simp [h.status], by simp [h.estatus], by simp [h.bstatus], by simp [h.crs]⟩

/-- What an instruction did in user mode without an exception kept the control registers and the register set: the
effects that write them are those of supervisor mode. -/
theorem Did.sameControl (h : Did i s t) (user : s.userMode = true) (unlabelled : t.label = none) : SameControl s t := by
  have supervised (supervisor : s.userMode = false) : SameControl s t := by simp [user] at supervisor
  cases h with
  | raised e entry _ => subst entry; simp at unlabelled
  | broke _ _ entry => subst entry; simp at unlabelled
  | returned supervisor _ _ | returnedFromBreak supervisor _ _ | wroteControl _ _ _ supervisor _ _
  | wrotePrevious _ _ _ supervisor _ _ => exact supervised supervisor
  | wrote r v _ _ after => subst after; exact ((SameControl.refl s).setReg r v).advance
  | drew r _ _ after => subst after; exact ((quiet_drawn s).sameControl.setReg r _).advance
  | called target _ _ after => subst after; exact ((SameControl.refl s).setReg _ _).goto target
  | loaded _ _ _ _ r _ _ v _ _ _ _ access _ after =>
    subst after
    exact ((quiet_memRead access).sameControl.setReg r v).advance
  | stored _ _ _ _ _ _ _ _ _ access after => subst after; exact (quiet_memWrite access).sameControl.advance
  | flushedIndex _ _ _ after => subst after; exact (quiet_flushIndex s _).sameControl.advance
  | flushedAddress _ _ _ _ _ after => subst after; exact (quiet_flushAddress s _).sameControl.advance
  | initIndex _ after => subst after; exact (quiet_initIndex s _).sameControl.advance
  | initAddress _ after => subst after; exact (quiet_initAddress s _).sameControl.advance
  | invalidated _ after => subst after; exact (quiet_invalidateInstruction s _).sameControl.advance
  | customWrote n state r v _ _ after =>
    subst after
    have ran : SameControl s (s.setCustomState n state) := ⟨rfl, rfl, rfl, rfl⟩
    exact (ran.setReg r v).advance
  | went _ _ after | advanced after | flushedPipeline after | synced _ after | customRan _ _ after =>
    subst after
    exact ⟨rfl, rfl, rfl, rfl⟩

/-- In user mode `wrprs` leaves a label. -/
theorem user_wrprs_labelled {c a : Reg} (user : s.userMode = true) (h : exec (.wrprs c a) s = .next t) :
    t.label = some .supervisorOnlyInstruction := by
  obtain ⟨u, hu, enters⟩ := supervisorOnlyRaises s a 0 c 0 0 user (.wrprs c a) (by simp)
  obtain rfl : u = t := Host.Outcome.next.inj (hu.symm.trans h)
  exact enters.label_eq

/-- Settles O49: the control state by what the instruction did; a register of another set would have been written by
`wrprs` or by an exception (O50), and both leave a label. -/
theorem userModeConfined : Obligations.UserModeConfined := by
  intro i s t user _ h unlabelled
  have kept : SameControl s t := (exec_next h).sameControl user unlabelled
  have userAfter : t.userMode = true := by
    rw [State.userMode, (exec_next h).cfg_eq, kept.status]
    exact user
  refine ⟨kept.status, kept.estatus, kept.bstatus, kept.crs, userAfter, fun set x other => ?_⟩
  by_contra changed
  rcases registerFrame i s t h set x changed with
    ⟨current, -⟩ | ⟨-, a, rfl⟩ | ⟨current, -⟩ | ⟨current, -⟩ | ⟨-, e, enters⟩
  · exact other current
  · simp [user_wrprs_labelled user h] at unlabelled
  · exact other current
  · exact other current
  · simp [enters.label_eq] at unlabelled

/-! ## Interrupts (R360, R361) -/

theorem interrupted_iff : s.interrupted = true ↔
    s.irq.head? = some true ∧ s.status.getLsbD s.cfg.statusPieBit.val = true := by
  unfold State.interrupted pieOf
  rw [Bool.and_eq_true]
  cases s.irq <;> simp

theorem step_of_interrupted (h : s.interrupted = true) : step s = .next (takeException .interrupt s.begin) :=
  if_pos h

theorem ClearsPieAndU.pie {c : Config} {before after : Word} (h : ClearsPieAndU c before after) :
    after.getLsbD c.statusPieBit.val = false := by
  rw [h c.statusPieBit]
  simp

/-- Settles O6: the step is the entry, which clears PIE. -/
theorem interruptEntry : Obligations.InterruptEntry := by
  intro s pending enabled
  have enters := takeException_enters .interrupt s.begin
  have ⟨_, _, _, clears, _⟩ := enters
  exact ⟨_, step_of_interrupted (interrupted_iff.mpr ⟨pending, enabled⟩), enters, clears.pie⟩

/-! ## The fetch (R343, R73, R89) -/

theorem fetchAddress_error {stop : Stop} (h : s.fetchAddress = .error stop) :
    ∃ v, stop = .exception (fetchException v) := by
  unfold State.fetchAddress at h
  split at h
  · split at h
    · cases h
    · next v _ => exact ⟨v, by cases h; rfl⟩
  · cases h

/-- The exceptions a fetch can raise are those of R343. -/
theorem fetch_exception (h : s.fetch = .error (.exception e)) : ∃ v, e = fetchException v := by
  unfold State.fetch at h
  split at h
  · next stop hstop =>
    cases h
    obtain ⟨v, hv⟩ := fetchAddress_error hstop
    exact ⟨v, Stop.exception.inj hv⟩
  · split at h
    · cases h
    · split_ifs at h <;> cases h

theorem fetchException_ne_interrupt (v : FetchViolation) : fetchException v ≠ .interrupt := by
  cases v <;> decide

/-- A step with no interrupt in front of it takes none. -/
theorem step_label_ne_interrupt (quiet : s.interrupted = false) (h : step s = .next t) :
    t.label ≠ some .interrupt := by
  rcases step_next h with ⟨interrupted, -⟩ | ⟨e, raised, rfl⟩ | ⟨pa, i, u, -, did, rfl⟩ | ⟨pa, -, rfl⟩
  · simp [quiet] at interrupted
  · obtain ⟨v, rfl⟩ := fetch_exception raised
    simpa using fetchException_ne_interrupt v
  · have fetched : (s.begin.fetchAccess pa).label = none := (quiet_fetchAccess s.begin pa).label
    rcases did.label_cases fetched with ⟨e, rfl, -, notInterrupt⟩ | rfl | unlabelled
    · simpa using notInterrupt
    · simp
    · simp [unlabelled]
  · simp

/-- Settles O7: with an interrupt in front of it the step is the entry, and else no way to answer takes one. -/
theorem interruptExactlyWhen : Obligations.InterruptExactlyWhen := by
  intro s t h
  rw [← interrupted_iff]
  cases interrupted : s.interrupted with
  | true =>
    obtain rfl : takeException .interrupt s.begin = t :=
      Host.Outcome.next.inj ((step_of_interrupted interrupted).symm.trans h)
    simp
  | false => simpa using step_label_ne_interrupt interrupted h

theorem fetch_of_address_error {stop : Stop} (h : s.fetchAddress = .error stop) : s.fetch = .error stop := by
  unfold State.fetch
  rw [h]

theorem fetch_outside (hp : s.fetchAddress = .ok pa) (outside : ∀ r, regionOf s.cfg pa = some r → r.fetch = false) :
    s.fetch = .error (.fault .outsideMemoryMap) := by
  unfold State.fetch
  rw [hp]
  cases hr : regionOf s.cfg pa with
  | none => simp [hr]
  | some r => simp [hr, outside r hr]

theorem fetch_modified {r : Region} (hp : s.fetchAddress = .ok pa) (hr : regionOf s.cfg pa = some r)
    (hf : r.fetch = true) (modified : s.fetchable pa = false) : s.fetch = .error (.fault .fetchOfModifiedMemory) := by
  unfold State.fetch
  rw [hp]
  simp [hr, hf, modified]

/-- A step whose fetch is stopped answers the stop. -/
theorem step_of_fetch_error {stop : Stop} (quiet : s.interrupted = false) (h : s.begin.fetch = .error stop) :
    step s = stopAnswer s.begin stop := by
  unfold step runInstruction
  rw [quiet, if_neg (by decide), h, settle_error]

theorem fetchAddress_consulted (h : s.cfg.hasMmu = true ∨ s.cfg.hasMpu = true) : s.fetchAddress =
    (Config.protectFetch s.cfg s.pc s.userMode).mapError (fun v => .exception (fetchException v)) := by
  unfold State.fetchAddress
  rw [if_pos (by simpa using h)]
  cases Config.protectFetch s.cfg s.pc s.userMode <;> rfl

/-- Settles O8: `begin` touches nothing a fetch looks at, so each reason to stop the fetch is the answer of the step. -/
theorem fetchStops : Obligations.FetchStops := by
  intro s quiet
  refine ⟨fun consulted => ?protect, fun pa hp outside => ?outside, fun pa r hp hr hf modified => ?modified⟩
  case protect =>
    have address := fetchAddress_consulted consulted
    cases answer : Config.protectFetch s.cfg s.pc s.userMode with
    | ok pa => rw [address, answer]; rfl
    | error v =>
      rw [answer] at address
      have violation : s.begin.fetch = .error (.exception (fetchException v)) :=
        fetch_of_address_error (s := s.begin) address
      exact ⟨_, step_of_fetch_error quiet violation, takeException_enters _ _⟩
  case outside => exact step_of_fetch_error quiet (fetch_outside (s := s.begin) hp outside)
  case modified =>
    have notFetchable : s.fetchable pa = false := by
      rw [← Bool.not_eq_true, fetchable_iff, not_forall]
      exact modified
    exact step_of_fetch_error quiet (fetch_modified (s := s.begin) hp hr hf notFetchable)

/-! ## Unimplemented instruction (R346) -/

theorem optionalInstr_missing {implemented : Bool} {effect : Result} (h : implemented = false) :
    optionalInstr implemented s effect = raise .unimplementedInstruction s :=
  if_neg (by simp [h])

/-- Settles O16: each of the eight is `optionalInstr` around its effect. -/
theorem unimplementedRaises : Obligations.UnimplementedRaises := by
  intro s c a b imm
  simp only [List.forall_mem_cons]
  refine ⟨?mul, ?muli, ?mulxss, ?mulxsu, ?mulxuu, ?div, ?divu, ?initda, List.forall_mem_nil _⟩
  all_goals exact fun missing => completes_raise (optionalInstr_missing missing)

/-! ## Misaligned addresses (R348, R349) -/

theorem transferTo_of_not_four_dvd {arrive : State} (h : ¬ 4 ∣ target.toNat) :
    transferTo target arrive s = raise .misalignedDestinationAddress s :=
  transferTo_misaligned (mt aligned4_iff_dvd.mp h)

theorem BranchesIf.raises {P : Prop} (h : BranchesIf P target i s) (misaligned : ¬ Word.Aligned4 target) (taken : P) :
    Completes i s (EntersException .misalignedDestinationAddress s) := by
  obtain ⟨-, raises, -⟩ := h
  exact raises taken misaligned

/-- From a word-aligned `pc` an offset that is no multiple of 4 leads to no word-aligned target. -/
theorem branch_misaligned {pc : Word} {imm : Imm16} (aligned : pc.toNat % 4 = 0) (offset : imm.toNat % 4 ≠ 0) :
    ¬ Word.Aligned4 (BitVec.ofInt 32 ((pc.toNat : Int) + 4 + imm.toInt)) := by
  rw [aligned4_iff_dvd, BitVec.toNat_ofInt, BitVec.toInt_eq_toNat_cond]
  split <;> omega

/-- Settles O26: a branch by what O24 says of its misaligned target, a jump or a return by its register. -/
theorem misalignedDestinationRaises : Obligations.MisalignedDestinationRaises := by
  intro s a b imm aligned
  refine ⟨fun offset => ?branches, fun misaligned => ⟨?callr, fun legal => ?jmp⟩, fun misaligned => ?ret,
    fun supervisor misaligned => ?eret, fun supervisor misaligned => ?bret⟩
  case branches =>
    obtain ⟨br, beq, bne, bge, bgeu, blt, bltu⟩ := branchResults s a b imm _ rfl
    have misaligned := branch_misaligned aligned offset
    simp only [List.forall_mem_cons]
    exact ⟨br.raises misaligned, beq.raises misaligned, bne.raises misaligned, bge.raises misaligned,
      bgeu.raises misaligned, blt.raises misaligned, bltu.raises misaligned, List.forall_mem_nil _⟩
  case callr => exact completes_raise (transferTo_of_not_four_dvd misaligned)
  case jmp => exact completes_raise ((exec_jmp_of_ne legal).trans (transferTo_of_not_four_dvd misaligned))
  case ret => exact completes_raise (transferTo_of_not_four_dvd misaligned)
  case eret =>
    exact completes_raise ((supervisorOnly_supervisor supervisor).trans (transferTo_of_not_four_dvd misaligned))
  case bret =>
    exact completes_raise ((supervisorOnly_supervisor supervisor).trans (transferTo_of_not_four_dvd misaligned))

/-- The forms of the loads and of the stores, as one relation. -/
theorem accesses_of_form {w : Width} {kind : AccessKind} {b a : Reg} {imm : Imm16}
    (h : (∃ con path signed, (con, path, w, signed) ∈ loadForms ∧ i = con b imm a ∧ kind = .read) ∨
      (∃ con path, (con, path, w) ∈ storeForms ∧ i = con b imm a ∧ kind = .write)) :
    ∃ path, Accesses i kind path w b imm a := by
  rcases h with ⟨con, path, signed, load⟩ | ⟨con, path, store⟩
  · exact ⟨path, .inl ⟨con, signed, load⟩⟩
  · exact ⟨path, .inr ⟨con, store⟩⟩

/-- Settles O31: the access is stopped at its address, by the exception or the fault `MISALIGNED_DATA_EXC` chooses. -/
theorem misalignedDataRaisesOrStops : Obligations.MisalignedDataRaisesOrStops := by
  intro s b a imm ea hea i w kind access misaligned first
  obtain rfl : ea = s.effectiveAddress a imm := hea.trans (effectiveAddress_eq a imm).symm
  obtain ⟨path, access⟩ := accesses_of_form access
  have stops := access.stops (.inl (dataAddress_misaligned misaligned first))
  refine ⟨fun raises => completes_raise ?_, fun undefined => ?_⟩
  · rw [stops, if_pos raises]
    rfl
  · rw [stops, if_neg (by simp [undefined])]
    rfl

/-! ## Entries and returns (R351, R352, R365) -/

/-- The entry of `trap` asks no open hook: the handler address, the register set and the counter are fixed. -/
theorem EntersException.trap (h : EntersException .trap s t) :
    t = { s with
          regs := t.regs, pc := s.cfg.exceptionAddr, status := t.status, estatus := s.status, label := some .trap } ∧
    ClearsPieAndU s.cfg s.status t.status ∧ RegisterBecomes s.crs 29#5 (s.pc + 4#32) s t ∧ SameMemory s t := by
  obtain ⟨frame, pc, draws, clears, crs, ⟨k, set, becomes⟩, same⟩ := h
  have shared : ¬ (IsTlbMiss .trap ∧ s.cfg.hasMmu = true) := fun h => absurd h.1 (by decide)
  rw [if_neg shared] at pc
  obtain rfl : k = s.crs := by simpa using set
  have crs : t.crs = s.crs := by simpa using crs
  rw [pc, crs, draws (.inl rfl)] at frame
  exact ⟨frame, clears, becomes, same⟩

/-- Settles O41: `trap` is nothing but that entry, whatever IMM5. -/
theorem trapEntry : Obligations.TrapEntry :=
  fun s _ => ⟨_, rfl, (takeException_enters .trap s).trap⟩

/-- Settles O42: `break` is nothing but the break entry, whatever IMM5. -/
theorem breakEntry : Obligations.BreakEntry :=
  fun s _ => ⟨_, rfl, takeBreak_enters s⟩

theorem returnTo_of_four_dvd {saved : Word} {crs draws : Nat} (h : 4 ∣ target.toNat) :
    returnTo saved target crs draws s = .next { s with status := saved, pc := target, crs := crs, draws := draws } :=
  transferTo_of_four_dvd h

/-- Settles O43: both are `returnTo` in supervisor mode; `eret` alone asks the policy for a set, if there are shadow sets. -/
theorem returnsRestore : Obligations.ReturnsRestore := by
  intro s supervisor
  refine ⟨fun aligned => ?eret, fun aligned => ?bret⟩
  case eret =>
    refine ⟨_, (supervisorOnly_supervisor supervisor).trans (returnTo_of_four_dvd aligned), rfl, fun noSets => ?_,
      nextCrs_cases s .exceptionReturn⟩
    exact ⟨if_pos noSets, if_pos noSets⟩
  case bret => exact (supervisorOnly_supervisor supervisor).trans (returnTo_of_four_dvd aligned)

end Sys2Proof.Machine
end
